-- ==== Sys2Proof/Word.lean ====
section
/-! DEFINITION. The words, bytes and values of the HIIR core: the 32-bit port word (20_memory.md R60), the byte lanes of
R63, an F value (40_numerics.md R110) in 64 bits, a complex value (00_scope.md R11), and the two units (10_state.md R20). -/

namespace Sys2Proof

/-- A 32-bit word of the host port (20_memory.md R60). -/
abbrev Word := BitVec 32

/-- One byte lane of a word (20_memory.md R63). -/
abbrev Byte := BitVec 8

/-- An F value (40_numerics.md R110) by its IEEE 754 encoding. A binary64 value fills the 64 bits; a binary32 value
stands in bits 31..0 and bits 63..32 are 0 (assumption log 14). -/
abbrev F := BitVec 64

/-- A complex F value, real part first (00_scope.md R11). -/
structure Cplx where
  re : F
  im : F
  deriving DecidableEq, Repr, Inhabited

/-- The parameter FMT (00_scope.md R7). -/
inductive Format where
  | binary32
  | binary64
  deriving DecidableEq, Repr, Inhabited

/-- The two units of the block (10_state.md R20). -/
inductive UnitId where
  | fft
  | hb
  deriving DecidableEq, Repr, Inhabited

end Sys2Proof
end

