-- ==== Sys2Proof/Syntax.lean ====
section
/-! DEFINITION. The seven commands of the HIIR command set (30_encoding.md R92), one constructor per row of
spec/opcode_table.json. -/

namespace Sys2Proof

/-- A command (30_encoding.md R92). The only operand inside a command word is CH (R91), the channel index of the two
PROCESS commands; every other operand is a unit register. -/
inductive Instr where
  /-- FFT.CONFIGURE (41_fft.md R141). -/
  | fftConfigure
  /-- FFT.FORWARD (41_fft.md R142). -/
  | fftForward
  /-- FFT.INVERSE (41_fft.md R143). -/
  | fftInverse
  /-- HB.CONSTRUCT (42_hilbert.md R172). -/
  | hbConstruct
  /-- HB.RESET (42_hilbert.md R174). -/
  | hbReset
  /-- HB.PROCESS.R (42_hilbert.md R177). -/
  | hbProcessR (ch : Nat)
  /-- HB.PROCESS.C (42_hilbert.md R178). -/
  | hbProcessC (ch : Nat)
  deriving DecidableEq, Repr, Inhabited

/-- The unit whose CMD register a command is written to (the "written to" column of 30_encoding.md R92). -/
def Instr.unit : Instr → UnitId
  | .fftConfigure => .fft
  | .fftForward => .fft
  | .fftInverse => .fft
  | .hbConstruct => .hb
  | .hbReset => .hb
  | .hbProcessR _ => .hb
  | .hbProcessC _ => .hb

end Sys2Proof
end

