-- ==== Sys2Proof/WellFormed.lean ====
section
/-! DEFINITION. Which command terms an assembler accepts: a channel operand above 255 is refused (30_encoding.md R97). -/

namespace Sys2Proof

/-- A command that has an encoding: CH is an unsigned 8-bit number (30_encoding.md R91, R97). -/
def Instr.wellFormed : Instr → Bool
  | .fftConfigure => true
  | .fftForward => true
  | .fftInverse => true
  | .hbConstruct => true
  | .hbReset => true
  | .hbProcessR ch => decide (ch ≤ 255)
  | .hbProcessC ch => decide (ch ≤ 255)

/-- `wellFormed` as a proposition. -/
abbrev Instr.WellFormed (i : Instr) : Prop := i.wellFormed = true

end Sys2Proof
end

