-- ==== Sys2Proof/Decode.lean ====
section
/-! DEFINITION. The command word, format C (30_encoding.md R90): its fields, the decode of an accepted word at a unit
(R94), refusing by name what R95 calls illegal, and the encoder of R92. -/

namespace Sys2Proof

/-- Field OPC, bits [7:0] (30_encoding.md R90). -/
def fieldOpc (w : Word) : BitVec 8 := w.extractLsb' 0 8

/-- Field CH, bits [15:8] (30_encoding.md R90). -/
def fieldCh (w : Word) : BitVec 8 := w.extractLsb' 8 8

/-- Field RSV, bits [31:16] (30_encoding.md R90). -/
def fieldRsv (w : Word) : BitVec 16 := w.extractLsb' 16 16

/-- Why a word is no command at the register it was written to (the cases of 30_encoding.md R95). -/
inductive DecodeError where
  /-- Field RSV is not 0. -/
  | reservedNonzero
  /-- OPC is none of the seven of 30_encoding.md R92. -/
  | unknownOpcode
  /-- An FFT opcode at HB_CMD or an HB opcode at FFT_CMD. -/
  | wrongUnit
  /-- CH is not 0 on a command without a channel. -/
  | channelNonzero
  deriving DecidableEq, Repr

/-- `i`, accepted only with CH = 0 (30_encoding.md R94). -/
def noChannel (ch : BitVec 8) (i : Instr) : Except DecodeError Instr :=
  if ch = 0 then .ok i else .error .channelNonzero

/-- The opcode map of 30_encoding.md R92, by OPC alone: the command that OPC names, given the field CH. -/
def decodeOpcode (opc ch : BitVec 8) : Except DecodeError Instr :=
  if opc = 0x11 then noChannel ch .fftConfigure
  else if opc = 0x12 then noChannel ch .fftForward
  else if opc = 0x13 then noChannel ch .fftInverse
  else if opc = 0x21 then noChannel ch .hbConstruct
  else if opc = 0x22 then noChannel ch .hbReset
  else if opc = 0x23 then .ok (.hbProcessR ch.toNat)
  else if opc = 0x24 then .ok (.hbProcessC ch.toNat)
  else .error .unknownOpcode

/-- Decode of an accepted word at unit `u` (30_encoding.md R94). Every error here is ILLEGAL_CMD (R95). -/
def decode (u : UnitId) (w : Word) : Except DecodeError Instr :=
  if fieldRsv w = 0 then
    match decodeOpcode (fieldOpc w) (fieldCh w) with
    | .ok i => if i.unit = u then .ok i else .error .wrongUnit
    | .error e => .error e
  else .error .reservedNonzero

/-- The opcode of a command (30_encoding.md R92). -/
def Instr.opc : Instr → BitVec 8
  | .fftConfigure => 0x11
  | .fftForward => 0x12
  | .fftInverse => 0x13
  | .hbConstruct => 0x21
  | .hbReset => 0x22
  | .hbProcessR _ => 0x23
  | .hbProcessC _ => 0x24

/-- The field CH of a command: its channel, or 0 (30_encoding.md R90, R91). -/
def Instr.chField : Instr → BitVec 8
  | .fftConfigure => 0
  | .fftForward => 0
  | .fftInverse => 0
  | .hbConstruct => 0
  | .hbReset => 0
  | .hbProcessR ch => BitVec.ofNat 8 ch
  | .hbProcessC ch => BitVec.ofNat 8 ch

/-- The command word of a command: `RSV ++ CH ++ OPC` with RSV = 0 (30_encoding.md R90, R92). -/
def encode (i : Instr) : Word := (0 : BitVec 16) ++ (i.chField ++ i.opc)

/-- The unit that bits [7:4] of a command word name: 1 is the FFT unit, 2 the HB unit (30_encoding.md R90). Any other
value names no unit; such a word is illegal at both, and this answers the FFT unit. -/
def wordUnit (w : Word) : UnitId := if w.extractLsb' 4 4 = 2 then .hb else .fft

/-- The 32-bit word whose low `nbits` bits are those of `w`. -/
def tableWord (nbits w : Nat) : Word := BitVec.ofNat 32 (w % 2 ^ nbits)

/-- What the decoder reads from the command word whose bits are `w`, written to the CMD register of the unit that the
word itself names. -/
def decodeTableWord (nbits w : Nat) : Option Instr :=
  match decode (wordUnit (tableWord nbits w)) (tableWord nbits w) with
  | .ok i => some i
  | .error _ => none

end Sys2Proof
end

