-- ==== Sys2Proof/Config.lean ====
section
/-! DEFINITION. The build parameters of 00_scope.md R7, and the free values: constants without a body, of which nothing
in Lean can evaluate or prove a value. -/

namespace Sys2Proof

/-- The OPEN build parameters of 00_scope.md R7. LOG2_NROM and MAX_CHANNELS are plain numbers here; which values are legal
is `Machine.Build.legal`. -/
structure Build where
  /-- FMT. -/
  fmt : Format
  /-- LOG2_NROM; NROM is 2 to this power. -/
  log2Nrom : Nat
  /-- MAX_CHANNELS. -/
  maxChannels : Nat
  /-- COEFF[0..11]. -/
  coeff : List Cplx
  /-- POLE[0..11]. -/
  pole : List Cplx
  /-- DIRECT_GAIN. -/
  directGain : F
  /-- BASE, the host address of byte offset 0 of the block. -/
  base : Nat
  deriving DecidableEq, Repr, Inhabited

/-- One arithmetic operation of one command: the unit, how many commands the unit has completed before this one, and the
place of the operation in the command's computation. Two operations that are performed never share a site. -/
structure NanSite where
  unit : UnitId
  serial : Nat
  path : List Nat
  deriving DecidableEq, Repr, Inhabited

/-- One correctly rounded transcendental part (40_numerics.md R123, R124), by its operands. -/
inductive RoundingCase where
  /-- A part of TW[k] for NROM = 2^log2Nrom. -/
  | twiddle (log2Nrom k : Nat) (imag : Bool)
  /-- A part of CEXP(a, b). -/
  | cexp (a b : F) (imag : Bool)
  deriving DecidableEq, Repr, Inhabited

/-- The parameters of the build under study, as the platform's designer chose them (00_scope.md R7; assumption log 1). -/
opaque Config.chosenBuild : Build

/-- NAN_RESULT (40_numerics.md R115, 93 I3): the bits a NaN result takes its sign and payload from, a free value per
operation (assumption log 5). -/
opaque Config.nanBits : NanSite → BitVec 64

/-- The byte a cell of FFT_IN or FFT_OUT holds after a power-on reset and before anything wrote it (93 I1): a free value
per reset and offset (assumption log 4). -/
opaque Config.powerOnByte : (epoch offset : Nat) → Byte

/-- What stands for a correctly rounded transcendental part whose rounding the model's enclosures do not decide, and for
CEXP outside the finite arguments that 40_numerics.md R124 is stated for: a free value (assumption logs 6 and 7). -/
opaque Config.roundingBits : Format → RoundingCase → BitVec 64

end Sys2Proof
end

