-- ==== Sys2Proof/Machine/Float.lean ====
section
/-! DEFINITION. F and its operations: the formats (40_numerics.md R110), rounding to nearest, ties to even (R111), the four
arithmetic operations with their special values (R112 to R116), sign flips (R117), comparisons (R118), constants (R119) and
the complex primitives (R120 to R122, R125). Every finite value is an integer multiple of `2^-fmt.unit`, so every operation
is exact integer arithmetic followed by one rounding. -/

namespace Sys2Proof

/-- Fraction width of a format (40_numerics.md R110). -/
def Format.fracBits : Format → Nat
  | .binary32 => 23
  | .binary64 => 52

/-- Exponent width of a format (40_numerics.md R110). -/
def Format.expBits : Format → Nat
  | .binary32 => 8
  | .binary64 => 11

/-- Exponent bias of a format (40_numerics.md R110). -/
def Format.bias : Format → Nat
  | .binary32 => 127
  | .binary64 => 1023

/-- The parameter W (00_scope.md R7): bits of an encoding. -/
def Format.width : Format → Nat
  | .binary32 => 32
  | .binary64 => 64

/-- Every finite value of the format is an integer multiple of `2^-unit`, the smallest subnormal. -/
def Format.unit (fmt : Format) : Nat := fmt.bias + fmt.fracBits - 1

namespace Machine

/-- The sign bit of an encoding (40_numerics.md R110). -/
def signBit (fmt : Format) (a : F) : Bool := a.getLsbD (fmt.width - 1)

/-- Exponent and fraction of an encoding, as one number: it orders magnitudes. -/
def magBits (fmt : Format) (a : F) : Nat := a.toNat % 2 ^ (fmt.width - 1)

/-- `magBits` of an infinity: exponent all ones, fraction 0 (40_numerics.md R110). -/
def infBits (fmt : Format) : Nat := (2 ^ fmt.expBits - 1) * 2 ^ fmt.fracBits

/-- The value with a given sign and a given `magBits`. -/
def makeF (fmt : Format) (neg : Bool) (mag : Nat) : F :=
  BitVec.ofNat 64 (mag + if neg then 2 ^ (fmt.width - 1) else 0)

/-- The encoding fits the format's width (for binary32: bits 63..32 are 0; assumption log 14). -/
def fitsFormat (fmt : Format) (a : F) : Bool := decide (a.toNat < 2 ^ fmt.width)

/-- The low W bits of a 64-bit pattern, an F value of the format. -/
def ofBits (fmt : Format) (bits : BitVec 64) : F := BitVec.ofNat 64 (bits.toNat % 2 ^ fmt.width)

/-- `a` is a NaN (40_numerics.md R110). -/
def isNaN (fmt : Format) (a : F) : Bool := decide (infBits fmt < magBits fmt a)

/-- `finite(a)` (40_numerics.md R118). -/
def isFinite (fmt : Format) (a : F) : Bool := decide (magBits fmt a < infBits fmt)

/-- The magnitude of a finite value, in units of `2^-fmt.unit`: exponent 0 is zero or subnormal (40_numerics.md R110). -/
def magUnits (fmt : Format) (a : F) : Nat :=
  if magBits fmt a / 2 ^ fmt.fracBits = 0 then magBits fmt a
  else (2 ^ fmt.fracBits + magBits fmt a % 2 ^ fmt.fracBits) <<< (magBits fmt a / 2 ^ fmt.fracBits - 1)

/-- What an encoding stands for. -/
inductive FClass where
  | nan
  | inf (neg : Bool)
  /-- plus or minus `units` times `2^-fmt.unit`; a zero keeps its sign -/
  | fin (neg : Bool) (units : Nat)
  deriving DecidableEq, Repr

/-- The class of an encoding (40_numerics.md R110). -/
def classify (fmt : Format) (a : F) : FClass :=
  if isNaN fmt a then .nan
  else if isFinite fmt a then .fin (signBit fmt a) (magUnits fmt a)
  else .inf (signBit fmt a)

/-- `num / den` to the nearest integer, ties to even. -/
def roundDiv (num den : Nat) : Nat :=
  if 2 * (num % den) > den ∨ (2 * (num % den) = den ∧ num / den % 2 = 1) then num / den + 1 else num / den

/-- RN of the magnitude `num / den` units (40_numerics.md R111, R112): the `magBits` of the rounded value. The result has
`fracBits + 1` significant bits, or is a multiple of one unit where it is subnormal, and overflows to an infinity. -/
def roundUnits (fmt : Format) (num den : Nat) : Nat :=
  min ((Nat.log2 (num / den) - fmt.fracBits) * 2 ^ fmt.fracBits
        + roundDiv num (den <<< (Nat.log2 (num / den) - fmt.fracBits)))
    (infBits fmt)

/-- RN of the real number `± num / den` (00_scope.md R11). -/
def roundReal (fmt : Format) (neg : Bool) (num den : Nat) : F :=
  makeF fmt neg (roundUnits fmt (num <<< fmt.unit) den)

/-- Where an operation stands: the format, and the site its NaN is drawn at if it gives one. -/
structure Fp where
  fmt : Format
  site : NanSite
  deriving DecidableEq, Repr

/-- The `n`-th operation inside a compound operation. -/
def Fp.at (c : Fp) (n : Nat) : Fp :=
  { c with site := { c.site with path := n :: c.site.path } }

/-- The NaN an operation gives (40_numerics.md R115): a quiet NaN, its sign and payload a free value (log 5). -/
def drawNaN (c : Fp) : F :=
  makeF c.fmt ((Config.nanBits c.site).getLsbD 63)
    (infBits c.fmt + 2 ^ (c.fmt.fracBits - 1) + (Config.nanBits c.site).toNat % 2 ^ (c.fmt.fracBits - 1))

/-- `fneg` (40_numerics.md R117): the sign bit inverted, every other bit copied. -/
def fneg (fmt : Format) (a : F) : F := a ^^^ BitVec.twoPow 64 (fmt.width - 1)

/-- `+0`. -/
def fzero : F := 0

/-- The sum of two finite values (40_numerics.md R111, R114). -/
def addFinite (fmt : Format) (s : Bool) (m : Nat) (t : Bool) (n : Nat) : F :=
  if s = t then makeF fmt s (roundUnits fmt (m + n) 1)
  else if m = n then fzero
  else if n < m then makeF fmt s (roundUnits fmt (m - n) 1)
  else makeF fmt t (roundUnits fmt (n - m) 1)

/-- `fadd` (40_numerics.md R111, R114, R115). -/
def fadd (c : Fp) (a b : F) : F :=
  match classify c.fmt a, classify c.fmt b with
  | .nan, _ => drawNaN c
  | _, .nan => drawNaN c
  | .inf s, .inf t => if s = t then makeF c.fmt s (infBits c.fmt) else drawNaN c
  | .inf s, .fin _ _ => makeF c.fmt s (infBits c.fmt)
  | .fin _ _, .inf t => makeF c.fmt t (infBits c.fmt)
  | .fin s m, .fin t n => addFinite c.fmt s m t n

/-- `fsub` (40_numerics.md R111, R114): the sum with the sign of `b` inverted. -/
def fsub (c : Fp) (a b : F) : F := fadd c a (fneg c.fmt b)

/-- `fmul` (40_numerics.md R111, R114, R115). -/
def fmul (c : Fp) (a b : F) : F :=
  match classify c.fmt a, classify c.fmt b with
  | .nan, _ => drawNaN c
  | _, .nan => drawNaN c
  | .inf s, .inf t => makeF c.fmt (s != t) (infBits c.fmt)
  | .inf s, .fin t n => if n = 0 then drawNaN c else makeF c.fmt (s != t) (infBits c.fmt)
  | .fin s m, .inf t => if m = 0 then drawNaN c else makeF c.fmt (s != t) (infBits c.fmt)
  | .fin s m, .fin t n => makeF c.fmt (s != t) (roundUnits c.fmt (m * n) (2 ^ c.fmt.unit))

/-- `fdiv` (40_numerics.md R111, R114, R115). -/
def fdiv (c : Fp) (a b : F) : F :=
  match classify c.fmt a, classify c.fmt b with
  | .nan, _ => drawNaN c
  | _, .nan => drawNaN c
  | .inf _, .inf _ => drawNaN c
  | .inf s, .fin t _ => makeF c.fmt (s != t) (infBits c.fmt)
  | .fin s _, .inf t => makeF c.fmt (s != t) 0
  | .fin s m, .fin t n =>
    if n = 0 then (if m = 0 then drawNaN c else makeF c.fmt (s != t) (infBits c.fmt))
    else makeF c.fmt (s != t) (roundUnits c.fmt (m <<< c.fmt.unit) n)

/-- The number that orders non-NaN values; both zeros are 0 (40_numerics.md R118). -/
def orderKey (fmt : Format) (a : F) : Int :=
  if signBit fmt a then - (magBits fmt a : Int) else (magBits fmt a : Int)

/-- `a < b` (40_numerics.md R118): false when either is a NaN. -/
def flt (fmt : Format) (a b : F) : Bool :=
  !isNaN fmt a && !isNaN fmt b && decide (orderKey fmt a < orderKey fmt b)

/-- `positive(a)` (40_numerics.md R118). -/
def isPositive (fmt : Format) (a : F) : Bool := flt fmt fzero a

/-- `FMIN` (40_numerics.md R125). -/
def fmin (fmt : Format) (a b : F) : F := if flt fmt a b then a else b

/-- FF_CLAMP = RN(0.46) (40_numerics.md R119). -/
def ffClamp (fmt : Format) : F := roundReal fmt false 46 100

/-- FF_REF = 20000 (40_numerics.md R119). -/
def ffRef (fmt : Format) : F := roundReal fmt false 20000 1

/-- 1.0, the default passband gain (40_numerics.md R119). -/
def fone (fmt : Format) : F := roundReal fmt false 1 1

/-- The factor 2 of ScaledDirect (40_numerics.md R119). -/
def ftwo (fmt : Format) : F := roundReal fmt false 2 1

/-- (+0, +0). -/
def czero : Cplx := ⟨fzero, fzero⟩

/-- `cadd` (40_numerics.md R120). -/
def cadd (c : Fp) (a b : Cplx) : Cplx := ⟨fadd (c.at 0) a.re b.re, fadd (c.at 1) a.im b.im⟩

/-- `csub` (40_numerics.md R120). -/
def csub (c : Fp) (a b : Cplx) : Cplx := ⟨fsub (c.at 0) a.re b.re, fsub (c.at 1) a.im b.im⟩

/-- `cmul` (40_numerics.md R121): four rounded products and two rounded sums, operands in this order. -/
def cmul (c : Fp) (a b : Cplx) : Cplx :=
  ⟨fsub (c.at 0) (fmul (c.at 1) a.re b.re) (fmul (c.at 2) a.im b.im),
   fadd (c.at 3) (fmul (c.at 4) a.re b.im) (fmul (c.at 5) a.im b.re)⟩

/-- `cscale` (40_numerics.md R122): a real value times a complex one, two rounded products. -/
def cscale (c : Fp) (x : F) (z : Cplx) : Cplx := ⟨fmul (c.at 0) x z.re, fmul (c.at 1) x z.im⟩

/-- `cconj` (40_numerics.md R122), exact. -/
def cconj (fmt : Format) (z : Cplx) : Cplx := ⟨z.re, fneg fmt z.im⟩

end Machine

end Sys2Proof
end

