-- ==== Sys2Proof/Machine/Params.lean ====
section
/-! DEFINITION. The build parameters of 00_scope.md R7: their legal values (R7, R8), the numbers that follow from them, the
two PARAMS registers (10_state.md R23, R31), and the build of the machine under study. -/

namespace Sys2Proof

/-- ORDER (00_scope.md R7; 90_conflicts.md C5): 12, not configurable. -/
def order : Nat := 12

/-- NROM (00_scope.md R7). -/
def Build.nrom (b : Build) : Nat := 2 ^ b.log2Nrom

/-- An F value a parameter table may hold: finite (00_scope.md R8) and of the build's format. -/
def Build.legalValue (b : Build) (a : F) : Bool := Machine.isFinite b.fmt a && Machine.fitsFormat b.fmt a

/-- A parameter table: 12 complex values, each part legal (00_scope.md R7, R8). -/
def Build.legalTable (b : Build) (t : List Cplx) : Bool :=
  decide (t.length = order) && t.all fun z => b.legalValue z.re && b.legalValue z.im

/-- The legal values of 00_scope.md R7 and the laws of R8; nothing else is assumed of a build. -/
def Build.legal (b : Build) : Bool :=
  decide (b.log2Nrom ≤ 16) && decide (1 ≤ b.maxChannels) && decide (b.maxChannels ≤ 256)
    && b.legalTable b.coeff && b.legalTable b.pole && b.legalValue b.directGain

/-- `legal` as a proposition. -/
abbrev Build.Legal (b : Build) : Prop := b.legal = true

/-- FFT_PARAMS (10_state.md R23): LOG2_NROM in bits [4:0], the format in bit [8]. -/
def Build.fftParams (b : Build) : Word :=
  BitVec.ofNat 32 (b.log2Nrom + match b.fmt with | .binary32 => 0 | .binary64 => 2 ^ 8)

/-- HB_PARAMS (10_state.md R31): MAX_CHANNELS in bits [15:0], ORDER in bits [23:16], the format in bit [24]. -/
def Build.hbParams (b : Build) : Word :=
  BitVec.ofNat 32 (b.maxChannels + order * 2 ^ 16 + match b.fmt with | .binary32 => 0 | .binary64 => 2 ^ 24)

/-- The host address of an offset of the block (20_memory.md R60). -/
def Build.hostAddress (b : Build) (off : BitVec 22) : Nat := b.base + off.toNat

/-- The offset of a host address that falls on the block (20_memory.md R60); what falls elsewhere is the platform's. -/
def Build.offsetOf (b : Build) (addr : Nat) : Option (BitVec 22) :=
  if b.base ≤ addr ∧ addr < b.base + 2 ^ 22 then some (BitVec.ofNat 22 (addr - b.base)) else none

namespace Machine

/-- The smallest legal build: it stands in where the chosen one is not legal. -/
def smallestBuild : Build where
  fmt := .binary64
  log2Nrom := 0
  maxChannels := 1
  coeff := List.replicate order czero
  pole := List.replicate order czero
  directGain := fzero
  base := 0

/-- The build of the machine under study: any legal one (assumption log 1). -/
def build : Build := if Config.chosenBuild.legal then Config.chosenBuild else smallestBuild

/-- Element `i` of a table of complex values. -/
def tableAt (t : List Cplx) (i : Nat) : Cplx := t.getD i czero

end Machine

end Sys2Proof
end

