-- ==== Sys2Proof/Machine/UnitState.lean ====
section
/-! DEFINITION. The parts of the state: each unit's registers, buffers and in-flight command (10_state.md R23 to R39), the
host port with its accesses and responses (20_memory.md R60 to R62, R72), the host's script (30_encoding.md R97) and the
agents (10_state.md R20). All plain data. -/

namespace Sys2Proof.Machine

/-- The command error codes (60_exceptions.md R211). Codes 8 to 15 are never produced, so they have no constructor. -/
inductive ECode where
  | ok
  | illegalCmd
  | fftSize
  | fftCapacity
  | hbSrate
  | hbNchan
  | hbNotConstructed
  | hbChannel
  deriving DecidableEq, Repr, Inhabited

/-- A RAM array of the block as (byte offset, byte) cells in one canonical form, `Memory.wf` (assumption log 9). -/
abbrev Memory := List Host.Cell

/-- The operands an FFT command takes at its acceptance (30_encoding.md R91): FFT_ARG, and FFT_IN as it stands. -/
structure FftOperands where
  arg : Word
  input : Memory
  deriving DecidableEq, Repr, Inhabited

/-- An FFT command in flight (10_state.md R39). -/
structure FftJob where
  word : Word
  operands : FftOperands
  deriving DecidableEq, Repr, Inhabited

/-- The FFT unit (10_state.md R23 to R29, R39). STATUS.BUSY is `job.isSome` (R25). -/
structure FftUnit where
  /-- FFT_CMD. -/
  cmd : Word
  /-- FFT_ARG. -/
  arg : Word
  /-- FFT_MAXSIZE. -/
  maxSize : Word
  /-- STATUS.ECODE. -/
  ecode : ECode
  /-- FFT_IN, by byte offset. -/
  inBuf : Memory
  /-- FFT_OUT, by byte offset. -/
  outBuf : Memory
  /-- The accepted command, until it completes. -/
  job : Option FftJob
  /-- The model's own: commands completed so far; it names NaN draws (assumption log 5). -/
  serial : Nat
  deriving DecidableEq, Repr, Inhabited

/-- The operands an HB command takes at its acceptance (30_encoding.md R91). -/
structure HbOperands where
  nchan : Word
  srate : F
  pgain : F
  xre : F
  xim : F
  deriving DecidableEq, Repr, Inhabited

/-- An HB command in flight (10_state.md R39). -/
structure HbJob where
  word : Word
  operands : HbOperands
  deriving DecidableEq, Repr, Inhabited

/-- The HB unit (10_state.md R31 to R37, R39). STATUS.BUSY is `job.isSome` (R25). -/
structure HbUnit where
  /-- HB_CMD. -/
  cmd : Word
  /-- HB_NCHAN. -/
  nchan : Word
  /-- HB_CHANNELS. -/
  channels : Word
  /-- STATUS.ECODE. -/
  ecode : ECode
  /-- HB_SRATE. -/
  srate : F
  /-- HB_PGAIN. -/
  pgain : F
  /-- HB_XRE. -/
  xre : F
  /-- HB_XIM. -/
  xim : F
  /-- HB_YRE. -/
  yre : F
  /-- HB_YIM. -/
  yim : F
  /-- HB_FFACTOR. -/
  ffactor : F
  /-- HB_SDIRECT. -/
  sdirect : F
  /-- SCOEFF[0..11]. -/
  scoeff : List Cplx
  /-- SPOLE[0..11]. -/
  spole : List Cplx
  /-- STATE[c][i], by byte offset. -/
  state : Memory
  /-- The accepted command, until it completes. -/
  job : Option HbJob
  /-- The model's own: commands completed so far; it names NaN draws (assumption log 5). -/
  serial : Nat
  deriving DecidableEq, Repr, Inhabited

/-- The width of a host access (20_memory.md R61). `burst` is one the platform does not split into 32-bit beats. -/
inductive Width where
  | bits8
  | bits16
  | bits32
  | bits64
  | burst
  deriving DecidableEq, Repr, Inhabited

/-- A read, or a write of a word. Only 32-bit accesses are performed (20_memory.md R61), so a write carries one word. -/
inductive AccessKind where
  | read
  | write (data : Word)
  deriving DecidableEq, Repr, Inhabited

/-- A host access at a byte offset of the block (20_memory.md R60). -/
structure Access where
  width : Width
  off : BitVec 22
  kind : AccessKind
  deriving DecidableEq, Repr, Inhabited

/-- What the port answers an access with (20_memory.md R61, R62). -/
inductive Response where
  | data (v : Word)
  | done
  | busError
  deriving DecidableEq, Repr, Inhabited

/-- The host port (10_state.md R39, 20_memory.md R72). -/
structure Port where
  /-- The one outstanding access, which is held. -/
  pending : Option Access
  /-- The model's own: the response last given to the host. -/
  response : Option Response
  deriving DecidableEq, Repr, Inhabited

/-- One operation of the host's script: an access, or the loop `L: R32 STATUS; BNZ (value & 1), L` of POLL
(30_encoding.md R98; assumption log 15). -/
inductive HostOp where
  | access (a : Access)
  | poll (u : UnitId)
  deriving DecidableEq, Repr, Inhabited

/-- Who moves (10_state.md R20, and the platform's power-on reset of 70_reset_and_hazards.md R240). -/
inductive Agent where
  | host
  | fft
  | hb
  | powerOn
  deriving DecidableEq, Repr, Inhabited

end Sys2Proof.Machine
end

