-- ==== Sys2Proof/Machine/PowerOn.lean ====
section
/-! DEFINITION. The reset values of 70_reset_and_hazards.md R242, unit by unit. -/

namespace Sys2Proof.Machine

/-- The FFT unit after power-on reset (70_reset_and_hazards.md R242). FFT_IN and FFT_OUT list nothing: every byte is at its
free power-on content (93 I1; assumption log 4). -/
def powerOnFft (serial : Nat) : FftUnit where
  cmd := 0
  arg := 0
  maxSize := 0
  ecode := .ok
  inBuf := []
  outBuf := []
  job := none
  serial := serial

/-- The HB unit after power-on reset (70_reset_and_hazards.md R242). STATE lists nothing: every byte is 0. -/
def powerOnHb (fmt : Format) (serial : Nat) : HbUnit where
  cmd := 0
  nchan := 1
  channels := 0
  ecode := .ok
  srate := fzero
  pgain := fone fmt
  xre := fzero
  xim := fzero
  yre := fzero
  yim := fzero
  ffactor := fzero
  sdirect := fzero
  scoeff := List.replicate order czero
  spole := List.replicate order czero
  state := []
  job := none
  serial := serial

/-- The host port after power-on reset: no outstanding access (70_reset_and_hazards.md R240). -/
def powerOnPort : Port where
  pending := none
  response := none

end Sys2Proof.Machine
end

