-- ==== Sys2Proof/Machine/State.lean ====
section
/-! DEFINITION. The state of the block, the reasons a step can stop, and the state right after power-on reset
(10_state.md, 70_reset_and_hazards.md R242). -/

namespace Sys2Proof.Machine

/-- The whole state. `build`, `script`, `schedule` and `epoch` are the model's own fields (assumption logs 1, 2, 3, 4):
the build parameters, the host's operations still to come, the agents that move next, and how many power-on resets there
have been. -/
structure State where
  build : Build
  fft : FftUnit
  hb : HbUnit
  port : Port
  script : List HostOp
  schedule : List Agent
  epoch : Nat
  deriving DecidableEq, Repr, Inhabited

/-- The faults: none. The spec names nothing that stops the block: a command error completes the command with an ECODE
(60_exceptions.md R213), and a bus error is a response of the port with no effect (R210; assumption log 8). -/
inductive Fault where
  deriving DecidableEq, Repr

/-- The refusals. -/
inductive Refusal where
  /-- Raised by an arm of `exec` for a command without a meaning; no arm raises it. Safe: the model stops. -/
  | notModelled (mnemonic : String)
  deriving DecidableEq, Repr

/-- The state right after the first power-on reset (70_reset_and_hazards.md R242), for an arbitrary legal build, with no host
operation and no schedule (assumption logs 1, 2, 3, 10). -/
def State.reset : State where
  build := Machine.build
  fft := powerOnFft 0
  hb := powerOnHb Machine.build.fmt 0
  port := powerOnPort
  script := []
  schedule := []
  epoch := 0

end Sys2Proof.Machine
end

