-- ==== Sys2Proof/Machine/Ops.lean ====
section
/-! DEFINITION. The named operations over memory and state: the bytes, words, value slots and complex elements of a RAM array
(20_memory.md R63 to R65), accepting a command (30_encoding.md R93), ending one with a code (00_scope.md R10), and power-on
reset (70_reset_and_hazards.md R240, R241). -/

namespace Sys2Proof.Machine

/-! ## Memory -/

/-- What an unlisted offset holds: 0 in the window of STATE (10_state.md R36); elsewhere, in FFT_IN and FFT_OUT, no fixed
byte but the free power-on content (93 I1; assumption logs 4 and 9). -/
def Memory.unlisted (x : Nat) : Option Byte := if 0x010000 ≤ x ∧ x < 0x020000 then some 0 else none

/-- The listed byte at an offset. -/
def Memory.find : Memory → Nat → Option Byte
  | [], _ => none
  | (a, b) :: m, x => if x = a then some b else Memory.find m x

/-- The byte at an offset, `epoch` power-on resets after the first. -/
def Memory.byte (epoch : Nat) (m : Memory) (x : Nat) : Byte :=
  match Memory.find m x with
  | some b => b
  | none =>
    match Memory.unlisted x with
    | some b => b
    | none => Config.powerOnByte epoch x

/-- List a byte, keeping the offsets rising. -/
def Memory.insert : Memory → Nat → Byte → Memory
  | [], x, v => [(x, v)]
  | (a, b) :: m, x, v =>
    if x < a then (x, v) :: (a, b) :: m
    else if x = a then (x, v) :: m
    else (a, b) :: Memory.insert m x v

/-- Unlist an offset. -/
def Memory.erase : Memory → Nat → Memory
  | [], _ => []
  | (a, b) :: m, x => if x = a then Memory.erase m x else (a, b) :: Memory.erase m x

/-- Write a byte: a byte that the unlisted offset holds anyway is not listed. -/
def Memory.set (m : Memory) (x : Nat) (v : Byte) : Memory :=
  if Memory.unlisted x = some v then Memory.erase m x else Memory.insert m x v

/-- Offsets strictly rise. -/
def Memory.rising : Memory → Bool
  | [] => true
  | [_] => true
  | (a, _) :: (c, d) :: m => decide (a < c) && Memory.rising ((c, d) :: m)

/-- The canonical form: offsets strictly rise, and no cell lists what the unlisted offset holds. -/
def Memory.wf (m : Memory) : Bool :=
  Memory.rising m && m.all fun c => decide (Memory.unlisted c.1 ≠ some c.2)

/-- The word at an offset, little-endian (20_memory.md R63). -/
def Memory.word (epoch : Nat) (m : Memory) (x : Nat) : Word :=
  Memory.byte epoch m (x + 3) ++ (Memory.byte epoch m (x + 2) ++ (Memory.byte epoch m (x + 1) ++ Memory.byte epoch m x))

/-- Byte lane `j` of a word (20_memory.md R63). -/
def byteLane (w : Word) (j : Nat) : Byte := w.extractLsb' (8 * j) 8

/-- Write a word, little-endian (20_memory.md R63). -/
def Memory.setWord (m : Memory) (x : Nat) (w : Word) : Memory :=
  Memory.set (Memory.set (Memory.set (Memory.set m x (byteLane w 0)) (x + 1) (byteLane w 1)) (x + 2) (byteLane w 2))
    (x + 3) (byteLane w 3)

/-- The low word of a value (20_memory.md R64). -/
def lowWord (v : F) : Word := v.extractLsb' 0 32

/-- The high word of a value (20_memory.md R64). -/
def highWord (v : F) : Word := v.extractLsb' 32 32

/-- The F value of the value slot at `s` (20_memory.md R64): low word first; a binary32 value is one word. -/
def Memory.value (fmt : Format) (epoch : Nat) (m : Memory) (s : Nat) : F :=
  match fmt with
  | .binary32 => (0 : Word) ++ Memory.word epoch m s
  | .binary64 => Memory.word epoch m (s + 4) ++ Memory.word epoch m s

/-- Write the value slot at `s` (20_memory.md R64). -/
def Memory.setValue (fmt : Format) (m : Memory) (s : Nat) (v : F) : Memory :=
  match fmt with
  | .binary32 => Memory.setWord m s (lowWord v)
  | .binary64 => Memory.setWord (Memory.setWord m s (lowWord v)) (s + 4) (highWord v)

/-- The complex element at `e`: real slot, then imaginary slot (20_memory.md R65). -/
def Memory.cplx (fmt : Format) (epoch : Nat) (m : Memory) (e : Nat) : Cplx :=
  ⟨Memory.value fmt epoch m e, Memory.value fmt epoch m (e + 8)⟩

/-- Write the complex element at `e` (20_memory.md R65). -/
def Memory.setCplx (fmt : Format) (m : Memory) (e : Nat) (z : Cplx) : Memory :=
  Memory.setValue fmt (Memory.setValue fmt m e z.re) (e + 8) z.im

/-- The `n` complex elements at `e`, `e + 16`, … -/
def Memory.cplxs (fmt : Format) (epoch : Nat) (m : Memory) (e : Nat) : (n : Nat) → List Cplx
  | 0 => []
  | n + 1 => Memory.cplx fmt epoch m e :: Memory.cplxs fmt epoch m (e + 16) n

/-- Write complex elements at `e`, `e + 16`, … -/
def Memory.setCplxs (fmt : Format) (m : Memory) (e : Nat) : List Cplx → Memory
  | [] => m
  | z :: zs => Memory.setCplxs fmt (Memory.setCplx fmt m e z) (e + 16) zs

/-- Offset 0 of the windows of FFT_IN, FFT_OUT and channel `c` of STATE (20_memory.md R66). -/
def fftInBase : Nat := 0x100000

/-- See `fftInBase`. -/
def fftOutBase : Nat := 0x200000

/-- See `fftInBase`. -/
def channelBase (c : Nat) : Nat := 0x010000 + 256 * c

/-! ## Accepting and ending a command -/

/-- STATUS.BUSY of the FFT unit (10_state.md R25). -/
def FftUnit.busy (u : FftUnit) : Bool := u.job.isSome

/-- STATUS.BUSY of the HB unit (10_state.md R25). -/
def HbUnit.busy (u : HbUnit) : Bool := u.job.isSome

/-- STATUS.BUSY of a unit. -/
def State.busy (s : State) : UnitId → Bool
  | .fft => s.fft.busy
  | .hb => s.hb.busy

/-- The operands an FFT command would take now (30_encoding.md R91). -/
def FftUnit.capture (u : FftUnit) : FftOperands := ⟨u.arg, u.inBuf⟩

/-- The operands an HB command would take now (30_encoding.md R91). -/
def HbUnit.capture (u : HbUnit) : HbOperands := ⟨u.nchan, u.srate, u.pgain, u.xre, u.xim⟩

/-- The idle FFT unit accepts a command word: it stores it, sets BUSY and takes the operands (30_encoding.md R93). -/
def FftUnit.accept (u : FftUnit) (w : Word) : FftUnit := { u with cmd := w, job := some ⟨w, u.capture⟩ }

/-- The idle HB unit accepts a command word (30_encoding.md R93). -/
def HbUnit.accept (u : HbUnit) (w : Word) : HbUnit := { u with cmd := w, job := some ⟨w, u.capture⟩ }

/-- A host write of a command word to an idle unit's CMD register (30_encoding.md R93). -/
def State.accept (s : State) (w : Word) : UnitId → State
  | .fft => { s with fft := s.fft.accept w }
  | .hb => { s with hb := s.hb.accept w }

/-- The FFT unit ends its command: ECODE is written and BUSY cleared (10_state.md R25, R38). -/
def FftUnit.complete (u : FftUnit) (code : ECode) : FftUnit :=
  { u with ecode := code, job := none, serial := u.serial + 1 }

/-- The HB unit ends its command (10_state.md R25, R38). -/
def HbUnit.complete (u : HbUnit) (code : ECode) : HbUnit :=
  { u with ecode := code, job := none, serial := u.serial + 1 }

/-- `raise CmdError(code)` (00_scope.md R10, 60_exceptions.md R213): the unit writes ECODE and clears BUSY; nothing else the
spec names changes. -/
def State.cmdError (s : State) (code : ECode) : UnitId → State
  | .fft => { s with fft := s.fft.complete code }
  | .hb => { s with hb := s.hb.complete code }

/-- `complete(OK)` of an FFT command whose effects on the FFT unit are `u` (00_scope.md R10). -/
def State.completeFft (s : State) (u : FftUnit) : State := { s with fft := u.complete .ok }

/-- `complete(OK)` of an HB command whose effects on the HB unit are `u` (00_scope.md R10). -/
def State.completeHb (s : State) (u : HbUnit) : State := { s with hb := u.complete .ok }

/-! ## Power-on reset -/

/-- Power-on reset, asserted and released (70_reset_and_hazards.md R240, R241): every piece of the block's state takes its
reset value, running commands and the outstanding access are dropped. The host's script and the schedule are not the
block's and stay (assumption log 11). -/
def State.powerOnReset (s : State) : State :=
  { s with
    fft := powerOnFft s.fft.serial
    hb := powerOnHb s.build.fmt s.hb.serial
    port := powerOnPort
    epoch := s.epoch + 1 }

end Sys2Proof.Machine
end

