-- ==== Sys2Proof/Machine/Flags.lean ====
section
/-! DEFINITION. The flags, STATUS.BUSY and STATUS.ECODE (10_state.md R25, R38), and the checks that give a command its error
code, in the order of 60_exceptions.md R215. -/

namespace Sys2Proof.Machine

/-- The number of an error code (60_exceptions.md R211). -/
def ECode.code : ECode → Nat
  | .ok => 0
  | .illegalCmd => 1
  | .fftSize => 2
  | .fftCapacity => 3
  | .hbSrate => 4
  | .hbNchan => 5
  | .hbNotConstructed => 6
  | .hbChannel => 7

/-- A STATUS register (10_state.md R25): BUSY in bit 0, ECODE in bits [11:8], every other bit 0. -/
def statusWord (busy : Bool) (e : ECode) : Word := BitVec.ofNat 32 (e.code * 2 ^ 8 + if busy then 1 else 0)

/-- STATUS of a unit. -/
def State.status (s : State) : UnitId → Word
  | .fft => statusWord s.fft.busy s.fft.ecode
  | .hb => statusWord s.hb.busy s.hb.ecode

/-- `pow2(n)` (41_fft.md R140): exactly one bit is set. -/
def isPow2 (n : Nat) : Bool := decide (n = 2 ^ Nat.log2 n)

/-- `fits(n)` (41_fft.md R140). -/
def fitsRom (b : Build) (n : Nat) : Bool := decide (n ≤ b.nrom)

/-- The error of an FFT command with operand `n` (41_fft.md R141 to R143): FFT_SIZE before FFT_CAPACITY. -/
def fftSizeError (b : Build) (n : Word) : Option ECode :=
  if isPow2 n.toNat then (if fitsRom b n.toNat then none else some .fftCapacity) else some .fftSize

/-- The error of HB.CONSTRUCT (42_hilbert.md R172): HB_SRATE before HB_NCHAN. -/
def constructError (b : Build) (sr : F) (nc : Word) : Option ECode :=
  if isFinite b.fmt sr && isPositive b.fmt sr then
    (if nc = 0 ∨ b.maxChannels < nc.toNat then some .hbNchan else none)
  else some .hbSrate

/-- The error of a PROCESS command on channel `ch` (42_hilbert.md R177): HB_NOT_CONSTRUCTED before HB_CHANNEL. -/
def processError (channels : Word) (ch : Nat) : Option ECode :=
  if channels = 0 then some .hbNotConstructed
  else if channels.toNat ≤ ch then some .hbChannel
  else none

end Sys2Proof.Machine
end

