-- ==== Sys2Proof/Machine/Operands.lean ====
section
/-! DEFINITION. The operands of a command (30_encoding.md R91), as a running command sees them: those captured at its
acceptance (00_scope.md R12, 10_state.md R39); and where its operations stand for their NaN draws. -/

namespace Sys2Proof.Machine

/-- The operands of the FFT command in flight; of an idle unit, those a command accepted now would take, so that `exec` at an
idle unit is the command run instantly at its accept (20_memory.md R73; assumption log 13). -/
def FftUnit.operands (u : FftUnit) : FftOperands :=
  match u.job with
  | some j => j.operands
  | none => u.capture

/-- The operands of the HB command in flight (assumption log 13). -/
def HbUnit.operands (u : HbUnit) : HbOperands :=
  match u.job with
  | some j => j.operands
  | none => u.capture

/-- Operand FFT_ARG. -/
def State.fftArg (s : State) : Word := s.fft.operands.arg

/-- Operand FFT_IN[0..n-1] (41_fft.md R151). -/
def State.fftInput (s : State) (n : Nat) : List Cplx :=
  Memory.cplxs s.build.fmt s.epoch s.fft.operands.input fftInBase n

/-- STATE[c][0..11] (10_state.md R36, R37). -/
def State.channelState (s : State) (c : Nat) : List Cplx :=
  Memory.cplxs s.build.fmt s.epoch s.hb.state (channelBase c) order

/-- Where the operations of the FFT command stand. -/
def State.fftFp (s : State) : Fp := ⟨s.build.fmt, ⟨.fft, s.fft.serial, []⟩⟩

/-- Where the operations of the HB command stand. -/
def State.hbFp (s : State) : Fp := ⟨s.build.fmt, ⟨.hb, s.hb.serial, []⟩⟩

end Sys2Proof.Machine
end

