-- ==== Sys2Proof/Machine/Enclosure.lean ====
section
/-! DEFINITION. Enclosures of the exact real functions that TW and CEXP round (40_numerics.md R123, R124), in exact
integer arithmetic. A bound `n` at precision `q` stands for the real number `n / 2^q`. Each function below answers a lower
and an upper bound of a real number; Series, Enclosure and Angle of Sys2Proof/Laws prove that they are bounds. -/

namespace Sys2Proof.Machine

/-- A lower and an upper bound. -/
structure Ival where
  lo : Int
  hi : Int
  deriving DecidableEq, Repr

/-- Bounds of a difference. -/
def Ival.sub (a b : Ival) : Ival := ⟨a.lo - b.hi, a.hi - b.lo⟩

/-- Bounds of the opposite. -/
def Ival.neg (a : Ival) : Ival := ⟨-a.hi, -a.lo⟩

/-- Bounds of everything at most `w` from what is between the bounds. -/
def Ival.widen (a : Ival) (w : Nat) : Ival := ⟨a.lo - w, a.hi + w⟩

/-- Bounds of the terms `x^k / k!, x^(k+1) / (k+1)!, …` (n + 1 of them), from bounds `lo`, `hi` of the first. `one` is
the number 1 at the precision used. -/
def taylorTerms (one x : Nat) : (n k lo hi : Nat) → List (Nat × Nat)
  | 0, _, lo, hi => [(lo, hi)]
  | n + 1, k, lo, hi =>
    (lo, hi) :: taylorTerms one x n (k + 1) (lo * x / (one * (k + 1))) (hi * x / (one * (k + 1)) + 1)

/-- Bounds of the sum of the terms. -/
def sumTerms : List (Nat × Nat) → Nat × Nat
  | [] => (0, 0)
  | t :: ts => (t.1 + (sumTerms ts).1, t.2 + (sumTerms ts).2)

/-- Bounds of `t0 - t2 + t4 - …` and of `t1 - t3 + t5 - …`. -/
def sumTrig : List (Nat × Nat) → Ival × Ival
  | [] => (⟨0, 0⟩, ⟨0, 0⟩)
  | t :: ts => (Ival.sub ⟨t.1, t.2⟩ (sumTrig ts).2, (sumTrig ts).1)

/-- Bounds of `t0 - t1 + t2 - …`. -/
def sumAlternating : List (Nat × Nat) → Ival
  | [] => ⟨0, 0⟩
  | t :: ts => Ival.sub ⟨t.1, t.2⟩ (sumAlternating ts)

/-- The upper bound of the last term: it bounds what a series leaves out after it. -/
def lastHi : List (Nat × Nat) → Nat
  | [] => 0
  | [t] => t.2
  | _ :: t :: ts => lastHi (t :: ts)

/-- How many Taylor terms are taken at precision `q`. -/
def termCount (q : Nat) : Nat := q / 4 + 8

/-- The Taylor terms of `exp (x / 2^q)`. -/
def expTerms (q x : Nat) : List (Nat × Nat) := taylorTerms (2 ^ q) x (termCount q) 0 (2 ^ q) (2 ^ q)

/-- Bounds of `exp r` for every `r` between `x / 2^q` and `(x + 1) / 2^q`, where `x ≤ 2^q`. -/
def expSmall (q x : Nat) : Nat × Nat :=
  ((sumTerms (expTerms q x)).1, (sumTerms (expTerms q x)).2 + lastHi (expTerms q x) + 8)

/-- Bounds of the square. -/
def squareBounds (q : Nat) (b : Nat × Nat) : Nat × Nat := (b.1 * b.1 / 2 ^ q, b.2 * b.2 / 2 ^ q + 1)

/-- Bounds of the `2^n`-th power. -/
def squareTimes (q : Nat) : (n : Nat) → Nat × Nat → Nat × Nat
  | 0, b => b
  | n + 1, b => squareTimes q n (squareBounds q b)

/-- Bounds of `exp (m / 2^unit)`. Where the exponent is 2048 or more there is no upper bound, and none is needed: e^2048 is
above 2^2800, so its product with a nonzero sine or cosine of an F value, which is above 2^-1100, is past the largest finite
value of both formats, and what it divides is below their smallest one. -/
def expBounds (q unit m : Nat) : Nat × Option Nat :=
  if m < 2 ^ (unit + 11) then
    let b := squareTimes q 11 (expSmall q ((m <<< q) >>> (unit + 11)))
    (b.1, some b.2)
  else (2 ^ (q + 2800), none)

/-- Bounds of `cos r` and `sin r` for every `r` between `x / 2^q` and `(x + w) / 2^q`, where `x ≤ 2 * 2^q`. -/
def cosSinBounds (q x w : Nat) : Ival × Ival :=
  ((sumTrig (expTerms q x)).1.widen (lastHi (expTerms q x) + w),
   (sumTrig (expTerms q x)).2.widen (lastHi (expTerms q x) + w))

/-- Bounds of the terms `1 / (n^(2k+1) (2k+1))` of the series of `arctan (1/n)`, from bounds of `1 / n^(2k+1)`. -/
def arctanTerms (n : Nat) : (count k lo hi : Nat) → List (Nat × Nat)
  | 0, k, lo, hi => [(lo / (2 * k + 1), hi / (2 * k + 1) + 1)]
  | c + 1, k, lo, hi =>
    (lo / (2 * k + 1), hi / (2 * k + 1) + 1) :: arctanTerms n c (k + 1) (lo / (n * n)) (hi / (n * n) + 1)

/-- Bounds of `arctan (1/n)`. -/
def arctanBounds (q n : Nat) : Ival :=
  (sumAlternating (arctanTerms n (termCount q) 0 (2 ^ q / n) (2 ^ q / n + 1))).widen
    (lastHi (arctanTerms n (termCount q) 0 (2 ^ q / n) (2 ^ q / n + 1)))

/-- Bounds of π, by Machin's formula. -/
def piBounds (q : Nat) : Ival :=
  ⟨16 * (arctanBounds q 5).lo - 4 * (arctanBounds q 239).hi, 16 * (arctanBounds q 5).hi - 4 * (arctanBounds q 239).lo⟩

/-- A whole number of quarter turns, and what is left of the angle: between `lo / 2^q` and `(lo + width) / 2^q`. -/
structure Reduced where
  quarters : Nat
  lo : Nat
  width : Nat
  deriving DecidableEq, Repr

/-- The angle `m / 2^unit`, less whole quarter turns. -/
def reduceAngle (q unit m : Nat) : Reduced :=
  if m < 2 ^ unit then ⟨0, (m <<< q) >>> unit, 1⟩
  else
    let x := (m <<< q) >>> unit
    let lo := ((piBounds q).lo / 2).toNat
    let hi := ((piBounds q).hi / 2 + 1).toNat
    ⟨x / hi, x - x / hi * hi, 1 + x / hi * (hi - lo)⟩

/-- The angle `2πk / 2^log2Nrom`, less whole quarter turns. -/
def reduceTurn (q log2Nrom k : Nat) : Reduced :=
  let m := 4 * k % 2 ^ log2Nrom
  let lo := ((piBounds q).lo * m / (2 * 2 ^ log2Nrom)).toNat
  let hi := ((piBounds q).hi * m / (2 * 2 ^ log2Nrom) + 1).toNat
  ⟨4 * k / 2 ^ log2Nrom, lo, hi - lo⟩

/-- Bounds of the cosine and the sine of a reduced angle, where the precision allows any. -/
def turnBounds (q : Nat) (r : Reduced) : Option (Ival × Ival) :=
  if r.lo + r.width ≤ 2 * 2 ^ q then
    let b := cosSinBounds q r.lo r.width
    some (if r.quarters % 4 = 0 then b
      else if r.quarters % 4 = 1 then (b.2.neg, b.1)
      else if r.quarters % 4 = 2 then (b.1.neg, b.2.neg)
      else (b.2, b.1.neg))
  else none

/-- The sign and bounds of the magnitude, where the bounds fix the sign. -/
def signedBounds (b : Ival) : Option (Bool × Nat × Nat) :=
  if 0 < b.lo then some (false, b.lo.toNat, b.hi.toNat)
  else if b.hi < 0 then some (true, (-b.hi).toNat, (-b.lo).toNat)
  else none

end Sys2Proof.Machine
end

