-- ==== Sys2Proof/Machine/Transcendental.lean ====
section
/-! DEFINITION. The correctly rounded twiddle ROM (40_numerics.md R123) and complex exponential (R124). A part is decided at
a precision when both bounds of its exact value round to one F value, which is then its correct rounding, since rounding is
monotone. Three precisions are tried; a part that none decides is a free value (assumption log 6). -/

namespace Sys2Proof.Machine

/-- The value both bounds round to, if they do. -/
def decided (fmt : Format) (neg : Bool) (lo hi : Nat) : Option F :=
  if lo = hi then some (makeF fmt neg lo) else none

/-- RN of a real number between the bounds, where the bounds decide it. -/
def roundBounds (fmt : Format) (q : Nat) (b : Ival) : Option F :=
  match signedBounds b with
  | none => none
  | some (neg, lo, hi) =>
    decided fmt neg (roundUnits fmt (lo <<< fmt.unit) (2 ^ q)) (roundUnits fmt (hi <<< fmt.unit) (2 ^ q))

/-- RN of `e^m · t` (`down = false`) or `e^-m · t` (`down = true`), for `e^m` and `t` between their bounds, where the bounds
decide it. -/
def roundScaled (fmt : Format) (q : Nat) (down : Bool) (e : Nat × Option Nat) (t : Ival) : Option F :=
  match signedBounds t with
  | none => none
  | some (neg, lo, hi) =>
    match down, e.2 with
    | false, some ehi =>
      decided fmt neg (roundUnits fmt ((e.1 * lo) <<< fmt.unit) (2 ^ q * 2 ^ q))
        (roundUnits fmt ((ehi * hi) <<< fmt.unit) (2 ^ q * 2 ^ q))
    | false, none => decided fmt neg (roundUnits fmt ((e.1 * lo) <<< fmt.unit) (2 ^ q * 2 ^ q)) (infBits fmt)
    | true, some ehi =>
      decided fmt neg (roundUnits fmt (lo <<< fmt.unit) ehi) (roundUnits fmt (hi <<< fmt.unit) e.1)
    | true, none => decided fmt neg 0 (roundUnits fmt (hi <<< fmt.unit) e.1)

/-- The relative precisions tried, in bits. -/
def precisions : List Nat := [128, 320, 1100]

/-- The first answer in the list. -/
def firstDecided (f : Nat → Option F) : List Nat → Option F
  | [] => none
  | p :: ps =>
    match f p with
    | some v => some v
    | none => firstDecided f ps

/-- A free value for a part that is not decided (assumption log 6). -/
def undecided (fmt : Format) (c : RoundingCase) : F := ofBits fmt (Config.roundingBits fmt c)

/-- A part of TW[k] at one precision: the cosine, or the opposite of the sine, of 2πk / NROM. -/
def twiddleAt (fmt : Format) (log2Nrom k : Nat) (imag : Bool) (p : Nat) : Option F :=
  match turnBounds (p + 16) (reduceTurn (p + 16) log2Nrom k) with
  | none => none
  | some (c, s) => roundBounds fmt (p + 16) (if imag then s.neg else c)

/-- A part of TW[k] whose exact value is neither 0 nor 1 (40_numerics.md R123). -/
def twiddlePart (fmt : Format) (log2Nrom k : Nat) (imag : Bool) : F :=
  match firstDecided (twiddleAt fmt log2Nrom k imag) precisions with
  | some v => v
  | none => undecided fmt (.twiddle log2Nrom k imag)

/-- TW[k] for NROM = 2^log2Nrom and k < NROM/2 (40_numerics.md R123): the correct roundings of cos(2πk/NROM) and
-sin(2πk/NROM); an exact 0 is stored as +0. -/
def twiddle (fmt : Format) (log2Nrom k : Nat) : Cplx :=
  if k = 0 then ⟨fone fmt, fzero⟩
  else if 4 * k = 2 ^ log2Nrom then ⟨fzero, fneg fmt (fone fmt)⟩
  else ⟨twiddlePart fmt log2Nrom k false, twiddlePart fmt log2Nrom k true⟩

/-- The working precision for relative precision `p` at an angle of `m` units. -/
def workBits (fmt : Format) (m p : Nat) : Nat :=
  if m < 2 ^ fmt.unit then p + (fmt.unit - Nat.log2 m) else p + (Nat.log2 m - fmt.unit) + 8

/-- A part of CEXP(a, b) at one precision: `e^a cos b`, or `e^a sin b`. -/
def cexpAt (fmt : Format) (a b : F) (imag : Bool) (p : Nat) : Option F :=
  let q := workBits fmt (magUnits fmt b) p
  match turnBounds q (reduceAngle q fmt.unit (magUnits fmt b)) with
  | none => none
  | some (c, s) =>
    roundScaled fmt q (signBit fmt a) (expBounds q fmt.unit (magUnits fmt a))
      (if imag then (if signBit fmt b then s.neg else s) else c)

/-- A part of CEXP(a, b) (40_numerics.md R124). -/
def cexpPart (fmt : Format) (a b : F) (imag : Bool) : F :=
  match firstDecided (cexpAt fmt a b imag) precisions with
  | some v => v
  | none => undecided fmt (.cexp a b imag)

/-- RN(e^a) at one precision. -/
def rexpAt (fmt : Format) (a : F) (p : Nat) : Option F :=
  roundScaled fmt p (signBit fmt a) (expBounds p fmt.unit (magUnits fmt a)) ⟨2 ^ p, 2 ^ p⟩

/-- RN(e^a) (40_numerics.md R124). -/
def rexp (fmt : Format) (a : F) : F :=
  match firstDecided (rexpAt fmt a) precisions with
  | some v => v
  | none => undecided fmt (.cexp a fzero false)

/-- CEXP(a, b) (40_numerics.md R124). For an argument that is not finite, which no legal build gives it, the rule states
nothing and both parts are free values (assumption log 7). -/
def cexp (fmt : Format) (a b : F) : Cplx :=
  if isFinite fmt a && isFinite fmt b then
    if magBits fmt b = 0 then ⟨rexp fmt a, b⟩ else ⟨cexpPart fmt a b false, cexpPart fmt a b true⟩
  else ⟨undecided fmt (.cexp a b false), undecided fmt (.cexp a b true)⟩

end Sys2Proof.Machine
end

