-- ==== Sys2Proof/Machine/Fft.lean ====
section
/-! DEFINITION. The FFT unit's commands (41_fft.md). -/

namespace Sys2Proof.Machine

/-- The direction of a transform (41_fft.md R144). -/
inductive Direction where
  | fwd
  | inv
  deriving DecidableEq, Repr

/-- TW[k] of a build (10_state.md R27, 40_numerics.md R123). -/
def twiddleRom (b : Build) (k : Nat) : Cplx := twiddle b.fmt b.log2Nrom k

/-- TWID(dir, n, i) (41_fft.md R146). -/
def twid (b : Build) (dir : Direction) (n i : Nat) : Cplx :=
  match dir with
  | .fwd => twiddleRom b (i * (b.nrom / n))
  | .inv => cconj b.fmt (twiddleRom b (i * (b.nrom / n)))

/-- x[0], x[2], x[4], … -/
def evens : List Cplx → List Cplx
  | [] => []
  | [x] => [x]
  | x :: _ :: xs => x :: evens xs

/-- x[1], x[3], x[5], … -/
def odds (xs : List Cplx) : List Cplx := evens xs.tail

/-- The butterflies i, i+1, … (41_fft.md R145): from E[i] and O[i], `E[i] + t` and `E[i] - t` with `t = O[i]·w`. -/
def butterflies (c : Fp) (w : Nat → Cplx) : Nat → List Cplx → List Cplx → List (Cplx × Cplx)
  | i, e :: es, o :: os =>
    let t := cmul ((c.at i).at 0) o (w i)
    (cadd ((c.at i).at 1) e t, csub ((c.at i).at 2) e t) :: butterflies c w (i + 1) es os
  | _, _, _ => []

/-- `y[0..n/2-1]` and then `y[n/2..n-1]` (41_fft.md R144). -/
def joinHalves (bs : List (Cplx × Cplx)) : List Cplx := bs.map Prod.fst ++ bs.map Prod.snd

/-- FFTREC(dir, 2^j, x) (41_fft.md R144, R149, R150). -/
def fftRec (c : Fp) (b : Build) (dir : Direction) : (j : Nat) → List Cplx → List Cplx
  | 0, x => [x.getD 0 czero]
  | 1, x => [cadd (c.at 0) (x.getD 0 czero) (x.getD 1 czero), csub (c.at 1) (x.getD 0 czero) (x.getD 1 czero)]
  | j + 2, x =>
    joinHalves (butterflies (c.at 0) (twid b dir (2 ^ (j + 2))) 0
      (fftRec (c.at 1) b dir (j + 1) (evens x)) (fftRec (c.at 2) b dir (j + 1) (odds x)))

/-- FFT.CONFIGURE's completion (41_fft.md R141). -/
def fftConfigure (s : State) : State :=
  match fftSizeError s.build s.fftArg with
  | some e => s.cmdError e .fft
  | none => s.completeFft { s.fft with maxSize := s.fftArg }

/-- M after a transform of size `n` (41_fft.md R148). -/
def grownMaxSize (m n : Word) : Word := if m.toNat < n.toNat then n else m

/-- FFT_OUT after a transform that gives `y` (41_fft.md R151). -/
def FftUnit.storeOutput (u : FftUnit) (fmt : Format) (y : List Cplx) : FftUnit :=
  { u with outBuf := Memory.setCplxs fmt u.outBuf fftOutBase y }

/-- The output of a transform in the given state (41_fft.md R142, R143). -/
def State.transformOutput (s : State) (dir : Direction) : List Cplx :=
  fftRec s.fftFp s.build dir (Nat.log2 s.fftArg.toNat) (s.fftInput s.fftArg.toNat)

/-- A transform's completion (41_fft.md R142, R143). -/
def fftTransform (dir : Direction) (s : State) : State :=
  match fftSizeError s.build s.fftArg with
  | some e => s.cmdError e .fft
  | none =>
    s.completeFft
      ({ s.fft with maxSize := grownMaxSize s.fft.maxSize s.fftArg }.storeOutput s.build.fmt (s.transformOutput dir))

/-- FFT.CONFIGURE (41_fft.md R141). -/
def execFftConfigure (s : State) : Host.Outcome State Fault Refusal := .next (fftConfigure s)

/-- FFT.FORWARD (41_fft.md R142). -/
def execFftForward (s : State) : Host.Outcome State Fault Refusal := .next (fftTransform .fwd s)

/-- FFT.INVERSE (41_fft.md R143). -/
def execFftInverse (s : State) : Host.Outcome State Fault Refusal := .next (fftTransform .inv s)

end Sys2Proof.Machine
end

