-- ==== Sys2Proof/Machine/Hilbert.lean ====
section
/-! DEFINITION. The HB unit's commands (42_hilbert.md). -/

namespace Sys2Proof.Machine

/-- FFACT(sr) (42_hilbert.md R171). -/
def ffact (c : Fp) (sr : F) : F := fmin c.fmt (fdiv c (ffRef c.fmt) sr) (ffClamp c.fmt)

/-- SCOEFF[i] from COEFF[i] (42_hilbert.md R173), left to right. -/
def scaledCoeff (c : Fp) (ff pg : F) (z : Cplx) : Cplx :=
  ⟨fmul (c.at 0) (fmul (c.at 1) z.re ff) pg, fmul (c.at 2) (fmul (c.at 3) z.im ff) pg⟩

/-- SPOLE[i] from POLE[i] (42_hilbert.md R173). -/
def scaledPole (c : Fp) (ff : F) (z : Cplx) : Cplx :=
  cexp c.fmt (fmul (c.at 0) z.re ff) (fmul (c.at 1) z.im ff)

/-- SDIRECT from DIRECT_GAIN (42_hilbert.md R173), left to right. -/
def scaledDirect (c : Fp) (gain pg ff : F) : F :=
  fmul (c.at 0) (fmul (c.at 1) (fmul (c.at 2) gain (ftwo c.fmt)) pg) ff

/-- A value per section 0..11. -/
def perSection (f : Nat → Cplx) : List Cplx := (List.range order).map f

/-- The HB unit after an accepted construction (42_hilbert.md R172). -/
def HbUnit.construct (u : HbUnit) (b : Build) (c : Fp) (sr pg : F) (nc : Word) : HbUnit :=
  { u with
    ffactor := ffact (c.at 0) sr
    scoeff := perSection fun i => scaledCoeff ((c.at 1).at i) (ffact (c.at 0) sr) pg (tableAt b.coeff i)
    spole := perSection fun i => scaledPole ((c.at 2).at i) (ffact (c.at 0) sr) (tableAt b.pole i)
    sdirect := scaledDirect (c.at 3) b.directGain pg (ffact (c.at 0) sr)
    state := []
    channels := nc }

/-- HB.CONSTRUCT's completion (42_hilbert.md R172). -/
def hbConstruct (s : State) : State :=
  match constructError s.build s.hb.operands.srate s.hb.operands.nchan with
  | some e => s.cmdError e .hb
  | none =>
    s.completeHb (s.hb.construct s.build s.hbFp s.hb.operands.srate s.hb.operands.pgain s.hb.operands.nchan)

/-- HB.RESET's completion (42_hilbert.md R174): STATE lists nothing, so every entry reads (+0, +0). -/
def hbReset (s : State) : State := s.completeHb { s.hb with state := [] }

/-- The sample of a PROCESS command: real (42_hilbert.md R177) or complex (R178). -/
inductive Sample where
  | real (x : F)
  | complex (z : Cplx)
  deriving DecidableEq, Repr

/-- The input term of a section (42_hilbert.md R175): `cscale` for a real sample, `cmul` with the sample first for a complex
one. -/
def inputTerm (c : Fp) (x : Sample) (k : Cplx) : Cplx :=
  match x with
  | .real x => cscale c x k
  | .complex z => cmul c z k

/-- SECT(s, p, u) (42_hilbert.md R175). -/
def sect (c : Fp) (s p u : Cplx) : Cplx := cadd (c.at 0) (cmul (c.at 1) s p) u

/-- The twelve updated section states, all from the same snapshot (42_hilbert.md R177, R179). -/
def nextSections (c : Fp) (x : Sample) (old scoeff spole : List Cplx) : List Cplx :=
  perSection fun i =>
    sect ((c.at 0).at i) (tableAt old i) (tableAt spole i) (inputTerm ((c.at 1).at i) x (tableAt scoeff i))

/-- The direct term that the output sum starts from (42_hilbert.md R176). -/
def directTerm (c : Fp) (x : Sample) (sdirect : F) : Cplx :=
  match x with
  | .real x => ⟨fmul c x sdirect, fzero⟩
  | .complex z => ⟨fmul (c.at 0) z.re sdirect, fmul (c.at 1) z.im sdirect⟩

/-- The sum from `acc` over the section states, in order (42_hilbert.md R176). -/
def sumSections (c : Fp) : Nat → Cplx → List Cplx → Cplx
  | _, acc, [] => acc
  | i, acc, z :: zs => sumSections c (i + 1) (cadd (c.at i) acc z) zs

/-- The updated sections of a PROCESS command on channel `ch`. -/
def State.sections (s : State) (x : Sample) (ch : Nat) : List Cplx :=
  nextSections (s.hbFp.at 0) x (s.channelState ch) s.hb.scoeff s.hb.spole

/-- The output of a PROCESS command on channel `ch` (42_hilbert.md R176). -/
def State.output (s : State) (x : Sample) (ch : Nat) : Cplx :=
  sumSections (s.hbFp.at 2) 0 (directTerm (s.hbFp.at 1) x s.hb.sdirect) (s.sections x ch)

/-- A PROCESS command's completion (42_hilbert.md R177, R178). -/
def hbProcess (x : Sample) (ch : Nat) (s : State) : State :=
  match processError s.hb.channels ch with
  | some e => s.cmdError e .hb
  | none =>
    s.completeHb
      { s.hb with
        state := Memory.setCplxs s.build.fmt s.hb.state (channelBase ch) (s.sections x ch)
        yre := (s.output x ch).re
        yim := (s.output x ch).im }

/-- The sample of HB.PROCESS.R: HB_XIM is not read (42_hilbert.md R177). -/
def State.realSample (s : State) : Sample := .real s.hb.operands.xre

/-- The sample of HB.PROCESS.C (42_hilbert.md R178). -/
def State.complexSample (s : State) : Sample := .complex ⟨s.hb.operands.xre, s.hb.operands.xim⟩

/-- HB.CONSTRUCT (42_hilbert.md R172). -/
def execHbConstruct (s : State) : Host.Outcome State Fault Refusal := .next (hbConstruct s)

/-- HB.RESET (42_hilbert.md R174). -/
def execHbReset (s : State) : Host.Outcome State Fault Refusal := .next (hbReset s)

/-- HB.PROCESS.R (42_hilbert.md R177). -/
def execHbProcessR (ch : Nat) (s : State) : Host.Outcome State Fault Refusal := .next (hbProcess s.realSample ch s)

/-- HB.PROCESS.C (42_hilbert.md R178). -/
def execHbProcessC (ch : Nat) (s : State) : Host.Outcome State Fault Refusal := .next (hbProcess s.complexSample ch s)

end Sys2Proof.Machine
end

