-- ==== Sys2Proof/Machine/Dispatch.lean ====
section
/-! DEFINITION. exec: what a command does when it completes, one arm per constructor of Instr. -/

namespace Sys2Proof.Machine

def exec (i : Instr) (s : State) : Host.Outcome State Fault Refusal :=
  match i with
  | .fftConfigure => Sys2Proof.Machine.execFftConfigure s
  | .fftForward => Sys2Proof.Machine.execFftForward s
  | .fftInverse => Sys2Proof.Machine.execFftInverse s
  | .hbConstruct => Sys2Proof.Machine.execHbConstruct s
  | .hbReset => Sys2Proof.Machine.execHbReset s
  | .hbProcessR ch => Sys2Proof.Machine.execHbProcessR ch s
  | .hbProcessC ch => Sys2Proof.Machine.execHbProcessC ch s

end Sys2Proof.Machine
end

