-- ==== Sys2Proof/Machine/AddressMap.lean ====
section
/-! DEFINITION. The address map of 20_memory.md R66: every mapped word of the block, its offset, its unit and its access. -/

namespace Sys2Proof.Machine

/-- The F-valued registers of the HB unit, in the order of their value slots (10_state.md R32). -/
inductive HbSlot where
  | srate
  | pgain
  | xre
  | xim
  | yre
  | yim
  | ffactor
  | sdirect
  | dgain
  deriving DecidableEq, Repr

/-- The complex tables of the HB unit, in the order of their windows (10_state.md R34, R35). -/
inductive HbTable where
  | coeff
  | pole
  | scoeff
  | spole
  deriving DecidableEq, Repr

/-- A mapped word. `imag` chooses the imaginary slot of an element, `high` the upper word of a value slot, which only a
binary64 value has (20_memory.md R64, R65). -/
inductive Loc where
  | fftCmd
  | fftStatus
  | fftArg
  | fftMaxSize
  | fftParams
  | hbCmd
  | hbStatus
  | hbNchan
  | hbParams
  | hbChannels
  | hbSlot (r : HbSlot) (high : Bool)
  | table (t : HbTable) (i : Nat) (imag high : Bool)
  | channel (c i : Nat) (imag high : Bool)
  | tw (k : Nat) (imag high : Bool)
  | fftIn (k : Nat) (imag high : Bool)
  | fftOut (k : Nat) (imag high : Bool)
  deriving DecidableEq, Repr

/-- The number of a value slot from 0x000120 (10_state.md R32). -/
def HbSlot.index : HbSlot → Nat
  | .srate => 0
  | .pgain => 1
  | .xre => 2
  | .xim => 3
  | .yre => 4
  | .yim => 5
  | .ffactor => 6
  | .sdirect => 7
  | .dgain => 8

/-- The slot with a number. -/
def HbSlot.ofIndex : Nat → Option HbSlot
  | 0 => some .srate
  | 1 => some .pgain
  | 2 => some .xre
  | 3 => some .xim
  | 4 => some .yre
  | 5 => some .yim
  | 6 => some .ffactor
  | 7 => some .sdirect
  | 8 => some .dgain
  | _ => none

/-- The number of a table's window from 0x001000 (20_memory.md R66). -/
def HbTable.index : HbTable → Nat
  | .coeff => 0
  | .pole => 1
  | .scoeff => 2
  | .spole => 3

/-- The table with a number. -/
def HbTable.ofIndex : Nat → Option HbTable
  | 0 => some .coeff
  | 1 => some .pole
  | 2 => some .scoeff
  | 3 => some .spole
  | _ => none

/-- The words inside an element: the imaginary slot is 8 bytes, the high word 4 bytes further (20_memory.md R64, R65). -/
def wordInElement (imag high : Bool) : Nat := (if imag then 8 else 0) + if high then 4 else 0

/-- The offset of a mapped word (20_memory.md R66). -/
def Loc.offset : Loc → Nat
  | .fftCmd => 0x000000
  | .fftStatus => 0x000004
  | .fftArg => 0x000008
  | .fftMaxSize => 0x00000C
  | .fftParams => 0x000010
  | .hbCmd => 0x000100
  | .hbStatus => 0x000104
  | .hbNchan => 0x000108
  | .hbParams => 0x00010C
  | .hbChannels => 0x000110
  | .hbSlot r high => 0x000120 + 8 * r.index + if high then 4 else 0
  | .table t i imag high => 0x001000 + 0x100 * t.index + 16 * i + wordInElement imag high
  | .channel c i imag high => 0x010000 + 256 * c + 16 * i + wordInElement imag high
  | .tw k imag high => 0x080000 + 16 * k + wordInElement imag high
  | .fftIn k imag high => 0x100000 + 16 * k + wordInElement imag high
  | .fftOut k imag high => 0x200000 + 16 * k + wordInElement imag high

/-- The registers below 0x000120 (10_state.md R23, R31). -/
def controlRegister : Nat → Option Loc
  | 0x000000 => some .fftCmd
  | 0x000004 => some .fftStatus
  | 0x000008 => some .fftArg
  | 0x00000C => some .fftMaxSize
  | 0x000010 => some .fftParams
  | 0x000100 => some .hbCmd
  | 0x000104 => some .hbStatus
  | 0x000108 => some .hbNchan
  | 0x00010C => some .hbParams
  | 0x000110 => some .hbChannels
  | _ => none

/-- Whether the imaginary slot of an element is meant. -/
def imagAt (x : Nat) : Bool := decide (x % 16 / 8 = 1)

/-- Whether the high word of a value slot is meant. -/
def highAt (x : Nat) : Bool := decide (x % 8 / 4 = 1)

/-- `l` if the word exists in the build's format: binary32 maps no high word (20_memory.md R64). -/
def ifMapped (b : Build) (high : Bool) (l : Loc) : Option Loc :=
  if high = true ∧ b.fmt = .binary32 then none else some l

/-- The mapped word at an aligned offset (20_memory.md R66); none where the offset is unmapped. -/
def locateAligned (b : Build) (x : Nat) : Option Loc :=
  if x < 0x000120 then controlRegister x
  else if x < 0x001000 then
    match HbSlot.ofIndex ((x - 0x000120) / 8) with
    | some r => ifMapped b (highAt x) (.hbSlot r (highAt x))
    | none => none
  else if x < 0x010000 then
    match HbTable.ofIndex ((x - 0x001000) / 0x100) with
    | some t =>
      if x % 256 / 16 < order then ifMapped b (highAt x) (.table t (x % 256 / 16) (imagAt x) (highAt x)) else none
    | none => none
  else if x < 0x080000 then
    if (x - 0x010000) / 256 < b.maxChannels ∧ x % 256 / 16 < order then
      ifMapped b (highAt x) (.channel ((x - 0x010000) / 256) (x % 256 / 16) (imagAt x) (highAt x))
    else none
  else if x < 0x100000 then
    if (x - 0x080000) / 16 < b.nrom / 2 then
      ifMapped b (highAt x) (.tw ((x - 0x080000) / 16) (imagAt x) (highAt x))
    else none
  else if x < 0x200000 then
    if (x - 0x100000) / 16 < b.nrom then
      ifMapped b (highAt x) (.fftIn ((x - 0x100000) / 16) (imagAt x) (highAt x))
    else none
  else if x < 0x300000 then
    if (x - 0x200000) / 16 < b.nrom then
      ifMapped b (highAt x) (.fftOut ((x - 0x200000) / 16) (imagAt x) (highAt x))
    else none
  else none

/-- The mapped word at an offset: none where it is unmapped or misaligned (20_memory.md R61, R66, R67). -/
def locate (b : Build) (x : Nat) : Option Loc := if x % 4 = 0 then locateAligned b x else none

/-- The unit whose region a word belongs to (20_memory.md R66, for the hold of 70_reset_and_hazards.md R250). -/
def Loc.unit : Loc → UnitId
  | .fftCmd => .fft
  | .fftStatus => .fft
  | .fftArg => .fft
  | .fftMaxSize => .fft
  | .fftParams => .fft
  | .hbCmd => .hb
  | .hbStatus => .hb
  | .hbNchan => .hb
  | .hbParams => .hb
  | .hbChannels => .hb
  | .hbSlot _ _ => .hb
  | .table _ _ _ _ => .hb
  | .channel _ _ _ _ => .hb
  | .tw _ _ _ => .fft
  | .fftIn _ _ _ => .fft
  | .fftOut _ _ _ => .fft

/-- The access column of 20_memory.md R66: true for R W, false for R. -/
def Loc.writable : Loc → Bool
  | .fftCmd => true
  | .fftStatus => false
  | .fftArg => true
  | .fftMaxSize => false
  | .fftParams => false
  | .hbCmd => true
  | .hbStatus => false
  | .hbNchan => true
  | .hbParams => false
  | .hbChannels => false
  | .hbSlot .srate _ => true
  | .hbSlot .pgain _ => true
  | .hbSlot .xre _ => true
  | .hbSlot .xim _ => true
  | .hbSlot .yre _ => false
  | .hbSlot .yim _ => false
  | .hbSlot .ffactor _ => false
  | .hbSlot .sdirect _ => false
  | .hbSlot .dgain _ => false
  | .table _ _ _ _ => false
  | .channel _ _ _ _ => false
  | .tw _ _ _ => false
  | .fftIn _ _ _ => true
  | .fftOut _ _ _ => false

/-- The words of the two STATUS registers, which their own unit never holds (20_memory.md R66). -/
def Loc.isStatus : Loc → Bool
  | .fftStatus => true
  | .hbStatus => true
  | _ => false

end Sys2Proof.Machine
end

