-- ==== Sys2Proof/Machine/Port.lean ====
section
/-! DEFINITION. The host port: MemRead and MemWrite (20_memory.md R61, R62, R67, R68), the hold (70_reset_and_hazards.md R250,
R251), and the host's turn (20_memory.md R72). -/

namespace Sys2Proof.Machine

/-- The low or the high word of a value (20_memory.md R64). -/
def wordOf (v : F) (high : Bool) : Word := if high then highWord v else lowWord v

/-- The real or the imaginary part of a complex value. -/
def partOf (z : Cplx) (imag : Bool) : F := if imag then z.im else z.re

/-- A value with one of its words replaced (20_memory.md R64, R69). A binary32 value has no high word, so writing its low
word gives the whole value. -/
def replaceWord (fmt : Format) (v : F) (high : Bool) (w : Word) : F :=
  match fmt, high with
  | .binary32, _ => (0 : Word) ++ w
  | .binary64, false => highWord v ++ w
  | .binary64, true => w ++ lowWord v

/-- The F register in a value slot (10_state.md R32). -/
def State.slot (s : State) : HbSlot → F
  | .srate => s.hb.srate
  | .pgain => s.hb.pgain
  | .xre => s.hb.xre
  | .xim => s.hb.xim
  | .yre => s.hb.yre
  | .yim => s.hb.yim
  | .ffactor => s.hb.ffactor
  | .sdirect => s.hb.sdirect
  | .dgain => s.build.directGain

/-- A complex table of the HB unit (10_state.md R34, R35). -/
def State.table (s : State) : HbTable → List Cplx
  | .coeff => s.build.coeff
  | .pole => s.build.pole
  | .scoeff => s.hb.scoeff
  | .spole => s.hb.spole

/-- The word a mapped location holds (20_memory.md R62, R66). Reading changes nothing (R68). -/
def State.readLoc (s : State) (l : Loc) : Word :=
  match l with
  | .fftCmd => s.fft.cmd
  | .fftStatus => s.status .fft
  | .fftArg => s.fft.arg
  | .fftMaxSize => s.fft.maxSize
  | .fftParams => s.build.fftParams
  | .hbCmd => s.hb.cmd
  | .hbStatus => s.status .hb
  | .hbNchan => s.hb.nchan
  | .hbParams => s.build.hbParams
  | .hbChannels => s.hb.channels
  | .hbSlot r high => wordOf (s.slot r) high
  | .table t i imag high => wordOf (partOf (tableAt (s.table t) i) imag) high
  | .channel c i imag high => Memory.word s.epoch s.hb.state (Loc.offset (.channel c i imag high))
  | .tw k imag high => wordOf (partOf (twiddleRom s.build k) imag) high
  | .fftIn k imag high => Memory.word s.epoch s.fft.inBuf (Loc.offset (.fftIn k imag high))
  | .fftOut k imag high => Memory.word s.epoch s.fft.outBuf (Loc.offset (.fftOut k imag high))

/-- The HB unit with the word of a writable value slot replaced (10_state.md R32). -/
def HbUnit.writeSlot (u : HbUnit) (fmt : Format) (r : HbSlot) (high : Bool) (w : Word) : HbUnit :=
  match r with
  | .srate => { u with srate := replaceWord fmt u.srate high w }
  | .pgain => { u with pgain := replaceWord fmt u.pgain high w }
  | .xre => { u with xre := replaceWord fmt u.xre high w }
  | .xim => { u with xim := replaceWord fmt u.xim high w }
  | _ => u

/-- The state after a word is stored to a writable location (20_memory.md R62, R68): a write to a CMD register issues a
command (30_encoding.md R93), any other write only stores. -/
def State.writeLoc (s : State) (l : Loc) (w : Word) : State :=
  match l with
  | .fftCmd => s.accept w .fft
  | .fftArg => { s with fft := { s.fft with arg := w } }
  | .hbCmd => s.accept w .hb
  | .hbNchan => { s with hb := { s.hb with nchan := w } }
  | .hbSlot r high => { s with hb := s.hb.writeSlot s.build.fmt r high w }
  | .fftIn k imag high =>
    { s with fft := { s.fft with inBuf := Memory.setWord s.fft.inBuf (Loc.offset (.fftIn k imag high)) w } }
  | _ => s

/-- The mapped word an access reaches with the rights the map gives it; none is a BusError (20_memory.md R61, R67). -/
def target (b : Build) (a : Access) : Option Loc :=
  match a.width with
  | .bits32 =>
    match locate b a.off.toNat with
    | none => none
    | some l =>
      match a.kind with
      | .read => some l
      | .write _ => if l.writable then some l else none
  | _ => none

/-- The state with a response given to the host. -/
def State.respond (s : State) (r : Response) : State := { s with port := { s.port with response := some r } }

/-- MemRead and MemWrite (20_memory.md R62): the access performed, and its response. A BusError changes nothing else
(R61, R67). -/
def State.perform (s : State) (a : Access) : State :=
  match target s.build a with
  | none => s.respond .busError
  | some l =>
    match a.kind with
    | .read => s.respond (.data (s.readLoc l))
    | .write w => (s.writeLoc l w).respond .done

/-- Whether an access is held (70_reset_and_hazards.md R250, R251): it reaches a word of a busy unit's region other than its
STATUS. A BusError is never held (20_memory.md R67). -/
def State.holds (s : State) (a : Access) : Bool :=
  match target s.build a with
  | none => false
  | some l => s.busy l.unit && !l.isStatus

/-- The read of a unit's STATUS that POLL makes (30_encoding.md R98). -/
def statusRead : UnitId → Access
  | .fft => ⟨.bits32, 0x000004, .read⟩
  | .hb => ⟨.bits32, 0x000104, .read⟩

/-- The host's turn (20_memory.md R72): an outstanding access is performed unless it is still held; otherwise the next
operation of the script is issued, and becomes outstanding if it is held. A POLL reads STATUS and stays in the script
while it reads BUSY = 1. A host with nothing to do does nothing. -/
def State.hostMove (s : State) : State :=
  match s.port.pending with
  | some a =>
    if s.holds a then s
    else { s with port := { s.port with pending := none } }.perform a
  | none =>
    match s.script with
    | [] => s
    | .access a :: rest =>
      if s.holds a then { s with script := rest, port := { s.port with pending := some a } }
      else { s with script := rest }.perform a
    | .poll u :: rest =>
      if s.busy u then s.perform (statusRead u) else { s with script := rest }.perform (statusRead u)

end Sys2Proof.Machine
end

