-- ==== Sys2Proof/Machine/Schedule.lean ====
section
/-! DEFINITION. Who moves next, and what each agent's move is (10_state.md R20, 20_memory.md R73, R74, 70_reset_and_hazards.md
R260). -/

namespace Sys2Proof.Machine

/-- The agent that moves next: the head of the schedule. Once the schedule is exhausted, a busy unit completes, the FFT unit
before the HB unit, and then the host goes on, so that every accepted command completes and every held access is performed
(70_reset_and_hazards.md R260; assumption log 3). -/
def State.nextAgent (s : State) : Agent :=
  match s.schedule with
  | a :: _ => a
  | [] => if s.fft.busy then .fft else if s.hb.busy then .hb else .host

/-- The state with its next turn used up. -/
def State.useTurn (s : State) : State := { s with schedule := s.schedule.tail }

/-- The command word in flight at a unit. -/
def State.running (s : State) : UnitId → Option Word
  | .fft => s.fft.job.map FftJob.word
  | .hb => s.hb.job.map HbJob.word

/-- A unit executes an accepted word to completion (30_encoding.md R94): a legal word is the command it decodes to; an illegal
one is CmdError(1) (R95, 60_exceptions.md R212). -/
def State.executeWord (s : State) (u : UnitId) (w : Word) : Host.Outcome State Fault Refusal :=
  match decode u w with
  | .ok i => exec i s
  | .error _ => .next (s.cmdError .illegalCmd u)

/-- A unit's turn: its command completes, in one step (20_memory.md R73); an idle unit changes nothing
(60_exceptions.md R226). -/
def State.unitMove (s : State) (u : UnitId) : Host.Outcome State Fault Refusal :=
  match s.running u with
  | some w => s.executeWord u w
  | none => .next s

/-- An agent's turn. -/
def State.agentMove (s : State) : Agent → Host.Outcome State Fault Refusal
  | .host => .next s.hostMove
  | .fft => s.unitMove .fft
  | .hb => s.unitMove .hb
  | .powerOn => .next s.powerOnReset

end Sys2Proof.Machine
end

