-- ==== Sys2Proof/Machine/Step.lean ====
section
/-! DEFINITION. One step of the machine, and the placing of a command word where the next step executes it. -/

namespace Sys2Proof.Machine

/-- One step: the next agent uses its turn. -/
def step (s : State) : Host.Outcome State Fault Refusal := s.useTurn.agentMove s.nextAgent

/-- The agent that a unit is. -/
def unitAgent : UnitId → Agent
  | .fft => .fft
  | .hb => .hb

/-- `s` with the next turn given to a unit, where it is not that unit's already. -/
def State.withTurn (s : State) (u : UnitId) : State :=
  if s.nextAgent = unitAgent u then s else { s with schedule := unitAgent u :: s.schedule }

/-- `s` with a command word just accepted by the unit it names, whose completion is the very next step (assumption log 2). -/
def State.withFetchWord (s : State) (nbits w : Nat) : State :=
  (s.accept (tableWord nbits w) (wordUnit (tableWord nbits w))).withTurn (wordUnit (tableWord nbits w))

end Sys2Proof.Machine
end

