-- ==== Sys2Proof/Machine/Script.lean ====
section
/-! DEFINITION. Host scripts (30_encoding.md R97, R98): the statements and pseudo-instructions, and the host operations each
stands for. Labels and BNZ are the host's own control flow; the loop that R98 uses, POLL, is an operation of the host. -/

namespace Sys2Proof.Machine

/-- A statement of 30_encoding.md R97 or a pseudo-instruction of R98. Offsets are numbers; `Loc.offset` gives those of the
register names. -/
inductive Stmt where
  /-- `W32 off, v` -/
  | w32 (off : Nat) (v : Word)
  /-- `R32 off` -/
  | r32 (off : Nat)
  /-- a command mnemonic -/
  | command (i : Instr)
  /-- `WF s, x` -/
  | wf (s : Nat) (x : F)
  /-- `RF s` -/
  | rf (s : Nat)
  /-- `WC e, xr, xi` -/
  | wc (e : Nat) (z : Cplx)
  /-- `RC e` -/
  | rc (e : Nat)
  /-- `POLL FFT`, `POLL HB` -/
  | poll (u : UnitId)
  /-- `CALL.FFT.CONFIGURE m` -/
  | callConfigure (m : Word)
  /-- `CALL.FFT.FORWARD n` -/
  | callForward (n : Word)
  /-- `CALL.FFT.INVERSE n` -/
  | callInverse (n : Word)
  /-- `CALL.HB.CONSTRUCT sr, nc, pg` -/
  | callConstruct (sr : F) (nc : Word) (pg : F)
  /-- `CALL.HB.CONSTRUCT sr, nc`: pg = 1.0 -/
  | callConstructDefault (sr : F) (nc : Word)
  /-- `CALL.HB.RESET` -/
  | callReset
  /-- `CALL.HB.PROCESS.R ch, x` -/
  | callProcessR (ch : Nat) (x : F)
  /-- `CALL.HB.PROCESS.C ch, xr, xi` -/
  | callProcessC (ch : Nat) (z : Cplx)
  /-- `CALL.HB.PROCESS.R x`: channel 0 -/
  | callProcessRDefault (x : F)
  deriving DecidableEq, Repr

/-- The write `W32 off, v`. -/
def opWrite (off : Nat) (v : Word) : HostOp := .access ⟨.bits32, BitVec.ofNat 22 off, .write v⟩

/-- The read `R32 off`. -/
def opRead (off : Nat) : HostOp := .access ⟨.bits32, BitVec.ofNat 22 off, .read⟩

/-- The CMD register of a unit (30_encoding.md R90). -/
def cmdOffset : UnitId → Nat
  | .fft => Loc.offset .fftCmd
  | .hb => Loc.offset .hbCmd

/-- A command mnemonic is exactly one W32 of its word to its CMD register (30_encoding.md R97). -/
def opCommand (i : Instr) : HostOp := opWrite (cmdOffset i.unit) (encode i)

/-- `WF s, x` (30_encoding.md R98). -/
def opWriteValue (fmt : Format) (s : Nat) (x : F) : List HostOp :=
  match fmt with
  | .binary32 => [opWrite s (lowWord x)]
  | .binary64 => [opWrite s (lowWord x), opWrite (s + 4) (highWord x)]

/-- `RF s` (30_encoding.md R98). -/
def opReadValue (fmt : Format) (s : Nat) : List HostOp :=
  match fmt with
  | .binary32 => [opRead s]
  | .binary64 => [opRead s, opRead (s + 4)]

/-- `CALL.HB.CONSTRUCT sr, nc, pg` (30_encoding.md R98). -/
def opConstruct (fmt : Format) (sr : F) (nc : Word) (pg : F) : List HostOp :=
  opWriteValue fmt (Loc.offset (.hbSlot .srate false)) sr ++ [opWrite (Loc.offset .hbNchan) nc]
    ++ opWriteValue fmt (Loc.offset (.hbSlot .pgain false)) pg ++ [opCommand .hbConstruct, .poll .hb]

/-- `CALL.HB.PROCESS.R ch, x` (30_encoding.md R98). -/
def opProcessR (fmt : Format) (ch : Nat) (x : F) : List HostOp :=
  opWriteValue fmt (Loc.offset (.hbSlot .xre false)) x ++ [opCommand (.hbProcessR ch), .poll .hb]

/-- The host operations a statement stands for (30_encoding.md R97, R98). -/
def Stmt.expand (fmt : Format) : Stmt → List HostOp
  | .w32 off v => [opWrite off v]
  | .r32 off => [opRead off]
  | .command i => [opCommand i]
  | .wf s x => opWriteValue fmt s x
  | .rf s => opReadValue fmt s
  | .wc e z => opWriteValue fmt e z.re ++ opWriteValue fmt (e + 8) z.im
  | .rc e => opReadValue fmt e ++ opReadValue fmt (e + 8)
  | .poll u => [.poll u]
  | .callConfigure m => [opWrite (Loc.offset .fftArg) m, opCommand .fftConfigure, .poll .fft]
  | .callForward n => [opWrite (Loc.offset .fftArg) n, opCommand .fftForward, .poll .fft]
  | .callInverse n => [opWrite (Loc.offset .fftArg) n, opCommand .fftInverse, .poll .fft]
  | .callConstruct sr nc pg => opConstruct fmt sr nc pg
  | .callConstructDefault sr nc => opConstruct fmt sr nc (fone fmt)
  | .callReset => [opCommand .hbReset, .poll .hb]
  | .callProcessR ch x => opProcessR fmt ch x
  | .callProcessC ch z =>
    opWriteValue fmt (Loc.offset (.hbSlot .xre false)) z.re ++ opWriteValue fmt (Loc.offset (.hbSlot .xim false)) z.im
      ++ [opCommand (.hbProcessC ch), .poll .hb]
  | .callProcessRDefault x => opProcessR fmt 0 x

/-- A statement the assembler accepts: a CH operand above 255 is refused (30_encoding.md R97), and an offset has 22 bits
(20_memory.md R60). -/
def Stmt.wellFormed : Stmt → Bool
  | .w32 off _ => decide (off < 2 ^ 22)
  | .r32 off => decide (off < 2 ^ 22)
  | .command i => i.wellFormed
  | .wf s _ => decide (s + 8 ≤ 2 ^ 22)
  | .rf s => decide (s + 8 ≤ 2 ^ 22)
  | .wc e _ => decide (e + 16 ≤ 2 ^ 22)
  | .rc e => decide (e + 16 ≤ 2 ^ 22)
  | .poll _ => true
  | .callConfigure _ => true
  | .callForward _ => true
  | .callInverse _ => true
  | .callConstruct _ _ _ => true
  | .callConstructDefault _ _ => true
  | .callReset => true
  | .callProcessR ch _ => decide (ch ≤ 255)
  | .callProcessC ch _ => decide (ch ≤ 255)
  | .callProcessRDefault _ => true

/-- A whole script. -/
def expandScript (fmt : Format) (p : List Stmt) : List HostOp := p.flatMap (Stmt.expand fmt)

end Sys2Proof.Machine
end

