-- ==== Sys2Proof/Safety.lean ====
section
/-! DEFINITION. What claims about the block are stated in: the invariant that every step keeps, the port's view of one byte,
quiet states, and correct rounding of a real number. -/

namespace Sys2Proof.Machine

/-! ## The invariant -/

/-- FFT_MAXSIZE is 0 or a power of two up to NROM (10_state.md R26). -/
def State.maxSizeLegal (s : State) : Prop :=
  s.fft.maxSize = 0 ∨ (isPow2 s.fft.maxSize.toNat = true ∧ fitsRom s.build s.fft.maxSize.toNat = true)

/-- HB_CHANNELS is at most MAX_CHANNELS (10_state.md R33). -/
def State.channelsLegal (s : State) : Prop := s.hb.channels.toNat ≤ s.build.maxChannels

/-- SCOEFF and SPOLE have one entry per section (10_state.md R35, R37). -/
def State.tablesLegal (s : State) : Prop := s.hb.scoeff.length = order ∧ s.hb.spole.length = order

/-- Both parts of a complex value are values of the format (40_numerics.md R110). -/
def fitsCplx (fmt : Format) (z : Cplx) : Bool := fitsFormat fmt z.re && fitsFormat fmt z.im

/-- Every F register, table entry and captured operand is a value of the build's format (40_numerics.md R110). -/
structure State.ValuesFit (s : State) : Prop where
  srate : fitsFormat s.build.fmt s.hb.srate = true
  pgain : fitsFormat s.build.fmt s.hb.pgain = true
  xre : fitsFormat s.build.fmt s.hb.xre = true
  xim : fitsFormat s.build.fmt s.hb.xim = true
  yre : fitsFormat s.build.fmt s.hb.yre = true
  yim : fitsFormat s.build.fmt s.hb.yim = true
  ffactor : fitsFormat s.build.fmt s.hb.ffactor = true
  sdirect : fitsFormat s.build.fmt s.hb.sdirect = true
  scoeff : ∀ z ∈ s.hb.scoeff, fitsCplx s.build.fmt z = true
  spole : ∀ z ∈ s.hb.spole, fitsCplx s.build.fmt z = true

/-- The RAM arrays are in canonical form (assumption log 9). -/
structure State.Canonical (s : State) : Prop where
  inBuf : Memory.wf s.fft.inBuf = true
  outBuf : Memory.wf s.fft.outBuf = true
  state : Memory.wf s.hb.state = true

/-- The command in flight is the word in the CMD register, and its operands are those the registers still hold, because
every write to a busy unit's region is held (70_reset_and_hazards.md R250, R252). -/
structure State.Captured (s : State) : Prop where
  fft : ∀ j, s.fft.job = some j → j.word = s.fft.cmd ∧ j.operands = s.fft.capture
  hb : ∀ j, s.hb.job = some j → j.word = s.hb.cmd ∧ j.operands = s.hb.capture

/-- An outstanding access is one the port would perform: it raises no BusError and is no STATUS read (20_memory.md R67,
70_reset_and_hazards.md R250, R251). -/
def State.pendingLegal (s : State) : Prop :=
  ∀ a, s.port.pending = some a → ∃ l, target s.build a = some l ∧ l.isStatus = false

/-- The invariant of the block. -/
structure State.Inv (s : State) : Prop where
  build : s.build.Legal
  maxSize : s.maxSizeLegal
  channels : s.channelsLegal
  tables : s.tablesLegal
  values : s.ValuesFit
  canonical : s.Canonical
  captured : s.Captured
  pending : s.pendingLegal

/-! ## What the port shows -/

/-- The byte of the block at an offset, as the port's words show it (20_memory.md R62, R63); none where the offset is
unmapped. -/
def State.byteAt (s : State) (x : Nat) : Option Byte :=
  match locate s.build (x - x % 4) with
  | none => none
  | some l => some (byteLane (s.readLoc l) (x % 4))

/-- FFT_OUT[k] (10_state.md R29). -/
def State.fftOut (s : State) (k : Nat) : Cplx := Memory.cplx s.build.fmt s.epoch s.fft.outBuf (fftOutBase + 16 * k)

/-- FFT_IN[k] (10_state.md R28). -/
def State.fftIn (s : State) (k : Nat) : Cplx := Memory.cplx s.build.fmt s.epoch s.fft.inBuf (fftInBase + 16 * k)

/-- STATE[c][i] (10_state.md R36). -/
def State.section (s : State) (c i : Nat) : Cplx :=
  Memory.cplx s.build.fmt s.epoch s.hb.state (channelBase c + 16 * i)

/-- The offsets of a value slot's high word exist only in binary64 (20_memory.md R64). -/
def wordExists (b : Build) (high : Bool) : Prop := high = true → b.fmt = .binary64

/-- The words that the address map of 20_memory.md R66 lists. -/
def Loc.mapped (b : Build) : Loc → Prop
  | .hbSlot _ high => wordExists b high
  | .table _ i _ high => i < order ∧ wordExists b high
  | .channel c i _ high => c < b.maxChannels ∧ i < order ∧ wordExists b high
  | .tw k _ high => k < b.nrom / 2 ∧ wordExists b high
  | .fftIn k _ high => k < b.nrom ∧ wordExists b high
  | .fftOut k _ high => k < b.nrom ∧ wordExists b high
  | _ => True

/-- Offset `x` is one of the `n` bytes at `lo`. -/
def inSpan (lo n x : Nat) : Prop := lo ≤ x ∧ x < lo + n

/-! ## Power-on values (70_reset_and_hazards.md R242) -/

/-- Every row of 70_reset_and_hazards.md R242 about a 32-bit register, as the port reads it. -/
structure State.RegistersReset (s : State) : Prop where
  fftCmd : s.readLoc .fftCmd = 0
  fftStatus : s.readLoc .fftStatus = 0
  fftArg : s.readLoc .fftArg = 0
  fftMaxSize : s.readLoc .fftMaxSize = 0
  fftParams : s.readLoc .fftParams = s.build.fftParams
  hbCmd : s.readLoc .hbCmd = 0
  hbStatus : s.readLoc .hbStatus = 0
  hbNchan : s.readLoc .hbNchan = 1
  hbParams : s.readLoc .hbParams = s.build.hbParams
  hbChannels : s.readLoc .hbChannels = 0

/-- Every row of 70_reset_and_hazards.md R242 about an F register, a table or the twiddle ROM. -/
structure State.ValuesReset (s : State) : Prop where
  srate : s.slot .srate = fzero
  pgain : s.slot .pgain = fone s.build.fmt
  xre : s.slot .xre = fzero
  xim : s.slot .xim = fzero
  yre : s.slot .yre = fzero
  yim : s.slot .yim = fzero
  ffactor : s.slot .ffactor = fzero
  sdirect : s.slot .sdirect = fzero
  dgain : s.slot .dgain = s.build.directGain
  coeff : s.table .coeff = s.build.coeff
  pole : s.table .pole = s.build.pole
  tw : ∀ k imag high, s.readLoc (.tw k imag high) = wordOf (partOf (twiddle s.build.fmt s.build.log2Nrom k) imag) high
  scoeff : ∀ i, i < order → (s.table .scoeff)[i]? = some czero
  spole : ∀ i, i < order → (s.table .spole)[i]? = some czero
  channels : ∀ c i, c < s.build.maxChannels → i < order → s.section c i = czero

/-- The state of 70_reset_and_hazards.md R242: its values, both units idle, no outstanding access. -/
structure State.PowerOnValues (s : State) : Prop where
  registers : s.RegistersReset
  values : s.ValuesReset
  fftIdle : s.busy .fft = false
  hbIdle : s.busy .hb = false
  port : s.port.pending = none

/-! ## Frames: what a command leaves as it was -/

/-- The host port, the script, the schedule and the build are as they were. -/
structure SamePlatform (s t : State) : Prop where
  build : t.build = s.build
  port : t.port = s.port
  script : t.script = s.script
  schedule : t.schedule = s.schedule
  epoch : t.epoch = s.epoch

/-- What no FFT command changes: FFT_CMD, FFT_ARG, FFT_IN (10_state.md R28), the whole HB unit (00_scope.md R3) and the
platform. -/
structure FftFrame (s t : State) : Prop where
  cmd : t.fft.cmd = s.fft.cmd
  arg : t.fft.arg = s.fft.arg
  inBuf : t.fft.inBuf = s.fft.inBuf
  hb : t.hb = s.hb
  platform : SamePlatform s t

/-- What no HB command changes: HB_CMD, its operand registers, the whole FFT unit (00_scope.md R3) and the platform. -/
structure HbFrame (s t : State) : Prop where
  cmd : t.hb.cmd = s.hb.cmd
  nchan : t.hb.nchan = s.hb.nchan
  srate : t.hb.srate = s.hb.srate
  pgain : t.hb.pgain = s.hb.pgain
  xre : t.hb.xre = s.hb.xre
  xim : t.hb.xim = s.hb.xim
  fft : t.fft = s.fft
  platform : SamePlatform s t

/-- The construction is as it was: what only HB.CONSTRUCT writes (42_hilbert.md R182). -/
structure SameConstruction (s t : State) : Prop where
  channels : t.hb.channels = s.hb.channels
  ffactor : t.hb.ffactor = s.hb.ffactor
  sdirect : t.hb.sdirect = s.hb.sdirect
  scoeff : t.hb.scoeff = s.hb.scoeff
  spole : t.hb.spole = s.hb.spole

/-- An FFT command ended with code `e` and did nothing else (60_exceptions.md R213): every byte of the block outside
FFT_STATUS reads as before. -/
structure FftCommandError (e : ECode) (s t : State) : Prop where
  ecode : t.fft.ecode = e
  idle : t.busy .fft = false
  maxSize : t.fft.maxSize = s.fft.maxSize
  outBuf : t.fft.outBuf = s.fft.outBuf
  frame : FftFrame s t
  bytes : ∀ x, ¬ inSpan 0x000004 4 x → t.byteAt x = s.byteAt x

/-- An HB command ended with code `e` and did nothing else (60_exceptions.md R213): every byte of the block outside HB_STATUS
reads as before. -/
structure HbCommandError (e : ECode) (s t : State) : Prop where
  ecode : t.hb.ecode = e
  idle : t.busy .hb = false
  yre : t.hb.yre = s.hb.yre
  yim : t.hb.yim = s.hb.yim
  state : t.hb.state = s.hb.state
  construction : SameConstruction s t
  frame : HbFrame s t
  bytes : ∀ x, ¬ inSpan 0x000104 4 x → t.byteAt x = s.byteAt x

/-- A command of unit `u` ended with code `e` and did nothing else. -/
def CommandError (u : UnitId) (e : ECode) (s t : State) : Prop :=
  match u with
  | .fft => FftCommandError e s t
  | .hb => HbCommandError e s t

/-! ## Effects of the commands -/

/-- `pow2(n)` (41_fft.md R140), by its meaning. -/
def PowerOfTwo (n : Nat) : Prop := ∃ j, n = 2 ^ j

/-- A legal transform of the FFT command's size, `2^j` (41_fft.md R142, R148, R151): FFT_OUT[0..n-1] is FFTREC of the input, FFT_OUT[n..]
is as it was, FFT_MAXSIZE is the larger of itself and n, and every byte of the block outside FFT_STATUS, FFT_MAXSIZE and
the stored elements reads as before. -/
structure TransformEffect (dir : Direction) (j : Nat) (s t : State) : Prop where
  maxSize : t.fft.maxSize.toNat = max s.fft.maxSize.toNat (2 ^ j)
  ecode : t.fft.ecode = .ok
  idle : t.busy .fft = false
  output : ∀ k, k < 2 ^ j → t.fftOut k = (fftRec s.fftFp s.build dir j (s.fftInput (2 ^ j))).getD k czero
  stale : ∀ k, 2 ^ j ≤ k → t.fftOut k = s.fftOut k
  frame : FftFrame s t
  bytes : ∀ x, ¬ inSpan 0x000004 4 x → ¬ inSpan 0x00000C 4 x → ¬ inSpan fftOutBase (16 * 2 ^ j) x →
    t.byteAt x = s.byteAt x

/-- The new state of a section for a sample (42_hilbert.md R175): `s·p + u`, the product and the sum rounded apart, the
input term `cscale(x, k)` for a real sample and `cmul(x, k)` for a complex one. `a` and `b` name the operations' NaN draws. -/
def sectionAfter (a b : Fp) (x : Sample) (old p k : Cplx) : Cplx :=
  cadd (a.at 0) (cmul (a.at 1) old p)
    (match x with
     | .real v => cscale b v k
     | .complex z => cmul b z k)

/-- The term the output sum starts from (42_hilbert.md R176). -/
def sumStart (a : Fp) (x : Sample) (sdirect : F) : Cplx :=
  match x with
  | .real v => ⟨fmul a v sdirect, fzero⟩
  | .complex z => ⟨fmul (a.at 0) z.re sdirect, fmul (a.at 1) z.im sdirect⟩

/-- Reading a table. -/
def State.entry (s : State) (t : HbTable) (i : Nat) : Cplx := tableAt (s.table t) i

/-- Every section of every channel reads (+0, +0). -/
def State.allSectionsZero (s : State) : Prop :=
  ∀ c i, c < s.build.maxChannels → i < order → s.section c i = czero

/-- HB.CONSTRUCT without an error (42_hilbert.md R171 to R173), with `ff` the new HB_FFACTOR: the scaled tables from left to right,
every section zero, and every byte of the block outside HB_STATUS, HB_CHANNELS, HB_FFACTOR, HB_SDIRECT, SCOEFF, SPOLE and
STATE as before. -/
structure ConstructEffect (sr pg : F) (nc : Word) (s t : State) : Prop where
  ffactor : t.hb.ffactor = fmin s.build.fmt (fdiv (s.hbFp.at 0) (ffRef s.build.fmt) sr) (ffClamp s.build.fmt)
  scoeff : ∀ i, i < order → t.entry .scoeff i =
    ⟨fmul (((s.hbFp.at 1).at i).at 0) (fmul (((s.hbFp.at 1).at i).at 1) (s.entry .coeff i).re t.hb.ffactor) pg,
     fmul (((s.hbFp.at 1).at i).at 2) (fmul (((s.hbFp.at 1).at i).at 3) (s.entry .coeff i).im t.hb.ffactor) pg⟩
  spole : ∀ i, i < order → t.entry .spole i =
    cexp s.build.fmt (fmul (((s.hbFp.at 2).at i).at 0) (s.entry .pole i).re t.hb.ffactor)
      (fmul (((s.hbFp.at 2).at i).at 1) (s.entry .pole i).im t.hb.ffactor)
  sdirect : t.hb.sdirect =
    fmul ((s.hbFp.at 3).at 0) (fmul ((s.hbFp.at 3).at 1)
      (fmul ((s.hbFp.at 3).at 2) s.build.directGain (ftwo s.build.fmt)) pg) t.hb.ffactor
  sections : t.allSectionsZero
  channels : t.hb.channels = nc
  ecode : t.hb.ecode = .ok
  idle : t.busy .hb = false
  yre : t.hb.yre = s.hb.yre
  yim : t.hb.yim = s.hb.yim
  frame : HbFrame s t
  bytes : ∀ x, ¬ inSpan 0x000104 4 x → ¬ inSpan 0x000110 4 x → ¬ inSpan 0x000150 16 x → ¬ inSpan 0x001200 0x200 x →
    ¬ inSpan 0x010000 (256 * s.build.maxChannels) x → t.byteAt x = s.byteAt x

/-- HB.RESET (42_hilbert.md R174): every section zero, and every byte of the block outside HB_STATUS and STATE as before. -/
structure ResetEffect (s t : State) : Prop where
  sections : t.allSectionsZero
  ecode : t.hb.ecode = .ok
  idle : t.busy .hb = false
  yre : t.hb.yre = s.hb.yre
  yim : t.hb.yim = s.hb.yim
  construction : SameConstruction s t
  frame : HbFrame s t
  bytes : ∀ x, ¬ inSpan 0x000104 4 x → ¬ inSpan 0x010000 (256 * s.build.maxChannels) x → t.byteAt x = s.byteAt x

/-- The results of a PROCESS command without an error on channel `ch` (42_hilbert.md R176, R177): the twelve sections from one
snapshot, and the output, the sum from the direct term over the new states in section order. -/
structure ProcessResult (x : Sample) (ch : Nat) (s t : State) : Prop where
  sections : ∀ i, i < order → t.section ch i =
    sectionAfter (((s.hbFp.at 0).at 0).at i) (((s.hbFp.at 0).at 1).at i) x (s.section ch i) (s.entry .spole i)
      (s.entry .scoeff i)
  output : ∃ acc : Nat → Cplx, acc 0 = sumStart (s.hbFp.at 1) x s.hb.sdirect ∧
    (∀ i, i < order → acc (i + 1) = cadd ((s.hbFp.at 2).at i) (acc i) (t.section ch i)) ∧
    (⟨t.hb.yre, t.hb.yim⟩ : Cplx) = acc order

/-- What a PROCESS command without an error leaves as it was, and that it ended with ECODE 0 (42_hilbert.md R177, R180): the
construction, the operand registers, every other channel, and every byte of the block outside HB_STATUS, HB_YRE, HB_YIM
and STATE[ch]. -/
structure ProcessFrame (ch : Nat) (s t : State) : Prop where
  ecode : t.hb.ecode = .ok
  idle : t.busy .hb = false
  construction : SameConstruction s t
  frame : HbFrame s t
  others : ∀ c i, c ≠ ch → i < order → t.section c i = s.section c i
  bytes : ∀ x, ¬ inSpan 0x000104 4 x → ¬ inSpan 0x000140 16 x → ¬ inSpan (channelBase ch) (16 * order) x →
    t.byteAt x = s.byteAt x

/-! ## Runs -/

/-- Both units are idle and no access is outstanding. -/
def State.quiet (s : State) : Prop := s.busy .fft = false ∧ s.busy .hb = false ∧ s.port.pending = none

/-- `k` steps, none of which stops. -/
def runs : (k : Nat) → State → State → Prop
  | 0, s, t => t = s
  | k + 1, s, t => ∃ m, step s = .next m ∧ runs k m t

/-- `k` steps, none of which stops and in none of which one of the agents `l` moves. -/
def runsWithout (l : List Agent) : (k : Nat) → State → State → Prop
  | 0, s, t => t = s
  | k + 1, s, t => s.nextAgent ∉ l ∧ ∃ m, step s = .next m ∧ runsWithout l k m t

/-- The host's write of a word to a unit's CMD register. -/
def commandWrite (u : UnitId) (v : Word) : Access :=
  match u with
  | .fft => ⟨.bits32, 0x000000, .write v⟩
  | .hb => ⟨.bits32, 0x000100, .write v⟩

/-- The word in a unit's CMD register. -/
def State.cmdWord (s : State) : UnitId → Word
  | .fft => s.fft.cmd
  | .hb => s.hb.cmd

/-! ## Correct rounding -/

/-- The real number that a finite value stands for (40_numerics.md R110). -/
noncomputable def realValue (fmt : Format) (a : F) : ℝ :=
  (if signBit fmt a then -1 else 1) * (magUnits fmt a : ℝ) / 2 ^ fmt.unit

/-- `r` is so large that it rounds to an infinity: the largest finite value and half a unit in its last place more are not
above it (40_numerics.md R111, R114). -/
def Overflows (fmt : Format) (r : ℝ) : Prop :=
  (2 ^ (fmt.fracBits + 2) - 1) * 2 ^ (fmt.bias + 1) ≤ |r| * 2 ^ (fmt.fracBits + 2)

/-- An infinity. -/
def isInf (fmt : Format) (a : F) : Bool := decide (magBits fmt a = infBits fmt)

/-- A zero of either sign. -/
def isZero (fmt : Format) (a : F) : Bool := decide (magBits fmt a = 0)

/-- Both parts of a complex value are zeros of either sign. -/
def bothZero (fmt : Format) (z : Cplx) : Prop := isZero fmt z.re = true ∧ isZero fmt z.im = true

/-- Both parts of a complex value are finite. -/
def bothFinite (fmt : Format) (z : Cplx) : Prop := isFinite fmt z.re = true ∧ isFinite fmt z.im = true

/-- `v` is RN(r) for a nonzero real `r` (00_scope.md R11, 40_numerics.md R111): `v` is not a NaN and has the sign of `r`; if it is finite,
no finite value is nearer to `r`, and of two that are equally near it is the one with even fraction; it is an infinity
exactly where the nearest value with the exponent range left open would be past the largest finite one. -/
structure RoundsTo (fmt : Format) (r : ℝ) (v : F) : Prop where
  fits : fitsFormat fmt v = true
  number : isNaN fmt v = false
  sign : signBit fmt v = decide (r < 0)
  nearest : isFinite fmt v = true → ∀ w, isFinite fmt w = true →
    |realValue fmt v - r| < |realValue fmt w - r| ∨
      (|realValue fmt v - r| = |realValue fmt w - r| ∧ (realValue fmt w = realValue fmt v ∨ magBits fmt v % 2 = 0))
  overflow : isFinite fmt v = true ↔ ¬ Overflows fmt r

end Sys2Proof.Machine
end

