-- ==== Sys2Proof/Certificates/Slice0/Obligations.lean ====
section
/-! DEFINITION. The statements for the provers, each a proposition about the model. OBLIGATIONS.json says what each one
formalises. -/

open Sys2Proof Sys2Proof.Machine

/-! ## Encoding -/

/-- Every command the assembler accepts has a word that decodes to it, at its own unit and through the table's numbering,
and that is illegal at the other unit (30_encoding.md R92, R94). -/
def Obligations.EncodedCommandsDecode : Prop :=
  ∀ i : Instr, i.WellFormed →
    decode i.unit (encode i) = .ok i ∧ decodeTableWord 32 (encode i).toNat = some i ∧
      ∀ u, u ≠ i.unit → decode u (encode i) = .error .wrongUnit

/-- A word that decodes is the encoding of what it decodes to, at that command's unit (30_encoding.md R92). -/
def Obligations.DecodedWordIsItsEncoding : Prop :=
  ∀ (u : UnitId) (w : Word) (i : Instr), decode u w = .ok i → w = encode i ∧ i.unit = u ∧ i.WellFormed

/-- The decode of an accepted word, with the errors and the executed commands, case by case; a channel the build does not have
is refused by the command itself, with code 7 (30_encoding.md R94). -/
def Obligations.AcceptedWordIsDecoded : Prop :=
  ∀ (s : State) (v : Word),
    (fieldRsv v ≠ 0 → ∀ u, s.executeWord u v = .next (s.cmdError .illegalCmd u)) ∧
    (fieldRsv v = 0 → fieldCh v = 0 →
      (fieldOpc v = 0x11 → s.executeWord .fft v = exec .fftConfigure s) ∧
      (fieldOpc v = 0x12 → s.executeWord .fft v = exec .fftForward s) ∧
      (fieldOpc v = 0x13 → s.executeWord .fft v = exec .fftInverse s) ∧
      (fieldOpc v = 0x21 → s.executeWord .hb v = exec .hbConstruct s) ∧
      (fieldOpc v = 0x22 → s.executeWord .hb v = exec .hbReset s)) ∧
    (fieldRsv v = 0 →
      (fieldOpc v = 0x23 → s.executeWord .hb v = exec (.hbProcessR (fieldCh v).toNat) s) ∧
      (fieldOpc v = 0x24 → s.executeWord .hb v = exec (.hbProcessC (fieldCh v).toNat) s)) ∧
    (¬ (fieldOpc v ∈ [0x11, 0x12, 0x13] ∧ fieldCh v = 0) →
      s.executeWord .fft v = .next (s.cmdError .illegalCmd .fft)) ∧
    (¬ (fieldOpc v ∈ [0x21, 0x22] ∧ fieldCh v = 0) → fieldOpc v ∉ [0x23, 0x24] →
      s.executeWord .hb v = .next (s.cmdError .illegalCmd .hb)) ∧
    (fieldRsv v = 0 → fieldOpc v ∈ [0x23, 0x24] → s.channelsLegal → s.hb.channels ≠ 0 →
      s.build.maxChannels ≤ (fieldCh v).toNat →
      ∃ t, s.executeWord .hb v = .next t ∧ HbCommandError .hbChannel s t)

/-- An illegal word is accepted like any other, stored in the CMD register, sets BUSY, and completes with ECODE 1 and no
other effect (60_exceptions.md R212). -/
def Obligations.IllegalCommandHasNoEffect : Prop :=
  ∀ (s : State) (u : UnitId) (v : Word) (e : DecodeError), s.busy u = false → decode u v = .error e →
    s.perform (commandWrite u v) = (s.accept v u).respond .done ∧
    (s.accept v u).cmdWord u = v ∧ (s.accept v u).busy u = true ∧
    ∃ t, (s.accept v u).unitMove u = .next t ∧ CommandError u .illegalCmd (s.accept v u) t ∧ t.cmdWord u = v

/-- The step of a unit's turn runs the command that its accepted word decodes to, in the state whose schedule has moved past
that turn. -/
def Obligations.StepRunsDecodedCommand : Prop :=
  ∀ (s : State) (u : UnitId) (w : Word) (i : Instr), s.nextAgent = unitAgent u → s.running u = some w →
    decode u w = .ok i → step s = exec i s.useTurn

/-- A word of every command, written out from 30_encoding.md R92, decodes to it. -/
def Obligations.SampleWordsDecode : Prop :=
  decode .fft 0x00000011#32 = .ok .fftConfigure ∧ decode .fft 0x00000012#32 = .ok .fftForward ∧
    decode .fft 0x00000013#32 = .ok .fftInverse ∧ decode .hb 0x00000021#32 = .ok .hbConstruct ∧
    decode .hb 0x00000022#32 = .ok .hbReset ∧ decode .hb 0x00000523#32 = .ok (.hbProcessR 5) ∧
    decode .hb 0x0000FF24#32 = .ok (.hbProcessC 255)

/-! ## Reset and the invariant -/

/-- The reset state holds the values of 70_reset_and_hazards.md R242. -/
def Obligations.ResetStateHasResetValues : Prop := State.reset.PowerOnValues

/-- A power-on reset aborts the running commands, drops the outstanding access and leaves every location at its reset value
(70_reset_and_hazards.md R240, R241). That it is one step, and that the script and the build stay, is assumption log 11. -/
def Obligations.PowerOnResetAborts : Prop :=
  ∀ s : State, s.build.Legal → s.nextAgent = .powerOn →
    ∃ t, step s = .next t ∧ t.PowerOnValues ∧ t.build = s.build ∧ t.script = s.script

/-- The reset state meets the invariant. -/
def Obligations.ResetStateMeetsInvariant : Prop := State.reset.Inv

/-- Every step keeps the invariant, from every state that meets it. -/
def Obligations.EveryStepKeepsInvariant : Prop :=
  ∀ s t : State, s.Inv → step s = .next t → t.Inv

/-- Nothing stops the machine (60_exceptions.md R218: no error causes a trap; assumption log 8). -/
def Obligations.NoStepStops : Prop := ∀ s : State, ∃ t, step s = .next t

/-! ## FFT commands -/

/-- FFT.CONFIGURE of a legal size (41_fft.md R141). -/
def Obligations.ConfigureSetsCapacity : Prop :=
  ∀ s : State, PowerOfTwo s.fftArg.toNat → s.fftArg.toNat ≤ s.build.nrom →
    ∃ t, exec .fftConfigure s = .next t ∧ t.fft.maxSize = s.fftArg ∧ t.fft.ecode = .ok ∧ t.busy .fft = false ∧
      t.fft.outBuf = s.fft.outBuf ∧ FftFrame s t ∧
      ∀ x, ¬ inSpan 0x000004 4 x → ¬ inSpan 0x00000C 4 x → t.byteAt x = s.byteAt x

/-- The errors of the three FFT commands and their order (41_fft.md R141 to R143, 60_exceptions.md R213, R215). -/
def Obligations.FftSizeErrorsHaveNoEffect : Prop :=
  ∀ (s : State) (i : Instr), i.unit = .fft →
    (¬ PowerOfTwo s.fftArg.toNat → ∃ t, exec i s = .next t ∧ FftCommandError .fftSize s t) ∧
    (PowerOfTwo s.fftArg.toNat → s.build.nrom < s.fftArg.toNat →
      ∃ t, exec i s = .next t ∧ FftCommandError .fftCapacity s t)

/-- FFT.FORWARD of a legal size (41_fft.md R142, R148, R151). -/
def Obligations.ForwardStoresTransform : Prop :=
  ∀ (s : State) (j : Nat), s.fftArg.toNat = 2 ^ j → 2 ^ j ≤ s.build.nrom →
    ∃ t, exec .fftForward s = .next t ∧ TransformEffect .fwd j s t

/-- FFT.INVERSE of a legal size (41_fft.md R143, R148, R151). -/
def Obligations.InverseStoresTransform : Prop :=
  ∀ (s : State) (j : Nat), s.fftArg.toNat = 2 ^ j → 2 ^ j ≤ s.build.nrom →
    ∃ t, exec .fftInverse s = .next t ∧ TransformEffect .inv j s t

/-- The operands of an FFT command that waits for its completion are FFT_ARG and FFT_IN[0..n-1] (30_encoding.md R91). -/
def Obligations.TransformReadsInputBuffer : Prop :=
  ∀ s : State, s.Captured →
    s.fftArg = s.fft.arg ∧
    ∀ n, (s.fftInput n).length = n ∧ ∀ k, k < n → (s.fftInput n)[k]? = some (s.fftIn k)

/-- FFTREC (41_fft.md R144, with the base cases R149 and R150 and the butterfly R145). -/
def Obligations.TransformIsRecursive : Prop :=
  ∀ (c : Fp) (b : Build) (dir : Direction),
    (∀ x0, fftRec c b dir 0 [x0] = [x0]) ∧
    (∀ x0 x1, fftRec c b dir 1 [x0, x1] = [cadd (c.at 0) x0 x1, csub (c.at 1) x0 x1]) ∧
    ∀ (j : Nat) (x : List Cplx), x.length = 2 ^ (j + 2) →
      ∃ xe xo : List Cplx, xe.length = 2 ^ (j + 1) ∧ xo.length = 2 ^ (j + 1) ∧
        (∀ i, i < 2 ^ (j + 1) → xe[i]? = x[2 * i]? ∧ xo[i]? = x[2 * i + 1]?) ∧
        (fftRec c b dir (j + 2) x).length = 2 ^ (j + 2) ∧
        ∀ i, i < 2 ^ (j + 1) → ∃ ei oi,
          (fftRec (c.at 1) b dir (j + 1) xe)[i]? = some ei ∧ (fftRec (c.at 2) b dir (j + 1) xo)[i]? = some oi ∧
          (fftRec c b dir (j + 2) x)[i]? = some (cadd (((c.at 0).at i).at 1) ei
            (cmul (((c.at 0).at i).at 0) oi (twid b dir (2 ^ (j + 2)) i))) ∧
          (fftRec c b dir (j + 2) x)[i + 2 ^ (j + 1)]? = some (csub (((c.at 0).at i).at 2) ei
            (cmul (((c.at 0).at i).at 0) oi (twid b dir (2 ^ (j + 2)) i)))

/-- Twiddle selection (41_fft.md R146): the index is exact and inside the ROM, where the host reads the same entry, every word
of both parts, and the inverse transform conjugates. -/
def Obligations.TwiddleIndexIsInRom : Prop :=
  ∀ (s : State) (j i : Nat), s.build.Legal → 2 ≤ j → 2 ^ j ≤ s.build.nrom → i < 2 ^ j / 2 →
    i * (s.build.nrom / 2 ^ j) * 2 ^ j = i * s.build.nrom ∧
    i * (s.build.nrom / 2 ^ j) < s.build.nrom / 2 ∧
    twid s.build .fwd (2 ^ j) i = twiddleRom s.build (i * (s.build.nrom / 2 ^ j)) ∧
    twid s.build .inv (2 ^ j) i = cconj s.build.fmt (twiddleRom s.build (i * (s.build.nrom / 2 ^ j))) ∧
    ∀ imag high, (high = true → s.build.fmt = .binary64) →
      locate s.build
          (0x080000 + 16 * (i * (s.build.nrom / 2 ^ j)) + (if imag then 8 else 0) + if high then 4 else 0) =
        some (.tw (i * (s.build.nrom / 2 ^ j)) imag high) ∧
      s.readLoc (.tw (i * (s.build.nrom / 2 ^ j)) imag high) =
        (if high then highWord else lowWord) (partOf (twid s.build .fwd (2 ^ j) i) imag)

/-- Size 1 is the identity, bit for bit, in both directions (41_fft.md R149). -/
def Obligations.SizeOneIsIdentity : Prop :=
  ∀ (s : State) (i : Instr), i = .fftForward ∨ i = .fftInverse → s.Captured → s.fftArg = 1 →
    ∃ t, exec i s = .next t ∧ t.fftOut 0 = s.fftIn 0

/-- Sizes 1 and 2 use no twiddle, so both directions give one result (41_fft.md R143). -/
def Obligations.SmallTransformsHaveNoDirection : Prop :=
  ∀ s : State, s.fftArg = 1 ∨ s.fftArg = 2 → exec .fftForward s = exec .fftInverse s

/-- The configured capacity has no effect on any computed value (41_fft.md R147, 10_state.md R26): with any other FFT_MAXSIZE, an FFT
command gives the same FFT_OUT and the same ECODE. -/
def Obligations.CapacityChangesNoResult : Prop :=
  ∀ (s : State) (m : Word) (i : Instr), i.unit = .fft →
    ∃ t t', exec i s = .next t ∧ exec i { s with fft := { s.fft with maxSize := m } } = .next t' ∧
      t'.fft.outBuf = t.fft.outBuf ∧ t'.fft.ecode = t.fft.ecode

/-- The exact entries of the twiddle ROM: TW[0] = (1, +0), and TW[NROM/4] = (+0, -1) where NROM is 4 or more (40_numerics.md R123). -/
def Obligations.TwiddleExactEntries : Prop :=
  ∀ b : Build, twiddleRom b 0 = ⟨fone b.fmt, fzero⟩ ∧
    (4 ≤ b.nrom → twiddleRom b (b.nrom / 4) = ⟨fzero, fneg b.fmt (fone b.fmt)⟩)

/-- TW[k], k below NROM/2 and neither 0 nor NROM/4 (those two are in TwiddleExactEntries): its real part is the correct
rounding of the exact cosine and its imaginary part that of minus the exact sine (40_numerics.md R123), each wherever one of
the model's precisions decides it. A part that none decides is a free value (assumption log 6). -/
def Obligations.TwiddleIsCorrectlyRounded : Prop :=
  ∀ (b : Build) (k : Nat), 0 < k → k < b.nrom / 2 → 4 * k ≠ b.nrom →
    ((∃ p ∈ precisions, (twiddleAt b.fmt b.log2Nrom k false p).isSome) →
      RoundsTo b.fmt (Real.cos (2 * Real.pi * k / b.nrom)) (twiddleRom b k).re) ∧
    ((∃ p ∈ precisions, (twiddleAt b.fmt b.log2Nrom k true p).isSome) →
      RoundsTo b.fmt (-Real.sin (2 * Real.pi * k / b.nrom)) (twiddleRom b k).im)

/-! ## HB commands -/

/-- HB.CONSTRUCT of a finite positive sample rate and a channel count from 1 to MAX_CHANNELS (42_hilbert.md R172, R173). -/
def Obligations.ConstructBuildsTables : Prop :=
  ∀ s : State, s.build.Legal → isFinite s.build.fmt s.hb.operands.srate = true →
    flt s.build.fmt fzero s.hb.operands.srate = true → s.hb.operands.nchan ≠ 0 →
    s.hb.operands.nchan.toNat ≤ s.build.maxChannels →
    ∃ t, exec .hbConstruct s = .next t ∧
      ConstructEffect s.hb.operands.srate s.hb.operands.pgain s.hb.operands.nchan s t

/-- The errors of HB.CONSTRUCT and their order (42_hilbert.md R172, 60_exceptions.md R213, R215). -/
def Obligations.ConstructErrorsHaveNoEffect : Prop :=
  ∀ s : State,
    (isFinite s.build.fmt s.hb.operands.srate = false ∨ flt s.build.fmt fzero s.hb.operands.srate = false →
      ∃ t, exec .hbConstruct s = .next t ∧ HbCommandError .hbSrate s t) ∧
    (isFinite s.build.fmt s.hb.operands.srate = true → flt s.build.fmt fzero s.hb.operands.srate = true →
      s.hb.operands.nchan = 0 ∨ s.build.maxChannels < s.hb.operands.nchan.toNat →
      ∃ t, exec .hbConstruct s = .next t ∧ HbCommandError .hbNchan s t)

/-- The frequency factor (42_hilbert.md R171): its formula; for every accepted sample rate it is finite, positive and at
most FF_CLAMP, and it is FF_CLAMP where the quotient overflows. -/
def Obligations.FrequencyFactorIsClamped : Prop :=
  ∀ (c : Fp) (sr : F),
    ffact c sr = fmin c.fmt (fdiv c (ffRef c.fmt) sr) (ffClamp c.fmt) ∧
    (isFinite c.fmt sr = true → isPositive c.fmt sr = true →
      isFinite c.fmt (ffact c sr) = true ∧ isPositive c.fmt (ffact c sr) = true ∧
      flt c.fmt (ffClamp c.fmt) (ffact c sr) = false ∧
      (isFinite c.fmt (fdiv c (ffRef c.fmt) sr) = false → ffact c sr = ffClamp c.fmt))

/-- HB.RESET (42_hilbert.md R174): it has no error. -/
def Obligations.ResetZeroesEverySection : Prop :=
  ∀ s : State, s.build.Legal → ∃ t, exec .hbReset s = .next t ∧ ResetEffect s t

/-- HB.PROCESS.R on a channel of the construction (42_hilbert.md R175 to R177, R180). -/
def Obligations.ProcessRealSample : Prop :=
  ∀ (s : State) (ch : Nat), ch < s.hb.channels.toNat →
    ∃ t, exec (.hbProcessR ch) s = .next t ∧ ProcessResult (.real s.hb.operands.xre) ch s t ∧ ProcessFrame ch s t

/-- HB.PROCESS.C on a channel of the construction (42_hilbert.md R175, R176, R178, R180). -/
def Obligations.ProcessComplexSample : Prop :=
  ∀ (s : State) (ch : Nat), ch < s.hb.channels.toNat →
    ∃ t, exec (.hbProcessC ch) s = .next t ∧
      ProcessResult (.complex ⟨s.hb.operands.xre, s.hb.operands.xim⟩) ch s t ∧ ProcessFrame ch s t

/-- The errors of the PROCESS commands and their order (42_hilbert.md R177, R178, 60_exceptions.md R213, R215). -/
def Obligations.ProcessErrorsHaveNoEffect : Prop :=
  ∀ (s : State) (ch : Nat) (i : Instr), i = .hbProcessR ch ∨ i = .hbProcessC ch →
    (s.hb.channels = 0 → ∃ t, exec i s = .next t ∧ HbCommandError .hbNotConstructed s t) ∧
    (s.hb.channels ≠ 0 → s.hb.channels.toNat ≤ ch → ∃ t, exec i s = .next t ∧ HbCommandError .hbChannel s t)

/-- The operands of an HB command that waits for its completion are what its registers hold (30_encoding.md R91). -/
def Obligations.HbOperandsAreTheRegisters : Prop :=
  ∀ s : State, s.Captured → s.hb.operands = ⟨s.hb.nchan, s.hb.srate, s.hb.pgain, s.hb.xre, s.hb.xim⟩

/-- The sections are parallel (42_hilbert.md R179): the new state of section i is the same in any state that agrees on
section i's own state, its scaled pole and coefficient and the sample, whatever the other sections hold. -/
def Obligations.SectionsAreParallel : Prop :=
  ∀ (s s' : State) (ch i : Nat) (x : Sample), i < order → s'.build = s.build → s'.hb.serial = s.hb.serial →
    s'.section ch i = s.section ch i → s'.entry .spole i = s.entry .spole i → s'.entry .scoeff i = s.entry .scoeff i →
    (s'.sections x ch)[i]? = (s.sections x ch)[i]?

/-- A zero sample on a zero channel leaves it zero, in value (42_hilbert.md R180). -/
def Obligations.ZeroSampleKeepsZeroChannel : Prop :=
  ∀ (s : State) (ch : Nat), ch < s.hb.channels.toNat →
    (∀ i, i < order → bothFinite s.build.fmt (s.entry .spole i) ∧ bothFinite s.build.fmt (s.entry .scoeff i) ∧
      bothZero s.build.fmt (s.section ch i)) →
    (isZero s.build.fmt s.hb.operands.xre = true →
      ∃ t, exec (.hbProcessR ch) s = .next t ∧ ∀ i, i < order → bothZero s.build.fmt (t.section ch i)) ∧
    (bothZero s.build.fmt ⟨s.hb.operands.xre, s.hb.operands.xim⟩ →
      ∃ t, exec (.hbProcessC ch) s = .next t ∧ ∀ i, i < order → bothZero s.build.fmt (t.section ch i))

/-- HB.PROCESS.R does not read HB_XIM (42_hilbert.md R177): with any other HB_XIM at its acceptance, its results are the same. -/
def Obligations.RealSampleIgnoresXim : Prop :=
  ∀ (s : State) (v : F) (w : Word) (ch : Nat),
    ∃ t t', exec (.hbProcessR ch) (s.accept w .hb) = .next t ∧
      exec (.hbProcessR ch) (State.accept { s with hb := { s.hb with xim := v } } w .hb) = .next t' ∧
      t'.hb.state = t.hb.state ∧ t'.hb.yre = t.hb.yre ∧ t'.hb.yim = t.hb.yim ∧ t'.hb.ecode = t.hb.ecode

/-- Only HB.CONSTRUCT writes HB_CHANNELS, HB_FFACTOR, HB_SDIRECT, SCOEFF and SPOLE (42_hilbert.md R182): every other step but a power-on
reset leaves them; and with any other HB_SRATE and HB_PGAIN at its acceptance, every other HB command computes the same. -/
def Obligations.OnlyConstructWritesConstruction : Prop :=
  (∀ s t : State, step s = .next t → s.nextAgent ≠ .powerOn → ¬ SameConstruction s t →
    s.nextAgent = .hb ∧ ∃ w, s.running .hb = some w ∧ decode .hb w = .ok .hbConstruct) ∧
  ∀ (s : State) (sr pg : F) (w : Word) (i : Instr), i.unit = .hb → i ≠ .hbConstruct →
    ∃ t t', exec i (s.accept w .hb) = .next t ∧
      exec i (State.accept { s with hb := { s.hb with srate := sr, pgain := pg } } w .hb) = .next t' ∧
      t'.hb.state = t.hb.state ∧ t'.hb.yre = t.hb.yre ∧ t'.hb.yim = t.hb.yim ∧ t'.hb.ecode = t.hb.ecode ∧
      SameConstruction t t'

/-- CEXP(a, b) of finite values (40_numerics.md R124). For a zero b its real part is RN(e^a) and its imaginary part b itself;
otherwise its parts are the correct roundings of e^a cos b and e^a sin b; each rounding wherever one of the model's
precisions decides it. A part that none decides is a free value (assumption log 6). -/
def Obligations.CexpIsCorrectlyRounded : Prop :=
  ∀ (fmt : Format) (a b : F), isFinite fmt a = true → isFinite fmt b = true →
    ((∃ p ∈ precisions, (rexpAt fmt a p).isSome) → RoundsTo fmt (Real.exp (realValue fmt a)) (rexp fmt a)) ∧
    (isZero fmt b = true → cexp fmt a b = ⟨rexp fmt a, b⟩) ∧
    (isZero fmt b = false →
      ((∃ p ∈ precisions, (cexpAt fmt a b false p).isSome) →
        RoundsTo fmt (Real.exp (realValue fmt a) * Real.cos (realValue fmt b)) (cexp fmt a b).re) ∧
      ((∃ p ∈ precisions, (cexpAt fmt a b true p).isSome) →
        RoundsTo fmt (Real.exp (realValue fmt a) * Real.sin (realValue fmt b)) (cexp fmt a b).im))

/-! ## The host port -/

/-- The address map (20_memory.md R66): an offset reaches a word exactly where the map lists that word at that offset. -/
def Obligations.AddressMapIsExact : Prop :=
  ∀ (b : Build) (x : Nat) (l : Loc), b.Legal → (locate b x = some l ↔ l.mapped b ∧ l.offset = x)

/-- A BusError (20_memory.md R61, R67): which accesses raise it, that it has no effect and that it is not held. -/
def Obligations.BusErrorHasNoEffect : Prop :=
  ∀ (s : State) (a : Access),
    (a.width ≠ .bits32 ∨ a.off.toNat % 4 ≠ 0 ∨ locate s.build a.off.toNat = none ∨
        (∃ l v, locate s.build a.off.toNat = some l ∧ l.writable = false ∧ a.kind = .write v) →
      s.perform a = s.respond .busError ∧ s.holds a = false ∧
        (s.perform a).fft = s.fft ∧ (s.perform a).hb = s.hb ∧ ∀ x, (s.perform a).byteAt x = s.byteAt x) ∧
    ∀ l, a.width = .bits32 → locate s.build a.off.toNat = some l →
      (a.kind = .read ∨ l.writable = true) → (s.perform a).port.response ≠ some .busError

/-- Reads have no side effects; a write to a word with W access stores the word and has no other effect, except a write to a
CMD register, which also issues a command (20_memory.md R68). -/
def Obligations.WritesStoreAndReadsDoNot : Prop :=
  ∀ (s : State) (l : Loc), s.build.Legal → l.mapped s.build →
    s.perform ⟨.bits32, BitVec.ofNat 22 l.offset, .read⟩ = s.respond (.data (s.readLoc l)) ∧
    (l.writable = true → s.busy l.unit = false → ∀ v : Word, ∃ t,
      s.perform ⟨.bits32, BitVec.ofNat 22 l.offset, .write v⟩ = t ∧ t.readLoc l = v ∧
      (∀ u, l ≠ (match u with | .fft => .fftCmd | .hb => .hbCmd) ∨ t = (s.accept v u).respond .done) ∧
      ∀ l', l'.mapped s.build → l' ≠ l → (l = .fftCmd → l' ≠ .fftStatus) → (l = .hbCmd → l' ≠ .hbStatus) →
        t.readLoc l' = s.readLoc l')

/-- A command issue (30_encoding.md R93): at an idle unit the word is stored, BUSY is set and the operands are taken; at a
busy one the write is held, and then performed as a write to an idle unit. -/
def Obligations.CommandWriteIsAccepted : Prop :=
  ∀ (s : State) (u : UnitId) (v : Word),
    (s.busy u = false →
      s.holds (commandWrite u v) = false ∧ s.perform (commandWrite u v) = (s.accept v u).respond .done ∧
      (s.accept v u).cmdWord u = v ∧ (s.accept v u).busy u = true ∧ (s.accept v u).running u = some v ∧
      (s.accept v u).fft.operands = (if u = .fft then s.fft.capture else s.fft.operands) ∧
      (s.accept v u).hb.operands = (if u = .hb then s.hb.capture else s.hb.operands)) ∧
    (s.busy u = true → s.holds (commandWrite u v) = true ∧
      (s.port.pending = some (commandWrite u v) → s.hostMove = s)) ∧
    (s.busy u = false → s.port.pending = some (commandWrite u v) →
      s.hostMove = (State.accept { s with port := { s.port with pending := none } } v u).respond .done)

/-- The hold (70_reset_and_hazards.md R250, 20_memory.md R72): an access to a busy unit's region other than its STATUS
becomes outstanding without effect, delays every later access while the unit is busy, and is performed at the host's
first turn after that; one that raises BusError is not held. -/
def Obligations.AccessToBusyUnitIsHeld : Prop :=
  ∀ (s : State) (a : Access), (target s.build a = none → s.holds a = false) ∧
    ∀ l : Loc, target s.build a = some l → l.isStatus = false →
    (s.busy l.unit = true → ∀ rest, s.port.pending = none → s.script = .access a :: rest →
      s.hostMove = { s with script := rest, port := { s.port with pending := some a } }) ∧
    (s.busy l.unit = true → s.port.pending = some a → s.hostMove = s) ∧
    (s.busy l.unit = false → s.port.pending = some a →
      s.hostMove = State.perform { s with port := { s.port with pending := none } } a)

/-- A read of STATUS is never held by its own unit, shows BUSY and the last ECODE, and waits behind an access that is held
(70_reset_and_hazards.md R251). -/
def Obligations.StatusReadIsNeverHeld : Prop :=
  ∀ (s : State) (u : UnitId),
    s.holds (statusRead u) = false ∧ s.perform (statusRead u) = s.respond (.data (s.status u)) ∧
    ((s.status u).getLsbD 0 = s.busy u) ∧
    ((s.status u).extractLsb' 8 4).toNat = (match u with | .fft => s.fft.ecode | .hb => s.hb.ecode).code ∧
    ∀ a, s.port.pending = some a → s.holds a = true → s.hostMove = s

/-- The layout of STATUS (10_state.md R25): bit 0 is BUSY, bits [11:8] are ECODE, every other bit is 0. -/
def Obligations.StatusLayout : Prop :=
  ∀ (busy : Bool) (e : ECode) (i : Nat), i < 32 →
    (statusWord busy e).getLsbD i =
      if i = 0 then busy else if 8 ≤ i ∧ i ≤ 11 then e.code.testBit (i - 8) else false

/-- The PARAMS registers show the build (10_state.md R23, R31), field by field, every other bit 0. -/
def Obligations.ParamsShowTheBuild : Prop :=
  ∀ s : State, s.build.Legal →
    ((s.readLoc .fftParams).extractLsb' 0 5).toNat = s.build.log2Nrom ∧
    (s.readLoc .fftParams).extractLsb' 5 3 = 0 ∧
    (s.readLoc .fftParams).getLsbD 8 = decide (s.build.fmt = .binary64) ∧
    (s.readLoc .fftParams).extractLsb' 9 23 = 0 ∧
    ((s.readLoc .hbParams).extractLsb' 0 16).toNat = s.build.maxChannels ∧
    ((s.readLoc .hbParams).extractLsb' 16 8).toNat = 12 ∧
    (s.readLoc .hbParams).getLsbD 24 = decide (s.build.fmt = .binary64) ∧
    (s.readLoc .hbParams).extractLsb' 25 7 = 0

/-- A unit's turn changes nothing of the other unit, of the port or of the build, and what it makes of its own unit depends
on that unit alone (00_scope.md R3, 70_reset_and_hazards.md R256). -/
def Obligations.UnitsAreIndependent : Prop :=
  (∀ s t : State, s.unitMove .fft = .next t → t.hb = s.hb ∧ SamePlatform s t) ∧
  (∀ s t : State, s.unitMove .hb = .next t → t.fft = s.fft ∧ SamePlatform s t) ∧
  (∀ s s' t t' : State, s'.fft = s.fft → s'.build = s.build → s'.epoch = s.epoch →
    s.unitMove .fft = .next t → s'.unitMove .fft = .next t' → t'.fft = t.fft) ∧
  ∀ s s' t t' : State, s'.hb = s.hb → s'.build = s.build → s'.epoch = s.epoch →
    s.unitMove .hb = .next t → s'.unitMove .hb = .next t' → t'.hb = t.hb

/-- The completions of the two units commute (20_memory.md R74). -/
def Obligations.UnitCompletionsCommute : Prop :=
  ∀ s : State, ∃ a b t, s.unitMove .fft = .next a ∧ a.unitMove .hb = .next t ∧
    s.unitMove .hb = .next b ∧ b.unitMove .fft = .next t

/-- Nothing but its own completion and a power-on reset changes anything of a busy unit (70_reset_and_hazards.md R250, R252). -/
def Obligations.BusyUnitIsFrozen : Prop :=
  ∀ s t : State, step s = .next t → s.nextAgent ≠ .powerOn →
    (s.busy .fft = true → s.nextAgent ≠ .fft → t.fft = s.fft) ∧
    (s.busy .hb = true → s.nextAgent ≠ .hb → t.hb = s.hb)

/-- A command's effect is the same as if it ran instantly at its acceptance (20_memory.md R73): whatever the host and the
other unit do between a command's acceptance and its completion, its unit ends in the state that running the command at
the acceptance gives. -/
def Obligations.CommandRunsAsAtItsAcceptance : Prop :=
  (∀ (s m t : State) (w : Word) (k : Nat), runsWithout [.fft, .powerOn] k (s.accept w .fft) m →
    m.nextAgent = .fft → step m = .next t →
    ∃ t', (s.accept w .fft).unitMove .fft = .next t' ∧ t.fft = t'.fft) ∧
  ∀ (s m t : State) (w : Word) (k : Nat), runsWithout [.hb, .powerOn] k (s.accept w .hb) m →
    m.nextAgent = .hb → step m = .next t →
    ∃ t', (s.accept w .hb).unitMove .hb = .next t' ∧ t.hb = t'.hb

/-- Each accepted command completes and each outstanding access is performed after finitely many steps
(70_reset_and_hazards.md R260), while no power-on reset stands in the schedule, which would abort them (R241). A command waits
for its unit's turn with its unit unchanged, and that turn executes its word; an access waits for a turn of the host at which
no unit holds it, and that turn performs it. That those turns come, and when, is the model's choice: what is left of the
schedule, and the order of moves once it is used up (assumption log 3). -/
def Obligations.CommandsAndHoldsEnd : Prop :=
  ∀ s : State, Agent.powerOn ∉ s.schedule →
    (∀ (u : UnitId) (w : Word), s.running u = some w →
      ∃ k m t, k ≤ s.schedule.length + 1 ∧ runs k s m ∧ m.nextAgent = unitAgent u ∧
        (match u with | .fft => m.fft = s.fft | .hb => m.hb = s.hb) ∧
        step m = .next t ∧ m.useTurn.executeWord u w = .next t ∧ t.busy u = false) ∧
    ∀ a : Access, s.port.pending = some a →
      ∃ k m, k ≤ s.schedule.length + 2 ∧ runs k s m ∧ m.nextAgent = .host ∧ m.port.pending = some a ∧
        m.holds a = false ∧
        step m = .next (State.perform { m.useTurn with port := { m.useTurn.port with pending := none } } a)

/-- A command mnemonic of a host script is one write of the command's word to its CMD register (30_encoding.md R97): at the
host's turn an idle unit accepts exactly that command. -/
def Obligations.MnemonicIssuesItsCommand : Prop :=
  ∀ (s : State) (i : Instr) (rest : List HostOp), i.WellFormed → s.nextAgent = .host → s.port.pending = none →
    s.script = Stmt.expand s.build.fmt (.command i) ++ rest → s.busy i.unit = false →
    ∃ t, step s = .next t ∧ t.script = rest ∧ t.running i.unit = some (encode i) ∧
      decode i.unit (encode i) = .ok i ∧ t.cmdWord i.unit = encode i ∧ t.port.pending = none

/-- POLL of a unit (30_encoding.md R98): at the host's turn it reads STATUS, again while BUSY is 1, and ends at the first read of
BUSY = 0. -/
def Obligations.PollReadsUntilIdle : Prop :=
  ∀ (s : State) (u : UnitId) (rest : List HostOp), s.nextAgent = .host → s.port.pending = none →
    s.script = Stmt.expand s.build.fmt (.poll u) ++ rest →
    ∃ t, step s = .next t ∧ t.port.response = some (.data (s.status u)) ∧ t.port.pending = none ∧
      t.fft = s.fft ∧ t.hb = s.hb ∧ t.build = s.build ∧ t.script = if s.busy u then s.script else rest

/-- `WF` of a writable value slot of the HB unit or of FFT_IN (30_encoding.md R98, 20_memory.md R64): its writes leave the
value in the slot and every other slot as it was. That the host makes them one after the other rests on the model's choice of
what happens once the schedule is used up, and on no unit being busy (assumption log 3). -/
def Obligations.ValueWriteFillsSlot : Prop :=
  ∀ (s : State) (v : F) (rest : List HostOp), s.build.Legal → fitsFormat s.build.fmt v = true → s.schedule = [] →
    s.quiet →
    (∀ r : HbSlot, Loc.writable (.hbSlot r false) = true →
      s.script = Stmt.expand s.build.fmt (.wf (Loc.offset (.hbSlot r false)) v) ++ rest →
      ∃ k t, runs k s t ∧ t.script = rest ∧ t.slot r = v ∧ (∀ r', r' ≠ r → t.slot r' = s.slot r') ∧ t.fft = s.fft) ∧
    ∀ (i : Nat) (imag : Bool), i < s.build.nrom →
      s.script = Stmt.expand s.build.fmt (.wf (Loc.offset (.fftIn i imag false)) v) ++ rest →
      ∃ k t, runs k s t ∧ t.script = rest ∧ partOf (t.fftIn i) imag = v ∧
        (∀ i' imag', i' ≠ i ∨ imag' ≠ imag → partOf (t.fftIn i') imag' = partOf (s.fftIn i') imag') ∧ t.hb = s.hb

/-! ## Numerics -/

/-- Every operation rounds its exact result once, to nearest, ties to even (40_numerics.md R111), subnormals kept (R112). -/
def Obligations.ArithmeticRoundsToNearest : Prop :=
  ∀ (c : Fp) (a b : F), isFinite c.fmt a = true → isFinite c.fmt b = true → fitsFormat c.fmt b = true →
    (realValue c.fmt a + realValue c.fmt b ≠ 0 →
      RoundsTo c.fmt (realValue c.fmt a + realValue c.fmt b) (fadd c a b)) ∧
    (realValue c.fmt a - realValue c.fmt b ≠ 0 →
      RoundsTo c.fmt (realValue c.fmt a - realValue c.fmt b) (fsub c a b)) ∧
    (realValue c.fmt a * realValue c.fmt b ≠ 0 →
      RoundsTo c.fmt (realValue c.fmt a * realValue c.fmt b) (fmul c a b)) ∧
    (realValue c.fmt a ≠ 0 → realValue c.fmt b ≠ 0 →
      RoundsTo c.fmt (realValue c.fmt a / realValue c.fmt b) (fdiv c a b))

/-- The operations that give a NaN (40_numerics.md R114, R115), and that it is a quiet one of the format. -/
def Obligations.NanResults : Prop :=
  ∀ (c : Fp) (a b : F),
    (isNaN c.fmt a = true ∨ isNaN c.fmt b = true →
      isNaN c.fmt (fadd c a b) = true ∧ isNaN c.fmt (fsub c a b) = true ∧ isNaN c.fmt (fmul c a b) = true ∧
      isNaN c.fmt (fdiv c a b) = true) ∧
    (isInf c.fmt a = true → isInf c.fmt b = true → fitsFormat c.fmt b = true →
      isNaN c.fmt (fdiv c a b) = true ∧
      (signBit c.fmt a ≠ signBit c.fmt b → isNaN c.fmt (fadd c a b) = true) ∧
      (signBit c.fmt a = signBit c.fmt b → isNaN c.fmt (fsub c a b) = true)) ∧
    (isInf c.fmt a = true → isZero c.fmt b = true →
      isNaN c.fmt (fmul c a b) = true ∧ isNaN c.fmt (fmul c b a) = true) ∧
    (isZero c.fmt a = true → isZero c.fmt b = true → isNaN c.fmt (fdiv c a b) = true) ∧
    ∀ v ∈ [fadd c a b, fsub c a b, fmul c a b, fdiv c a b],
      fitsFormat c.fmt v = true ∧ (isNaN c.fmt v = true → v.getLsbD (c.fmt.fracBits - 1) = true)

/-- The signs of zeros and infinities (40_numerics.md R114). -/
def Obligations.SignedZerosAndInfinities : Prop :=
  ∀ (c : Fp) (a b : F), isNaN c.fmt a = false → isNaN c.fmt b = false → fitsFormat c.fmt a = true →
      fitsFormat c.fmt b = true →
    (isFinite c.fmt a = true → isFinite c.fmt b = true → signBit c.fmt a ≠ signBit c.fmt b →
      realValue c.fmt a + realValue c.fmt b = 0 → fadd c a b = fzero) ∧
    (isZero c.fmt a = true → b = a → fadd c a b = a) ∧
    (isInf c.fmt a = true → isFinite c.fmt b = true → fadd c a b = a ∧ fadd c b a = a ∧ fsub c a b = a) ∧
    (isNaN c.fmt (fmul c a b) = false → signBit c.fmt (fmul c a b) = (signBit c.fmt a != signBit c.fmt b)) ∧
    (isNaN c.fmt (fdiv c a b) = false → signBit c.fmt (fdiv c a b) = (signBit c.fmt a != signBit c.fmt b)) ∧
    (isInf c.fmt a = true → isZero c.fmt b = false → isInf c.fmt (fmul c a b) = true ∧ isInf c.fmt (fmul c b a) = true) ∧
    (isInf c.fmt a = true → isFinite c.fmt b = true →
      isInf c.fmt (fdiv c a b) = true ∧ isZero c.fmt (fdiv c b a) = true) ∧
    (isZero c.fmt a = true → isFinite c.fmt b = true → isZero c.fmt (fmul c a b) = true ∧ isZero c.fmt (fmul c b a) = true) ∧
    (isFinite c.fmt a = true → isZero c.fmt a = false → isZero c.fmt b = true →
      isInf c.fmt (fdiv c a b) = true ∧ isZero c.fmt (fdiv c b a) = true)

/-- `fneg` inverts the sign bit and copies every other bit, and `cconj` is exact (40_numerics.md R117, R122). -/
def Obligations.SignFlipIsExact : Prop :=
  ∀ (fmt : Format) (a : F) (z : Cplx),
    (∀ i, i < 64 → (fneg fmt a).getLsbD i = (if i = fmt.width - 1 then !a.getLsbD i else a.getLsbD i)) ∧
    (fitsFormat fmt a = true → fitsFormat fmt (fneg fmt a) = true ∧ magBits fmt (fneg fmt a) = magBits fmt a ∧
      signBit fmt (fneg fmt a) = !signBit fmt a) ∧
    cconj fmt z = ⟨z.re, fneg fmt z.im⟩

/-- The comparisons (40_numerics.md R118): false on a NaN, the order of the real values between finite values (so -0 is not
below +0), infinities outside; `finite` and `positive`. -/
def Obligations.ComparisonsAreOrdered : Prop :=
  ∀ (fmt : Format) (a b : F),
    (isNaN fmt a = true ∨ isNaN fmt b = true → flt fmt a b = false) ∧
    (isFinite fmt a = true → isFinite fmt b = true → (flt fmt a b = true ↔ realValue fmt a < realValue fmt b)) ∧
    (isInf fmt a = true → isNaN fmt b = false → flt fmt a b = (signBit fmt a && !(isInf fmt b && signBit fmt b))) ∧
    (isInf fmt b = true → isNaN fmt a = false → flt fmt a b = (!signBit fmt b && !(isInf fmt a && !signBit fmt a))) ∧
    (isFinite fmt a = true ↔ isInf fmt a = false ∧ isNaN fmt a = false) ∧
    isPositive fmt a = flt fmt fzero a

/-- The constants by their encodings (40_numerics.md R119). -/
def Obligations.ConstantEncodings : Prop :=
  ffClamp .binary64 = 0x3FDD70A3D70A3D71#64 ∧ ffClamp .binary32 = 0x3EEB851F#64 ∧
    ffRef .binary64 = 0x40D3880000000000#64 ∧ ffRef .binary32 = 0x469C4000#64 ∧
    ∀ fmt, realValue fmt (ffRef fmt) = 20000 ∧ realValue fmt (ftwo fmt) = 2 ∧ realValue fmt (fone fmt) = 1

/-- The complex primitives by their roundings (40_numerics.md R120 to R122), with the corner cases of R121. -/
def Obligations.ComplexPrimitives : Prop :=
  ∀ (c : Fp) (a b : Cplx) (x : F),
    cmul c a b = ⟨fsub (c.at 0) (fmul (c.at 1) a.re b.re) (fmul (c.at 2) a.im b.im),
      fadd (c.at 3) (fmul (c.at 4) a.re b.im) (fmul (c.at 5) a.im b.re)⟩ ∧
    cadd c a b = ⟨fadd (c.at 0) a.re b.re, fadd (c.at 1) a.im b.im⟩ ∧
    csub c a b = ⟨fsub (c.at 0) a.re b.re, fsub (c.at 1) a.im b.im⟩ ∧
    cscale c x a = ⟨fmul (c.at 0) x a.re, fmul (c.at 1) x a.im⟩ ∧
    cmul c ⟨fneg c.fmt fzero, fneg c.fmt fzero⟩ ⟨fone c.fmt, fzero⟩ = ⟨fzero, fneg c.fmt fzero⟩ ∧
    isNaN c.fmt (cmul c ⟨makeF c.fmt false (infBits c.fmt), fzero⟩ ⟨fone c.fmt, fzero⟩).im = true

/-- A product and a quotient by 1 and a sum with a zero are exact, for every finite value, subnormals and signed zeros
among them (40_numerics.md R111, R112). -/
def Obligations.SubnormalsAreKept : Prop :=
  ∀ (c : Fp) (a : F), isFinite c.fmt a = true → fitsFormat c.fmt a = true →
    fmul c a (fone c.fmt) = a ∧ fdiv c a (fone c.fmt) = a ∧ fadd c a (fneg c.fmt fzero) = a ∧ fsub c a fzero = a ∧
    (isZero c.fmt a = false → fadd c a fzero = a)
end

