-- ==== Sys2Proof/Laws/Memory.lean ====
section
/-! SUPPORT. The laws of a RAM array: a read after a write, byte by byte, word by word, value by value and element by element;
and that every operation keeps the canonical form. -/

namespace Sys2Proof.Machine

/-! ## Bytes -/

theorem Memory.find_insert (m : Memory) (x y : Nat) (v : Byte) :
    Memory.find (Memory.insert m x v) y = if y = x then some v else Memory.find m y := by
  induction m with
  | nil => simp [Memory.insert, Memory.find]
  | cons c m ih =>
    obtain ⟨a, b⟩ := c
    simp only [Memory.insert]
    split
    · simp [Memory.find]
    · split
      · subst x; simp only [Memory.find]; split <;> rfl
      · simp only [Memory.find, ih]
        by_cases hya : y = a
        · subst hya; rw [if_pos rfl, if_neg (fun h => by omega), if_pos rfl]
        · simp [hya]

theorem Memory.find_erase (m : Memory) (x y : Nat) :
    Memory.find (Memory.erase m x) y = if y = x then none else Memory.find m y := by
  induction m with
  | nil => simp [Memory.erase, Memory.find]
  | cons c m ih =>
    obtain ⟨a, b⟩ := c
    simp only [Memory.erase]
    split
    · subst x
      simp only [ih, Memory.find]
      split <;> simp_all
    · simp only [Memory.find, ih]
      by_cases hya : y = a
      · subst hya; rw [if_pos rfl, if_neg (fun h => by omega), if_pos rfl]
      · simp [hya]

/-- A byte read after a byte written. -/
theorem Memory.byte_set (e : Nat) (m : Memory) (x y : Nat) (v : Byte) :
    Memory.byte e (Memory.set m x v) y = if y = x then v else Memory.byte e m y := by
  unfold Memory.set
  split
  · rename_i h
    simp only [Memory.byte, Memory.find_erase]
    by_cases hy : y = x
    · subst hy; simp [h]
    · simp [hy]
  · simp only [Memory.byte, Memory.find_insert]
    by_cases hy : y = x
    · simp [hy]
    · simp [hy]

/-- A byte of the empty array. -/
theorem Memory.byte_nil_of_channel (e x : Nat) (h : 0x010000 ≤ x) (h' : x < 0x020000) :
    Memory.byte e [] x = 0 := by
  simp [Memory.byte, Memory.find, Memory.unlisted, h, h']

/-! ## Words -/

theorem Memory.byte_setWord (e : Nat) (m : Memory) (x y : Nat) (w : Word) :
    Memory.byte e (Memory.setWord m x w) y =
      if y = x + 3 then byteLane w 3 else if y = x + 2 then byteLane w 2 else if y = x + 1 then byteLane w 1
      else if y = x then byteLane w 0 else Memory.byte e m y := by
  simp only [Memory.setWord, Memory.byte_set]

theorem lanes_append (w : Word) : byteLane w 3 ++ (byteLane w 2 ++ (byteLane w 1 ++ byteLane w 0)) = w := by
  apply BitVec.eq_of_getLsbD_eq
  intro i hi
  simp only [byteLane, BitVec.getLsbD_append, BitVec.getLsbD_extractLsb']
  split
  · split
    · split
      · rename_i h; simp [h]
      · rename_i h; rw [show 8 * 1 + (i - 8) = i by omega]; simp; omega
    · rename_i h; rw [show 8 * 2 + (i - (8 + 8)) = i by omega]; simp; omega
  · rename_i h; rw [show 8 * 3 + (i - (8 + (8 + 8))) = i by omega]; simp; omega

/-- A word read where it was written. -/
theorem Memory.word_setWord_same (e : Nat) (m : Memory) (x : Nat) (w : Word) :
    Memory.word e (Memory.setWord m x w) x = w := by
  have h3 : Memory.byte e (Memory.setWord m x w) (x + 3) = byteLane w 3 := by simp [Memory.byte_setWord]
  have h2 : Memory.byte e (Memory.setWord m x w) (x + 2) = byteLane w 2 := by simp [Memory.byte_setWord]
  have h1 : Memory.byte e (Memory.setWord m x w) (x + 1) = byteLane w 1 := by simp [Memory.byte_setWord]
  have h0 : Memory.byte e (Memory.setWord m x w) x = byteLane w 0 := by simp [Memory.byte_setWord]
  rw [Memory.word, h3, h2, h1, h0]
  exact lanes_append w

/-- A byte outside the written word. -/
theorem Memory.byte_setWord_other (e : Nat) (m : Memory) (x y : Nat) (w : Word) (h : y < x ∨ x + 4 ≤ y) :
    Memory.byte e (Memory.setWord m x w) y = Memory.byte e m y := by
  simp only [Memory.byte_setWord, show y ≠ x + 3 by omega, show y ≠ x + 2 by omega, show y ≠ x + 1 by omega,
    show y ≠ x by omega, if_false]

/-- A word read from arrays that agree on its bytes. -/
theorem Memory.word_congr (e : Nat) (m m' : Memory) (x : Nat)
    (h : ∀ y, x ≤ y → y < x + 4 → Memory.byte e m y = Memory.byte e m' y) : Memory.word e m x = Memory.word e m' x := by
  have lane : ∀ i, i < 4 → Memory.byte e m (x + i) = Memory.byte e m' (x + i) := fun i hi => h _ (by omega) (by omega)
  have lane0 : Memory.byte e m x = Memory.byte e m' x := lane 0 (by decide)
  simp only [Memory.word, lane0, lane 1 (by decide), lane 2 (by decide), lane 3 (by decide)]

/-- A word read elsewhere. -/
theorem Memory.word_setWord_other (e : Nat) (m : Memory) (x y : Nat) (w : Word) (h : y + 4 ≤ x ∨ x + 4 ≤ y) :
    Memory.word e (Memory.setWord m x w) y = Memory.word e m y :=
  Memory.word_congr _ _ _ _ fun _ _ _ => Memory.byte_setWord_other _ _ _ _ _ (by omega)

/-! ## Values -/

theorem lowWord_append (a b : Word) : lowWord (a ++ b) = b := by
  apply BitVec.eq_of_getLsbD_eq
  intro i hi
  simp only [lowWord, BitVec.getLsbD_extractLsb', hi, decide_true, Bool.true_and, Nat.zero_add]
  exact (BitVec.getLsbD_append).trans (if_pos hi)

theorem highWord_append (a b : Word) : highWord (a ++ b) = a := by
  apply BitVec.eq_of_getLsbD_eq
  intro i hi
  simp only [highWord, BitVec.getLsbD_extractLsb', hi, decide_true, Bool.true_and]
  refine (BitVec.getLsbD_append).trans ?_
  rw [if_neg (by omega), Nat.add_sub_cancel_left]

theorem append_words (v : F) : highWord v ++ lowWord v = v := by
  apply BitVec.eq_of_getLsbD_eq
  intro i hi
  simp only [highWord, lowWord, BitVec.getLsbD_append, BitVec.getLsbD_extractLsb']
  split
  · rename_i h; simp [h]
  · rename_i h; rw [show 32 + (i - 32) = i by omega]; simp; omega

/-- `fitsFormat` as a bound. -/
theorem fitsFormat_iff (fmt : Format) (a : F) : fitsFormat fmt a = true ↔ a.toNat < 2 ^ fmt.width := decide_eq_true_iff

theorem toNat_zero_append (w : Word) : ((0 : Word) ++ w : BitVec (32 + 32)).toNat = w.toNat := by
  rw [BitVec.toNat_append]; simp

/-- A value that fits the format is what its words say. -/
theorem value_of_words (fmt : Format) (v : F) (h : fitsFormat fmt v = true) :
    (match fmt with | .binary32 => (0 : Word) ++ lowWord v | .binary64 => highWord v ++ lowWord v) = v := by
  cases fmt with
  | binary64 => exact append_words v
  | binary32 =>
    have hv : v.toNat < 2 ^ 32 := (fitsFormat_iff _ _).1 h
    have hz : highWord v = 0 := by
      apply BitVec.eq_of_toNat_eq
      rw [highWord, BitVec.extractLsb'_toNat, Nat.shiftRight_eq_div_pow, Nat.div_eq_of_lt hv]
      rfl
    show (0 : Word) ++ lowWord v = v
    rw [← hz]
    exact append_words v

/-- A value read where it was written. -/
theorem Memory.value_setValue_same (fmt : Format) (e : Nat) (m : Memory) (x : Nat) (v : F)
    (h : fitsFormat fmt v = true) : Memory.value fmt e (Memory.setValue fmt m x v) x = v := by
  cases fmt with
  | binary32 =>
    simp only [Memory.value, Memory.setValue, Memory.word_setWord_same]
    exact value_of_words .binary32 v h
  | binary64 =>
    simp only [Memory.value, Memory.setValue, Memory.word_setWord_same]
    rw [Memory.word_setWord_other _ _ _ _ _ (by omega), Memory.word_setWord_same]
    exact append_words v

/-- A byte outside the written slot. -/
theorem Memory.byte_setValue_other (fmt : Format) (e : Nat) (m : Memory) (x y : Nat) (v : F)
    (h : y < x ∨ x + 8 ≤ y) : Memory.byte e (Memory.setValue fmt m x v) y = Memory.byte e m y := by
  cases fmt with
  | binary32 => exact Memory.byte_setWord_other _ _ _ _ _ (by omega)
  | binary64 =>
    exact (Memory.byte_setWord_other _ _ _ _ _ (by omega)).trans (Memory.byte_setWord_other _ _ _ _ _ (by omega))

/-- A value read from arrays that agree on the bytes of its slot. -/
theorem Memory.value_congr (fmt : Format) (e : Nat) (m m' : Memory) (x : Nat)
    (h : ∀ y, x ≤ y → y < x + 8 → Memory.byte e m y = Memory.byte e m' y) :
    Memory.value fmt e m x = Memory.value fmt e m' x := by
  have low : Memory.word e m x = Memory.word e m' x := Memory.word_congr _ _ _ _ fun y _ _ => h y (by omega) (by omega)
  have high : Memory.word e m (x + 4) = Memory.word e m' (x + 4) :=
    Memory.word_congr _ _ _ _ fun y _ _ => h y (by omega) (by omega)
  cases fmt <;> simp only [Memory.value, low, high]

/-- A value read from another slot. -/
theorem Memory.value_setValue_other (fmt : Format) (e : Nat) (m : Memory) (x y : Nat) (v : F)
    (h : y + 8 ≤ x ∨ x + 8 ≤ y) : Memory.value fmt e (Memory.setValue fmt m x v) y = Memory.value fmt e m y :=
  Memory.value_congr _ _ _ _ _ fun _ _ _ => Memory.byte_setValue_other _ _ _ _ _ _ (by omega)

/-- What a slot holds always fits the format. -/
theorem Memory.value_fits (fmt : Format) (e : Nat) (m : Memory) (x : Nat) :
    fitsFormat fmt (Memory.value fmt e m x) = true := by
  rw [fitsFormat_iff]
  cases fmt with
  | binary64 => exact (Memory.value .binary64 e m x).isLt
  | binary32 => 
    have := (Memory.word e m x).isLt
    rw [← toNat_zero_append] at this
    exact this

/-! ## Complex elements -/

/-- Both parts fit. -/
theorem Memory.cplx_setCplx_same (fmt : Format) (e : Nat) (m : Memory) (x : Nat) (z : Cplx)
    (hr : fitsFormat fmt z.re = true) (hi : fitsFormat fmt z.im = true) :
    Memory.cplx fmt e (Memory.setCplx fmt m x z) x = z := by
  simp only [Memory.cplx, Memory.setCplx]
  rw [Memory.value_setValue_other _ _ _ _ _ _ (by omega), Memory.value_setValue_same _ _ _ _ _ hr,
    Memory.value_setValue_same _ _ _ _ _ hi]

/-- An element read from arrays that agree on its bytes. -/
theorem Memory.cplx_congr (fmt : Format) (e : Nat) (m m' : Memory) (x : Nat)
    (h : ∀ y, x ≤ y → y < x + 16 → Memory.byte e m y = Memory.byte e m' y) :
    Memory.cplx fmt e m x = Memory.cplx fmt e m' x :=
  congrArg₂ Cplx.mk (Memory.value_congr _ _ _ _ _ fun y _ _ => h y (by omega) (by omega))
    (Memory.value_congr _ _ _ _ _ fun y _ _ => h y (by omega) (by omega))

/-- A byte outside the written element. -/
theorem Memory.byte_setCplx_other (fmt : Format) (e : Nat) (m : Memory) (x y : Nat) (z : Cplx)
    (h : y < x ∨ x + 16 ≤ y) : Memory.byte e (Memory.setCplx fmt m x z) y = Memory.byte e m y :=
  (Memory.byte_setValue_other _ _ _ _ _ _ (by omega)).trans (Memory.byte_setValue_other _ _ _ _ _ _ (by omega))

/-- An element read elsewhere. -/
theorem Memory.cplx_setCplx_other (fmt : Format) (e : Nat) (m : Memory) (x y : Nat) (z : Cplx)
    (h : y + 16 ≤ x ∨ x + 16 ≤ y) : Memory.cplx fmt e (Memory.setCplx fmt m x z) y = Memory.cplx fmt e m y :=
  Memory.cplx_congr _ _ _ _ _ fun _ _ _ => Memory.byte_setCplx_other _ _ _ _ _ _ (by omega)

/-- A byte outside the written elements. -/
theorem Memory.byte_setCplxs_other (fmt : Format) (e : Nat) (zs : List Cplx) (m : Memory) (x y : Nat)
    (h : y < x ∨ x + 16 * zs.length ≤ y) :
    Memory.byte e (Memory.setCplxs fmt m x zs) y = Memory.byte e m y := by
  induction zs generalizing m x with
  | nil => rfl
  | cons z zs ih =>
    simp only [List.length_cons] at h
    exact (ih _ _ (by omega)).trans (Memory.byte_setCplx_other _ _ _ _ _ _ (by omega))

/-- An element read outside the written ones. -/
theorem Memory.cplx_setCplxs_other (fmt : Format) (e : Nat) (zs : List Cplx) (m : Memory) (x y : Nat)
    (h : y + 16 ≤ x ∨ x + 16 * zs.length ≤ y) :
    Memory.cplx fmt e (Memory.setCplxs fmt m x zs) y = Memory.cplx fmt e m y :=
  Memory.cplx_congr _ _ _ _ _ fun _ _ _ => Memory.byte_setCplxs_other _ _ _ _ _ _ (by omega)

/-- A word read outside the written elements. -/
theorem Memory.word_setCplxs_other (fmt : Format) (e : Nat) (zs : List Cplx) (m : Memory) (x y : Nat)
    (h : y + 4 ≤ x ∨ x + 16 * zs.length ≤ y) :
    Memory.word e (Memory.setCplxs fmt m x zs) y = Memory.word e m y :=
  Memory.word_congr _ _ _ _ fun _ _ _ => Memory.byte_setCplxs_other _ _ _ _ _ _ (by omega)

/-- The `k`-th of the written elements, where it fits the format. -/
theorem Memory.cplx_setCplxs_same (fmt : Format) (e : Nat) (zs : List Cplx) (m : Memory) (x k : Nat) (hk : k < zs.length)
    (hr : fitsFormat fmt zs[k].re = true) (hi : fitsFormat fmt zs[k].im = true) :
    Memory.cplx fmt e (Memory.setCplxs fmt m x zs) (x + 16 * k) = zs[k] := by
  induction zs generalizing m x k with
  | nil => simp at hk
  | cons z zs ih =>
    simp only [Memory.setCplxs]
    cases k with
    | zero =>
      rw [Memory.cplx_setCplxs_other _ _ _ _ _ _ (by omega)]
      exact Memory.cplx_setCplx_same _ _ _ _ _ hr hi
    | succ k =>
      have := ih (Memory.setCplx fmt m x z) (x + 16) k (by simpa using hk) hr hi
      rw [show x + 16 * (k + 1) = x + 16 + 16 * k by omega]
      simpa using this

@[simp] theorem Memory.cplxs_length (fmt : Format) (e : Nat) (m : Memory) (x n : Nat) :
    (Memory.cplxs fmt e m x n).length = n := by
  induction n generalizing x with
  | zero => rfl
  | succ n ih => simp [Memory.cplxs, ih]

/-- The `k`-th of the elements read. -/
theorem Memory.cplxs_get (fmt : Format) (e : Nat) (m : Memory) (x n k : Nat) (hk : k < n) :
    (Memory.cplxs fmt e m x n)[k]? = some (Memory.cplx fmt e m (x + 16 * k)) := by
  induction n generalizing x k with
  | zero => omega
  | succ n ih =>
    cases k with
    | zero => rfl
    | succ k =>
      simp only [Memory.cplxs, List.getElem?_cons_succ]
      rw [ih (x + 16) k (by omega), show x + 16 + 16 * k = x + 16 * (k + 1) by omega]

/-! ## The canonical form -/

/-- Every offset of `m` is above `a`. -/
def Memory.above (a : Nat) (m : Memory) : Prop := ∀ c ∈ m, a < c.1

theorem Memory.rising_cons (a : Nat) (b : Byte) (m : Memory) :
    Memory.rising ((a, b) :: m) = true ↔ Memory.above a m ∧ Memory.rising m = true := by
  induction m generalizing a b with
  | nil => simp [Memory.rising, Memory.above]
  | cons c m ih =>
    obtain ⟨c, d⟩ := c
    simp only [Memory.rising, Bool.and_eq_true, decide_eq_true_eq]
    constructor
    · rintro ⟨h1, h2⟩
      refine ⟨?_, h2⟩
      intro x hx
      rcases List.mem_cons.1 hx with rfl | hx
      · exact h1
      · exact h1.trans (((ih c d).1 h2).1 x hx)
    · rintro ⟨h1, h2⟩
      exact ⟨h1 (c, d) (by simp), h2⟩

theorem Memory.wf_iff (m : Memory) :
    Memory.wf m = true ↔ Memory.rising m = true ∧ ∀ c ∈ m, Memory.unlisted c.1 ≠ some c.2 := by
  simp [Memory.wf]

theorem Memory.mem_insert (m : Memory) (x : Nat) (v : Byte) (c : Host.Cell) (h : c ∈ Memory.insert m x v) :
    c = (x, v) ∨ c ∈ m := by
  induction m with
  | nil => simpa [Memory.insert] using h
  | cons d m ih =>
    simp only [Memory.insert] at h
    split at h
    · simpa using h
    · split at h
      · exact (List.mem_cons.1 h).imp_right (List.mem_cons_of_mem _)
      · rcases List.mem_cons.1 h with rfl | h
        · exact .inr List.mem_cons_self
        · exact (ih h).imp_right (List.mem_cons_of_mem _)

theorem Memory.mem_erase (m : Memory) (x : Nat) (c : Host.Cell) (h : c ∈ Memory.erase m x) : c ∈ m := by
  induction m with
  | nil => simp [Memory.erase] at h
  | cons d m ih =>
    obtain ⟨a, b⟩ := d
    simp only [Memory.erase] at h
    split at h
    · exact List.mem_cons_of_mem _ (ih h)
    · rcases List.mem_cons.1 h with h | h
      · simp [h]
      · exact List.mem_cons_of_mem _ (ih h)

theorem Memory.rising_insert (m : Memory) (x : Nat) (v : Byte) (h : Memory.rising m = true) :
    Memory.rising (Memory.insert m x v) = true := by
  induction m with
  | nil => rfl
  | cons d m ih =>
    obtain ⟨a, b⟩ := d
    have hm := (Memory.rising_cons a b m).1 h
    simp only [Memory.insert]
    split
    · rename_i hx
      refine (Memory.rising_cons _ _ _).2 ⟨?_, h⟩
      intro c hc
      rcases List.mem_cons.1 hc with rfl | hc
      · exact hx
      · exact Nat.lt_trans hx (hm.1 c hc)
    · split
      · subst x; exact (Memory.rising_cons _ _ _).2 hm
      · refine (Memory.rising_cons _ _ _).2 ⟨?_, ih hm.2⟩
        intro c hc
        rcases Memory.mem_insert m x v c hc with rfl | hc
        · show a < x; omega
        · exact hm.1 c hc

theorem Memory.rising_erase (m : Memory) (x : Nat) (h : Memory.rising m = true) :
    Memory.rising (Memory.erase m x) = true := by
  induction m with
  | nil => rfl
  | cons d m ih =>
    obtain ⟨a, b⟩ := d
    have hm := (Memory.rising_cons a b m).1 h
    simp only [Memory.erase]
    split
    · exact ih hm.2
    · exact (Memory.rising_cons _ _ _).2 ⟨fun c hc => hm.1 c (Memory.mem_erase m x c hc), ih hm.2⟩

/-- A byte write keeps the canonical form. -/
theorem Memory.wf_set (m : Memory) (x : Nat) (v : Byte) (h : Memory.wf m = true) :
    Memory.wf (Memory.set m x v) = true := by
  rw [Memory.wf_iff] at *
  unfold Memory.set
  split
  · exact ⟨Memory.rising_erase m x h.1, fun c hc => h.2 c (Memory.mem_erase m x c hc)⟩
  · rename_i hv
    refine ⟨Memory.rising_insert m x v h.1, fun c hc => ?_⟩
    rcases Memory.mem_insert m x v c hc with rfl | hc
    · exact hv
    · exact h.2 c hc

/-- A word write keeps the canonical form. -/
theorem Memory.wf_setWord (m : Memory) (x : Nat) (w : Word) (h : Memory.wf m = true) :
    Memory.wf (Memory.setWord m x w) = true :=
  Memory.wf_set _ _ _ (Memory.wf_set _ _ _ (Memory.wf_set _ _ _ (Memory.wf_set _ _ _ h)))

/-- A value write keeps the canonical form. -/
theorem Memory.wf_setValue (fmt : Format) (m : Memory) (x : Nat) (v : F) (h : Memory.wf m = true) :
    Memory.wf (Memory.setValue fmt m x v) = true := by
  cases fmt with
  | binary32 => exact Memory.wf_setWord _ _ _ h
  | binary64 => exact Memory.wf_setWord _ _ _ (Memory.wf_setWord _ _ _ h)

/-- A write of complex elements keeps the canonical form. -/
theorem Memory.wf_setCplxs (fmt : Format) (zs : List Cplx) (m : Memory) (x : Nat) (h : Memory.wf m = true) :
    Memory.wf (Memory.setCplxs fmt m x zs) = true := by
  induction zs generalizing m x with
  | nil => exact h
  | cons z zs ih => exact ih _ _ (Memory.wf_setValue _ _ _ _ (Memory.wf_setValue _ _ _ _ h))

/-- The empty array, that of power-on reset, is canonical. -/
theorem Memory.wf_nil : Memory.wf [] = true := rfl

theorem Memory.find_none_of_above (a : Nat) (m : Memory) (x : Nat) (h : Memory.above a m) (hx : x ≤ a) :
    Memory.find m x = none := by
  induction m with
  | nil => rfl
  | cons d m ih =>
    obtain ⟨c, b⟩ := d
    have hc : a < c := h (c, b) (by simp)
    simp only [Memory.find]
    rw [if_neg (by omega)]
    exact ih (fun d hd => h d (List.mem_cons_of_mem _ hd))

/-- Two arrays in rising order that list the same bytes are equal. -/
theorem Memory.ext_of_rising (m m' : Memory) (h : Memory.rising m = true) (h' : Memory.rising m' = true)
    (hf : ∀ x, Memory.find m x = Memory.find m' x) : m = m' := by
  induction m generalizing m' with
  | nil =>
    cases m' with
    | nil => rfl
    | cons d m' => obtain ⟨a, b⟩ := d; have := hf a; simp [Memory.find] at this
  | cons d m ih =>
    obtain ⟨a, b⟩ := d
    have hm := (Memory.rising_cons a b m).1 h
    cases m' with
    | nil => have := hf a; simp [Memory.find] at this
    | cons d' m' =>
      obtain ⟨a', b'⟩ := d'
      have hm' := (Memory.rising_cons a' b' m').1 h'
      have haa : a = a' := by
        rcases Nat.lt_trichotomy a a' with hlt | rfl | hlt
        · have := hf a
          simp only [Memory.find, if_pos] at this
          rw [if_neg (by omega), Memory.find_none_of_above a' m' a hm'.1 (by omega)] at this
          simp at this
        · rfl
        · have := hf a'
          simp only [Memory.find, if_pos] at this
          rw [if_neg (by omega), Memory.find_none_of_above a m a' hm.1 (by omega)] at this
          simp at this
      subst haa
      have hbb : b = b' := by have := hf a; simpa [Memory.find] using this
      subst hbb
      have : m = m' := by
        apply ih m' hm.2 hm'.2
        intro x
        by_cases hx : x = a
        · subst hx
          rw [Memory.find_none_of_above x m x hm.1 (by omega), Memory.find_none_of_above x m' x hm'.1 (by omega)]
        · have := hf x
          simpa [Memory.find, hx] using this
      rw [this]

end Sys2Proof.Machine
end

