-- ==== Sys2Proof/Laws/State.lean ====
section
/-! SUPPORT. One lemma per field per named update of the state, so that no proof unfolds a record update. -/

namespace Sys2Proof.Machine

variable (s : State) (u : FftUnit) (h : HbUnit) (e : ECode) (w : Word) (r : Response)

/-! ## Units -/

@[simp] theorem FftUnit.complete_cmd : (u.complete e).cmd = u.cmd := rfl
@[simp] theorem FftUnit.complete_arg : (u.complete e).arg = u.arg := rfl
@[simp] theorem FftUnit.complete_maxSize : (u.complete e).maxSize = u.maxSize := rfl
@[simp] theorem FftUnit.complete_ecode : (u.complete e).ecode = e := rfl
@[simp] theorem FftUnit.complete_inBuf : (u.complete e).inBuf = u.inBuf := rfl
@[simp] theorem FftUnit.complete_outBuf : (u.complete e).outBuf = u.outBuf := rfl
@[simp] theorem FftUnit.complete_job : (u.complete e).job = none := rfl
@[simp] theorem FftUnit.complete_serial : (u.complete e).serial = u.serial + 1 := rfl
@[simp] theorem FftUnit.complete_busy : (u.complete e).busy = false := rfl

@[simp] theorem FftUnit.accept_cmd : (u.accept w).cmd = w := rfl
@[simp] theorem FftUnit.accept_arg : (u.accept w).arg = u.arg := rfl
@[simp] theorem FftUnit.accept_maxSize : (u.accept w).maxSize = u.maxSize := rfl
@[simp] theorem FftUnit.accept_ecode : (u.accept w).ecode = u.ecode := rfl
@[simp] theorem FftUnit.accept_inBuf : (u.accept w).inBuf = u.inBuf := rfl
@[simp] theorem FftUnit.accept_outBuf : (u.accept w).outBuf = u.outBuf := rfl
@[simp] theorem FftUnit.accept_job : (u.accept w).job = some ⟨w, u.capture⟩ := rfl
@[simp] theorem FftUnit.accept_serial : (u.accept w).serial = u.serial := rfl
@[simp] theorem FftUnit.accept_busy : (u.accept w).busy = true := rfl
@[simp] theorem FftUnit.accept_capture : (u.accept w).capture = u.capture := rfl
@[simp] theorem FftUnit.accept_operands : (u.accept w).operands = u.capture := rfl

@[simp] theorem FftUnit.storeOutput_outBuf (fmt : Format) (y : List Cplx) :
    (u.storeOutput fmt y).outBuf = Memory.setCplxs fmt u.outBuf fftOutBase y := rfl
@[simp] theorem FftUnit.storeOutput_inBuf (fmt : Format) (y : List Cplx) : (u.storeOutput fmt y).inBuf = u.inBuf := rfl
@[simp] theorem FftUnit.storeOutput_cmd (fmt : Format) (y : List Cplx) : (u.storeOutput fmt y).cmd = u.cmd := rfl
@[simp] theorem FftUnit.storeOutput_arg (fmt : Format) (y : List Cplx) : (u.storeOutput fmt y).arg = u.arg := rfl
@[simp] theorem FftUnit.storeOutput_maxSize (fmt : Format) (y : List Cplx) :
    (u.storeOutput fmt y).maxSize = u.maxSize := rfl
@[simp] theorem FftUnit.storeOutput_ecode (fmt : Format) (y : List Cplx) : (u.storeOutput fmt y).ecode = u.ecode := rfl
@[simp] theorem FftUnit.storeOutput_job (fmt : Format) (y : List Cplx) : (u.storeOutput fmt y).job = u.job := rfl
@[simp] theorem FftUnit.storeOutput_serial (fmt : Format) (y : List Cplx) : (u.storeOutput fmt y).serial = u.serial := rfl

@[simp] theorem HbUnit.complete_cmd : (h.complete e).cmd = h.cmd := rfl
@[simp] theorem HbUnit.complete_nchan : (h.complete e).nchan = h.nchan := rfl
@[simp] theorem HbUnit.complete_channels : (h.complete e).channels = h.channels := rfl
@[simp] theorem HbUnit.complete_ecode : (h.complete e).ecode = e := rfl
@[simp] theorem HbUnit.complete_srate : (h.complete e).srate = h.srate := rfl
@[simp] theorem HbUnit.complete_pgain : (h.complete e).pgain = h.pgain := rfl
@[simp] theorem HbUnit.complete_xre : (h.complete e).xre = h.xre := rfl
@[simp] theorem HbUnit.complete_xim : (h.complete e).xim = h.xim := rfl
@[simp] theorem HbUnit.complete_yre : (h.complete e).yre = h.yre := rfl
@[simp] theorem HbUnit.complete_yim : (h.complete e).yim = h.yim := rfl
@[simp] theorem HbUnit.complete_ffactor : (h.complete e).ffactor = h.ffactor := rfl
@[simp] theorem HbUnit.complete_sdirect : (h.complete e).sdirect = h.sdirect := rfl
@[simp] theorem HbUnit.complete_scoeff : (h.complete e).scoeff = h.scoeff := rfl
@[simp] theorem HbUnit.complete_spole : (h.complete e).spole = h.spole := rfl
@[simp] theorem HbUnit.complete_state : (h.complete e).state = h.state := rfl
@[simp] theorem HbUnit.complete_job : (h.complete e).job = none := rfl
@[simp] theorem HbUnit.complete_serial : (h.complete e).serial = h.serial + 1 := rfl
@[simp] theorem HbUnit.complete_busy : (h.complete e).busy = false := rfl

@[simp] theorem HbUnit.accept_cmd : (h.accept w).cmd = w := rfl
@[simp] theorem HbUnit.accept_nchan : (h.accept w).nchan = h.nchan := rfl
@[simp] theorem HbUnit.accept_channels : (h.accept w).channels = h.channels := rfl
@[simp] theorem HbUnit.accept_ecode : (h.accept w).ecode = h.ecode := rfl
@[simp] theorem HbUnit.accept_srate : (h.accept w).srate = h.srate := rfl
@[simp] theorem HbUnit.accept_pgain : (h.accept w).pgain = h.pgain := rfl
@[simp] theorem HbUnit.accept_xre : (h.accept w).xre = h.xre := rfl
@[simp] theorem HbUnit.accept_xim : (h.accept w).xim = h.xim := rfl
@[simp] theorem HbUnit.accept_yre : (h.accept w).yre = h.yre := rfl
@[simp] theorem HbUnit.accept_yim : (h.accept w).yim = h.yim := rfl
@[simp] theorem HbUnit.accept_ffactor : (h.accept w).ffactor = h.ffactor := rfl
@[simp] theorem HbUnit.accept_sdirect : (h.accept w).sdirect = h.sdirect := rfl
@[simp] theorem HbUnit.accept_scoeff : (h.accept w).scoeff = h.scoeff := rfl
@[simp] theorem HbUnit.accept_spole : (h.accept w).spole = h.spole := rfl
@[simp] theorem HbUnit.accept_state : (h.accept w).state = h.state := rfl
@[simp] theorem HbUnit.accept_job : (h.accept w).job = some ⟨w, h.capture⟩ := rfl
@[simp] theorem HbUnit.accept_serial : (h.accept w).serial = h.serial := rfl
@[simp] theorem HbUnit.accept_busy : (h.accept w).busy = true := rfl
@[simp] theorem HbUnit.accept_capture : (h.accept w).capture = h.capture := rfl
@[simp] theorem HbUnit.accept_operands : (h.accept w).operands = h.capture := rfl

/-! ## State -/

@[simp] theorem State.accept_fft_fft : (s.accept w .fft).fft = s.fft.accept w := rfl
@[simp] theorem State.accept_fft_hb : (s.accept w .fft).hb = s.hb := rfl
@[simp] theorem State.accept_hb_fft : (s.accept w .hb).fft = s.fft := rfl
@[simp] theorem State.accept_hb_hb : (s.accept w .hb).hb = s.hb.accept w := rfl
@[simp] theorem State.accept_build (v : UnitId) : (s.accept w v).build = s.build := by cases v <;> rfl
@[simp] theorem State.accept_port (v : UnitId) : (s.accept w v).port = s.port := by cases v <;> rfl
@[simp] theorem State.accept_script (v : UnitId) : (s.accept w v).script = s.script := by cases v <;> rfl
@[simp] theorem State.accept_schedule (v : UnitId) : (s.accept w v).schedule = s.schedule := by cases v <;> rfl
@[simp] theorem State.accept_epoch (v : UnitId) : (s.accept w v).epoch = s.epoch := by cases v <;> rfl

@[simp] theorem State.cmdError_fft_fft : (s.cmdError e .fft).fft = s.fft.complete e := rfl
@[simp] theorem State.cmdError_fft_hb : (s.cmdError e .fft).hb = s.hb := rfl
@[simp] theorem State.cmdError_hb_fft : (s.cmdError e .hb).fft = s.fft := rfl
@[simp] theorem State.cmdError_hb_hb : (s.cmdError e .hb).hb = s.hb.complete e := rfl
@[simp] theorem State.cmdError_build (v : UnitId) : (s.cmdError e v).build = s.build := by cases v <;> rfl
@[simp] theorem State.cmdError_port (v : UnitId) : (s.cmdError e v).port = s.port := by cases v <;> rfl
@[simp] theorem State.cmdError_script (v : UnitId) : (s.cmdError e v).script = s.script := by cases v <;> rfl
@[simp] theorem State.cmdError_schedule (v : UnitId) : (s.cmdError e v).schedule = s.schedule := by cases v <;> rfl
@[simp] theorem State.cmdError_epoch (v : UnitId) : (s.cmdError e v).epoch = s.epoch := by cases v <;> rfl

@[simp] theorem State.completeFft_fft : (s.completeFft u).fft = u.complete .ok := rfl
@[simp] theorem State.completeFft_hb : (s.completeFft u).hb = s.hb := rfl
@[simp] theorem State.completeFft_build : (s.completeFft u).build = s.build := rfl
@[simp] theorem State.completeFft_port : (s.completeFft u).port = s.port := rfl
@[simp] theorem State.completeFft_script : (s.completeFft u).script = s.script := rfl
@[simp] theorem State.completeFft_schedule : (s.completeFft u).schedule = s.schedule := rfl
@[simp] theorem State.completeFft_epoch : (s.completeFft u).epoch = s.epoch := rfl

@[simp] theorem State.completeHb_hb : (s.completeHb h).hb = h.complete .ok := rfl
@[simp] theorem State.completeHb_fft : (s.completeHb h).fft = s.fft := rfl
@[simp] theorem State.completeHb_build : (s.completeHb h).build = s.build := rfl
@[simp] theorem State.completeHb_port : (s.completeHb h).port = s.port := rfl
@[simp] theorem State.completeHb_script : (s.completeHb h).script = s.script := rfl
@[simp] theorem State.completeHb_schedule : (s.completeHb h).schedule = s.schedule := rfl
@[simp] theorem State.completeHb_epoch : (s.completeHb h).epoch = s.epoch := rfl

@[simp] theorem State.respond_fft : (s.respond r).fft = s.fft := rfl
@[simp] theorem State.respond_hb : (s.respond r).hb = s.hb := rfl
@[simp] theorem State.respond_build : (s.respond r).build = s.build := rfl
@[simp] theorem State.respond_pending : (s.respond r).port.pending = s.port.pending := rfl
@[simp] theorem State.respond_response : (s.respond r).port.response = some r := rfl
@[simp] theorem State.respond_script : (s.respond r).script = s.script := rfl
@[simp] theorem State.respond_schedule : (s.respond r).schedule = s.schedule := rfl
@[simp] theorem State.respond_epoch : (s.respond r).epoch = s.epoch := rfl
@[simp] theorem State.respond_busy (v : UnitId) : (s.respond r).busy v = s.busy v := by cases v <;> rfl
@[simp] theorem State.respond_readLoc (l : Loc) : (s.respond r).readLoc l = s.readLoc l := by cases l <;> rfl

@[simp] theorem State.useTurn_fft : s.useTurn.fft = s.fft := rfl
@[simp] theorem State.useTurn_hb : s.useTurn.hb = s.hb := rfl
@[simp] theorem State.useTurn_build : s.useTurn.build = s.build := rfl
@[simp] theorem State.useTurn_port : s.useTurn.port = s.port := rfl
@[simp] theorem State.useTurn_script : s.useTurn.script = s.script := rfl
@[simp] theorem State.useTurn_schedule : s.useTurn.schedule = s.schedule.tail := rfl
@[simp] theorem State.useTurn_epoch : s.useTurn.epoch = s.epoch := rfl
@[simp] theorem State.useTurn_running (v : UnitId) : s.useTurn.running v = s.running v := by cases v <;> rfl
@[simp] theorem State.useTurn_busy (v : UnitId) : s.useTurn.busy v = s.busy v := by cases v <;> rfl

@[simp] theorem State.powerOnReset_build : s.powerOnReset.build = s.build := rfl
@[simp] theorem State.powerOnReset_fft : s.powerOnReset.fft = powerOnFft s.fft.serial := rfl
@[simp] theorem State.powerOnReset_hb : s.powerOnReset.hb = powerOnHb s.build.fmt s.hb.serial := rfl
@[simp] theorem State.powerOnReset_port : s.powerOnReset.port = powerOnPort := rfl
@[simp] theorem State.powerOnReset_script : s.powerOnReset.script = s.script := rfl
@[simp] theorem State.powerOnReset_schedule : s.powerOnReset.schedule = s.schedule := rfl
@[simp] theorem State.powerOnReset_epoch : s.powerOnReset.epoch = s.epoch + 1 := rfl

@[simp] theorem State.withTurn_fft (v : UnitId) : (s.withTurn v).fft = s.fft := by unfold State.withTurn; split <;> rfl
@[simp] theorem State.withTurn_hb (v : UnitId) : (s.withTurn v).hb = s.hb := by unfold State.withTurn; split <;> rfl
@[simp] theorem State.withTurn_build (v : UnitId) : (s.withTurn v).build = s.build := by
  unfold State.withTurn; split <;> rfl
@[simp] theorem State.withTurn_port (v : UnitId) : (s.withTurn v).port = s.port := by
  unfold State.withTurn; split <;> rfl
@[simp] theorem State.withTurn_script (v : UnitId) : (s.withTurn v).script = s.script := by
  unfold State.withTurn; split <;> rfl
@[simp] theorem State.withTurn_epoch (v : UnitId) : (s.withTurn v).epoch = s.epoch := by
  unfold State.withTurn; split <;> rfl

/-- The unit that was given the turn moves next. -/
@[simp] theorem State.withTurn_nextAgent (v : UnitId) : (s.withTurn v).nextAgent = unitAgent v := by
  unfold State.withTurn
  split
  · assumption
  · rfl

end Sys2Proof.Machine
end

