-- ==== Sys2Proof/Laws/AddressMap.lean ====
section
/-! SUPPORT. The address map (20_memory.md R66): the word at an offset has that offset and is one the map lists, and every word
the map lists is found at its offset; and when a byte of the block reads the same in two states. -/

namespace Sys2Proof.Machine

/-! ## Places inside an element -/

theorem highAt_add (y : Nat) (imag high : Bool) (h : y % 16 = 0) : highAt (y + wordInElement imag high) = high := by
  unfold highAt wordInElement
  cases imag <;> cases high <;> simp <;> omega

theorem imagAt_add (y : Nat) (imag high : Bool) (h : y % 16 = 0) : imagAt (y + wordInElement imag high) = imag := by
  unfold imagAt wordInElement
  cases imag <;> cases high <;> simp <;> omega

theorem wordInElement_lt (imag high : Bool) : wordInElement imag high < 16 := by cases imag <;> cases high <;> decide

theorem wordInElement_at (x : Nat) (h : x % 4 = 0) : wordInElement (imagAt x) (highAt x) = x % 16 := by
  unfold wordInElement imagAt highAt
  have h1 : x % 16 / 8 = 0 ∨ x % 16 / 8 = 1 := by omega
  have h2 : x % 8 / 4 = 0 ∨ x % 8 / 4 = 1 := by omega
  rcases h1 with h1 | h1 <;> rcases h2 with h2 | h2 <;> simp [h1, h2] <;> omega

theorem ifMapped_some {b : Build} {high : Bool} {l l' : Loc} (h : ifMapped b high l = some l') :
    l' = l ∧ wordExists b high := by
  unfold ifMapped at h
  split at h
  · cases h
  · rename_i hn
    cases h
    refine ⟨rfl, fun hh => ?_⟩
    cases hf : b.fmt
    · exact absurd ⟨hh, hf⟩ hn
    · rfl

theorem ifMapped_of_exists {b : Build} {high : Bool} (l : Loc) (h : wordExists b high) : ifMapped b high l = some l := by
  unfold ifMapped
  rw [if_neg]
  rintro ⟨h1, h2⟩
  rw [h h1] at h2; cases h2

/-! ## The slots and the tables by number -/

theorem HbSlot.ofIndex_index (r : HbSlot) : HbSlot.ofIndex r.index = some r := by cases r <;> rfl

theorem HbSlot.index_ofIndex {n : Nat} {r : HbSlot} (h : HbSlot.ofIndex n = some r) : r.index = n := by
  unfold HbSlot.ofIndex at h
  split at h <;> first | (cases h; rfl) | cases h

theorem HbSlot.index_lt (r : HbSlot) : r.index < 9 := by cases r <;> decide

theorem HbTable.ofIndex_index (t : HbTable) : HbTable.ofIndex t.index = some t := by cases t <;> rfl

theorem HbTable.index_ofIndex {n : Nat} {t : HbTable} (h : HbTable.ofIndex n = some t) : t.index = n := by
  unfold HbTable.ofIndex at h
  split at h <;> first | (cases h; rfl) | cases h

theorem HbTable.index_lt (t : HbTable) : t.index < 4 := by cases t <;> decide

theorem controlRegister_offset {x : Nat} {l : Loc} (h : controlRegister x = some l) :
    l.offset = x ∧ ∀ b, l.mapped b := by
  unfold controlRegister at h
  split at h <;> first | (cases h; exact ⟨rfl, fun _ => trivial⟩) | cases h

/-! ## From offsets to words -/

/-- The word at an offset is one the map lists at that offset. -/
theorem locate_some {b : Build} {x : Nat} {l : Loc} (h : locate b x = some l) :
    l.mapped b ∧ l.offset = x ∧ x % 4 = 0 := by
  unfold locate at h
  split at h
  case isFalse => cases h
  rename_i hx4
  refine (fun (h : l.mapped b ∧ l.offset = x) => ⟨h.1, h.2, hx4⟩) ?_
  have hw := wordInElement_at x hx4
  unfold locateAligned at h
  split at h
  · obtain ⟨h1, h2⟩ := controlRegister_offset h
    exact ⟨h2 b, h1⟩
  · split at h
    · split at h
      · rename_i r hr
        obtain ⟨rfl, he⟩ := ifMapped_some h
        refine ⟨he, ?_⟩
        have := HbSlot.index_ofIndex hr
        simp only [Loc.offset, highAt, decide_eq_true_eq]
        split <;> omega
      · cases h
    · split at h
      · split at h
        · rename_i t ht
          split at h
          · rename_i ho
            obtain ⟨rfl, he⟩ := ifMapped_some h
            refine ⟨⟨ho, he⟩, ?_⟩
            have := HbTable.index_ofIndex ht
            simp only [Loc.offset, hw]
            omega
          · cases h
        · cases h
      · split at h
        · split at h
          · rename_i ho
            obtain ⟨rfl, he⟩ := ifMapped_some h
            refine ⟨⟨ho.1, ho.2, he⟩, ?_⟩
            simp only [Loc.offset, hw]
            omega
          · cases h
        · split at h
          · split at h
            · rename_i ho
              obtain ⟨rfl, he⟩ := ifMapped_some h
              refine ⟨⟨ho, he⟩, ?_⟩
              simp only [Loc.offset, hw]
              omega
            · cases h
          · split at h
            · split at h
              · rename_i ho
                obtain ⟨rfl, he⟩ := ifMapped_some h
                refine ⟨⟨ho, he⟩, ?_⟩
                simp only [Loc.offset, hw]
                omega
              · cases h
            · split at h
              · split at h
                · rename_i ho
                  obtain ⟨rfl, he⟩ := ifMapped_some h
                  refine ⟨⟨ho, he⟩, ?_⟩
                  simp only [Loc.offset, hw]
                  omega
                · cases h
              · cases h

/-- The bounds of a legal build (00_scope.md R7). -/
theorem Build.legal_bounds {b : Build} (h : b.Legal) : b.nrom ≤ 65536 ∧ b.maxChannels ≤ 256 ∧ 1 ≤ b.maxChannels := by
  simp only [Build.Legal, Build.legal, Bool.and_eq_true, decide_eq_true_eq] at h
  obtain ⟨⟨⟨⟨⟨h1, h2⟩, h3⟩, -⟩, -⟩, -⟩ := h
  refine ⟨?_, h3, h2⟩
  calc b.nrom = 2 ^ b.log2Nrom := rfl
    _ ≤ 2 ^ 16 := Nat.pow_le_pow_right (by decide) h1

/-- Every word the map lists is found at its offset. -/
theorem locate_of_mapped {b : Build} (hb : b.Legal) {l : Loc} (h : l.mapped b) : locate b l.offset = some l := by
  obtain ⟨hn, hc, -⟩ := Build.legal_bounds hb
  cases l with
  | fftCmd => rfl
  | fftStatus => rfl
  | fftArg => rfl
  | fftMaxSize => rfl
  | fftParams => rfl
  | hbCmd => rfl
  | hbStatus => rfl
  | hbNchan => rfl
  | hbParams => rfl
  | hbChannels => rfl
  | hbSlot r high =>
    have hr := r.index_lt
    have hi := HbSlot.ofIndex_index r
    have hh : highAt (0x000120 + 8 * r.index + if high then 4 else 0) = high := by
      unfold highAt; cases high
      · simp
      · simp; omega
    have hlt : (if high = true then 4 else 0) < 8 := by cases high <;> decide
    have h4 : (if high = true then 4 else 0) % 4 = 0 := by cases high <;> decide
    simp only [Loc.offset]
    generalize (if high = true then 4 else 0) = w at *
    rw [locate, if_pos (by omega), locateAligned]
    repeat rw [if_neg (by omega)]
    rw [if_pos (by omega), show (0x000120 + 8 * r.index + w - 0x000120) / 8 = r.index by omega, hi]
    simp only [hh]
    exact ifMapped_of_exists _ h
  | table t i imag high =>
    obtain ⟨hi, he⟩ := h
    simp only [order] at hi
    have ht := t.index_lt
    have hto := HbTable.ofIndex_index t
    have hw := wordInElement_lt imag high
    have h1 := highAt_add (0x001000 + 0x100 * t.index + 16 * i) imag high (by omega)
    have h2 := imagAt_add (0x001000 + 0x100 * t.index + 16 * i) imag high (by omega)
    have h4 : wordInElement imag high % 4 = 0 := by cases imag <;> cases high <;> decide
    simp only [Loc.offset]
    generalize wordInElement imag high = w at *
    rw [locate, if_pos (by omega), locateAligned]
    repeat rw [if_neg (by omega)]
    rw [if_pos (by omega), show (0x001000 + 0x100 * t.index + 16 * i + w - 0x001000) / 0x100 = t.index by omega, hto]
    simp only [h1, h2]
    rw [show (0x001000 + 0x100 * t.index + 16 * i + w) % 256 / 16 = i by omega, if_pos (by simpa [order] using hi)]
    exact ifMapped_of_exists _ he
  | channel c i imag high =>
    obtain ⟨hcm, hi, he⟩ := h
    have hi' := hi
    simp only [order] at hi'
    have hw := wordInElement_lt imag high
    have h1 := highAt_add (0x010000 + 256 * c + 16 * i) imag high (by omega)
    have h2 := imagAt_add (0x010000 + 256 * c + 16 * i) imag high (by omega)
    have h4 : wordInElement imag high % 4 = 0 := by cases imag <;> cases high <;> decide
    simp only [Loc.offset]
    generalize wordInElement imag high = w at *
    rw [locate, if_pos (by omega), locateAligned]
    repeat rw [if_neg (by omega)]
    rw [if_pos (by omega), show (0x010000 + 256 * c + 16 * i + w - 0x010000) / 256 = c by omega,
      show (0x010000 + 256 * c + 16 * i + w) % 256 / 16 = i by omega, if_pos ⟨hcm, hi⟩, h1, h2]
    exact ifMapped_of_exists _ he
  | tw k imag high =>
    obtain ⟨hk, he⟩ := h
    have hw := wordInElement_lt imag high
    have h1 := highAt_add (0x080000 + 16 * k) imag high (by omega)
    have h2 := imagAt_add (0x080000 + 16 * k) imag high (by omega)
    have h4 : wordInElement imag high % 4 = 0 := by cases imag <;> cases high <;> decide
    simp only [Loc.offset]
    generalize wordInElement imag high = w at *
    rw [locate, if_pos (by omega), locateAligned]
    repeat rw [if_neg (by omega)]
    rw [if_pos (by omega), show (0x080000 + 16 * k + w - 0x080000) / 16 = k by omega, if_pos hk, h1, h2]
    exact ifMapped_of_exists _ he
  | fftIn k imag high =>
    obtain ⟨hk, he⟩ := h
    have hw := wordInElement_lt imag high
    have h1 := highAt_add (0x100000 + 16 * k) imag high (by omega)
    have h2 := imagAt_add (0x100000 + 16 * k) imag high (by omega)
    have h4 : wordInElement imag high % 4 = 0 := by cases imag <;> cases high <;> decide
    simp only [Loc.offset]
    generalize wordInElement imag high = w at *
    rw [locate, if_pos (by omega), locateAligned]
    repeat rw [if_neg (by omega)]
    rw [if_pos (by omega), show (0x100000 + 16 * k + w - 0x100000) / 16 = k by omega, if_pos hk, h1, h2]
    exact ifMapped_of_exists _ he
  | fftOut k imag high =>
    obtain ⟨hk, he⟩ := h
    have hw := wordInElement_lt imag high
    have h1 := highAt_add (0x200000 + 16 * k) imag high (by omega)
    have h2 := imagAt_add (0x200000 + 16 * k) imag high (by omega)
    have h4 : wordInElement imag high % 4 = 0 := by cases imag <;> cases high <;> decide
    simp only [Loc.offset]
    generalize wordInElement imag high = w at *
    rw [locate, if_pos (by omega), locateAligned]
    repeat rw [if_neg (by omega)]
    rw [if_pos (by omega), show (0x200000 + 16 * k + w - 0x200000) / 16 = k by omega, if_pos hk, h1, h2]
    exact ifMapped_of_exists _ he

/-- A listed word has an aligned offset inside the block. -/
theorem Loc.offset_lt {b : Build} (hb : b.Legal) {l : Loc} (h : l.mapped b) : l.offset < 2 ^ 22 ∧ l.offset % 4 = 0 := by
  have hl := locate_of_mapped hb h
  refine ⟨?_, (locate_some hl).2.2⟩
  by_contra hge
  rw [locate, if_pos (locate_some hl).2.2, locateAligned] at hl
  repeat rw [if_neg (by omega)] at hl
  cases hl

/-- Two listed words with one offset are one word. -/
theorem Loc.offset_injective {b : Build} (hb : b.Legal) {l l' : Loc} (h : l.mapped b) (h' : l'.mapped b)
    (he : l.offset = l'.offset) : l = l' := by
  have h1 := locate_of_mapped hb h
  rw [he, locate_of_mapped hb h'] at h1
  cases h1; rfl

/-! ## When a byte reads the same -/

/-- A byte reads the same in two states of one build whose word around it reads the same. -/
theorem byteAt_congr {s t : State} {x : Nat} (hb : t.build = s.build)
    (h : ∀ l, l.mapped s.build → l.offset ≤ x → x < l.offset + 4 → t.readLoc l = s.readLoc l) :
    t.byteAt x = s.byteAt x := by
  unfold State.byteAt
  rw [hb]
  cases hl : locate s.build (x - x % 4) with
  | none => rfl
  | some l =>
    have hs := locate_some hl
    simp only
    rw [h l hs.1 (by omega) (by omega)]

end Sys2Proof.Machine
end

