-- ==== Sys2Proof/Laws/Series.lean ====
section
/-! SUPPORT. The sums of Machine/Enclosure.lean bound the series they stand for: a list of integer bounds of terms gives bounds
of their sum, of their alternating sum, and of the real and imaginary parts of a power series at an imaginary number. A
bound `n` stands for `n / 2^q`. -/

namespace Sys2Proof.Machine

/-- `n` is at most `y`, and `y` at most `m`, at precision `q`. -/
def Within (q n m : Nat) (y : ℝ) : Prop := (n : ℝ) ≤ y * 2 ^ q ∧ y * 2 ^ q ≤ m

/-- `y` lies in an interval at precision `q`. -/
def Ival.Has (q : Nat) (b : Ival) (y : ℝ) : Prop := (b.lo : ℝ) ≤ y * 2 ^ q ∧ y * 2 ^ q ≤ b.hi

/-- The pairs bound `f 0`, `f 1`, … -/
def TermBounds (q : Nat) : (ℕ → ℝ) → List (Nat × Nat) → Prop
  | _, [] => True
  | f, t :: ts => Within q t.1 t.2 (f 0) ∧ TermBounds q (fun j => f (j + 1)) ts

theorem sumTerms_within (q : Nat) (f : ℕ → ℝ) (ts : List (Nat × Nat)) (h : TermBounds q f ts) :
    Within q (sumTerms ts).1 (sumTerms ts).2 (∑ j ∈ Finset.range ts.length, f j) := by
  induction ts generalizing f with
  | nil => simp [sumTerms, Within]
  | cons t ts ih =>
    have h2 := ih _ h.2
    have h1 := h.1
    simp only [sumTerms, List.length_cons, Finset.sum_range_succ', Within] at *
    push_cast
    constructor <;> nlinarith [h1.1, h1.2, h2.1, h2.2]

theorem lastHi_bound (q : Nat) (f : ℕ → ℝ) (ts : List (Nat × Nat)) (n : Nat) (hl : ts.length = n + 1)
    (h : TermBounds q f ts) : f n * 2 ^ q ≤ lastHi ts := by
  induction ts generalizing f n with
  | nil => simp at hl
  | cons t ts ih =>
    cases ts with
    | nil =>
      have : n = 0 := by simpa using hl.symm
      subst this
      exact h.1.2
    | cons u us =>
      cases n with
      | zero => simp at hl
      | succ n =>
        simp only [lastHi]
        exact ih _ n (by simpa using hl) h.2

/-- The parts of `∑ f j I^j`: `f 0 - f 2 + …` and `f 1 - f 3 + …`. -/
def trigSum : (ℕ → ℝ) → ℕ → ℝ × ℝ
  | _, 0 => (0, 0)
  | f, n + 1 => (f 0 - (trigSum (fun j => f (j + 1)) n).2, (trigSum (fun j => f (j + 1)) n).1)

theorem trigSum_complex (f : ℕ → ℝ) (n : ℕ) :
    ∑ j ∈ Finset.range n, (f j : ℂ) * Complex.I ^ j = (trigSum f n).1 + (trigSum f n).2 * Complex.I := by
  induction n generalizing f with
  | zero => simp [trigSum]
  | succ n ih =>
    rw [Finset.sum_range_succ']
    have h : ∑ j ∈ Finset.range n, (f (j + 1) : ℂ) * Complex.I ^ (j + 1) =
        Complex.I * ∑ j ∈ Finset.range n, (f (j + 1) : ℂ) * Complex.I ^ j := by
      rw [Finset.mul_sum]
      apply Finset.sum_congr rfl
      intro j _
      rw [pow_succ]; ring
    rw [h, ih (fun j => f (j + 1))]
    simp only [trigSum, pow_zero, mul_one, Complex.ofReal_sub]
    have : Complex.I * Complex.I = -1 := Complex.I_mul_I
    linear_combination ((trigSum (fun j => f (j + 1)) n).2 : ℂ) * this

theorem Ival.has_sub {q : Nat} {a b : Ival} {x y : ℝ} (ha : a.Has q x) (hb : b.Has q y) : (a.sub b).Has q (x - y) := by
  simp only [Ival.Has, Ival.sub] at *
  push_cast
  constructor <;> nlinarith [ha.1, ha.2, hb.1, hb.2]

theorem Ival.has_neg {q : Nat} {a : Ival} {x : ℝ} (ha : a.Has q x) : a.neg.Has q (-x) := by
  simp only [Ival.Has, Ival.neg] at *
  push_cast
  constructor <;> linarith [ha.1, ha.2]

/-- A number at most `w` away lies in the widened interval. -/
theorem Ival.has_widen {q : Nat} {a : Ival} {x y : ℝ} (w : Nat) (ha : a.Has q x) (h : |y - x| * 2 ^ q ≤ w) :
    (a.widen w).Has q y := by
  have hp : (0 : ℝ) < 2 ^ q := by positivity
  have h2 : |(y - x) * 2 ^ q| ≤ w := by rw [abs_mul, abs_of_pos hp]; exact h
  rw [abs_le] at h2
  simp only [Ival.Has, Ival.widen] at *
  push_cast
  constructor <;> linarith [ha.1, ha.2, h2.1, h2.2]

theorem Ival.has_of_within {q n m : Nat} {y : ℝ} (h : Within q n m y) : (⟨n, m⟩ : Ival).Has q y := by
  simpa [Ival.Has, Within] using h

theorem sumTrig_has (q : Nat) (f : ℕ → ℝ) (ts : List (Nat × Nat)) (h : TermBounds q f ts) :
    (sumTrig ts).1.Has q (trigSum f ts.length).1 ∧ (sumTrig ts).2.Has q (trigSum f ts.length).2 := by
  induction ts generalizing f with
  | nil => simp [sumTrig, trigSum, Ival.Has]
  | cons t ts ih =>
    have h2 := ih _ h.2
    exact ⟨Ival.has_sub (Ival.has_of_within h.1) h2.2, h2.1⟩

/-- `f 0 - f 1 + f 2 - …` -/
def altSum : (ℕ → ℝ) → ℕ → ℝ
  | _, 0 => 0
  | f, n + 1 => f 0 - altSum (fun j => f (j + 1)) n

theorem altSum_eq (f : ℕ → ℝ) (n : ℕ) : altSum f n = ∑ j ∈ Finset.range n, (-1) ^ j * f j := by
  induction n generalizing f with
  | zero => simp [altSum]
  | succ n ih =>
    rw [altSum, ih, Finset.sum_range_succ']
    simp only [pow_zero, one_mul, pow_succ]
    rw [sub_eq_add_neg, add_comm, ← Finset.sum_neg_distrib]
    congr 1
    apply Finset.sum_congr rfl
    intro j _; ring

theorem sumAlternating_has (q : Nat) (f : ℕ → ℝ) (ts : List (Nat × Nat)) (h : TermBounds q f ts) :
    (sumAlternating ts).Has q (altSum f ts.length) := by
  induction ts generalizing f with
  | nil => simp [sumAlternating, altSum, Ival.Has]
  | cons t ts ih => exact Ival.has_sub (Ival.has_of_within h.1) (ih _ h.2)

/-! ## The terms of the exponential series -/

/-- The terms of the exponential series at `t`, from the `k`-th on. -/
noncomputable def expTerm (t : ℝ) (k j : ℕ) : ℝ := t ^ (k + j) / (k + j).factorial

theorem taylorTerms_length (one x n k lo hi : Nat) : (taylorTerms one x n k lo hi).length = n + 1 := by
  induction n generalizing k lo hi with
  | zero => rfl
  | succ n ih => simp [taylorTerms, ih]

theorem nat_div_le (a b : Nat) : ((a / b : Nat) : ℝ) ≤ (a : ℝ) / b := Nat.cast_div_le

theorem le_nat_div_succ (a b : Nat) (hb : 0 < b) : (a : ℝ) / b ≤ ((a / b + 1 : Nat) : ℝ) := by
  rw [div_le_iff₀ (by exact_mod_cast hb)]
  have := Nat.div_add_mod a b
  have h2 := Nat.mod_lt a hb
  have : a ≤ (a / b + 1) * b := by rw [Nat.add_mul, Nat.mul_comm (a / b) b]; omega
  exact_mod_cast this

theorem taylorTerms_bounds (q x n k lo hi : Nat) (h : Within q lo hi (expTerm (x / 2 ^ q) k 0)) :
    TermBounds q (expTerm (x / 2 ^ q) k) (taylorTerms (2 ^ q) x n k lo hi) := by
  induction n generalizing k lo hi with
  | zero => exact ⟨h, trivial⟩
  | succ n ih =>
    refine ⟨h, ?_⟩
    have hs : (fun j => expTerm (x / 2 ^ q) k (j + 1)) = expTerm (x / 2 ^ q) (k + 1) := by
      funext j; simp only [expTerm]; rw [show k + (j + 1) = k + 1 + j by omega]
    rw [hs]
    apply ih
    have e : expTerm (x / 2 ^ q) (k + 1) 0 * 2 ^ q =
        expTerm (x / 2 ^ q) k 0 * 2 ^ q * x / ((2 ^ q * (k + 1) : Nat) : ℝ) := by
      have h2 : (2 : ℝ) ^ q ≠ 0 := by positivity
      have h3 : ((k : ℝ) + 1) ≠ 0 := by positivity
      simp only [expTerm, Nat.add_zero, pow_succ, Nat.factorial_succ]
      push_cast
      field_simp
    have hd : (0 : ℝ) < ((2 ^ q * (k + 1) : Nat) : ℝ) := by positivity
    have hx : (0 : ℝ) ≤ x := by positivity
    constructor
    · rw [e]
      refine le_trans (nat_div_le _ _) ?_
      push_cast
      apply div_le_div_of_nonneg_right _ (by positivity)
      exact mul_le_mul_of_nonneg_right h.1 hx
    · rw [e]
      refine le_trans ?_ (le_nat_div_succ _ _ (by positivity))
      push_cast
      apply div_le_div_of_nonneg_right _ (by positivity)
      exact mul_le_mul_of_nonneg_right h.2 hx

theorem expTerms_bounds (q x : Nat) : TermBounds q (expTerm (x / 2 ^ q) 0) (expTerms q x) := by
  apply taylorTerms_bounds
  simp [Within, expTerm]

theorem expTerms_length (q x : Nat) : (expTerms q x).length = termCount q + 1 := taylorTerms_length _ _ _ _ _ _

end Sys2Proof.Machine
end

