-- ==== Sys2Proof/Laws/Enclosure.lean ====
section
/-! SUPPORT. The enclosures of Machine/Enclosure.lean are bounds of the exponential, the cosine, the sine, the arctangent and
π that they stand for. -/

namespace Sys2Proof.Machine

theorem Within.mono {q n m n' m' : Nat} {y : ℝ} (h : Within q n m y) (h1 : n' ≤ n) (h2 : m ≤ m') : Within q n' m' y :=
  ⟨le_trans (by exact_mod_cast h1) h.1, le_trans h.2 (by exact_mod_cast h2)⟩

theorem termCount_ge (q : Nat) : 8 ≤ termCount q := Nat.le_add_left _ _

/-! ## The exponential -/

/-- The next term of the series is no larger than the last one taken, times what the remainder bound needs. -/
theorem expTerm_succ (t : ℝ) (n : ℕ) : t ^ (n + 1) / (n + 1).factorial = expTerm t 0 n * (t / (n + 1)) := by
  have : ((n : ℝ) + 1) ≠ 0 := by positivity
  simp only [expTerm, Nat.zero_add, pow_succ, Nat.factorial_succ]
  push_cast
  field_simp

theorem exp_near_sum (t : ℝ) (h0 : 0 ≤ t) (h1 : t ≤ 1) (n : ℕ) (hn : 1 ≤ n) :
    (∑ j ∈ Finset.range (n + 1), expTerm t 0 j) ≤ Real.exp t ∧
      Real.exp t ≤ (∑ j ∈ Finset.range (n + 1), expTerm t 0 j) + expTerm t 0 n := by
  have hs : (∑ j ∈ Finset.range (n + 1), expTerm t 0 j) = ∑ j ∈ Finset.range (n + 1), t ^ j / j.factorial := by
    apply Finset.sum_congr rfl
    intro j _; simp [expTerm]
  rw [hs]
  refine ⟨Real.sum_le_exp_of_nonneg h0 _, ?_⟩
  have h := Real.exp_bound (x := t) (by rw [abs_of_nonneg h0]; exact h1) (n := n + 1) (by omega)
  rw [abs_of_nonneg h0] at h
  have h2 := (abs_le.1 h).2
  have hb : t ^ (n + 1) * (((n + 1).succ : ℕ) / (((n + 1).factorial : ℕ) * ((n + 1 : ℕ) : ℝ)) : ℝ) ≤ expTerm t 0 n := by
    have e := expTerm_succ t n
    have hp : (0 : ℝ) ≤ expTerm t 0 n := by simp only [expTerm]; positivity
    have hn' : (0 : ℝ) < (n : ℝ) + 1 := by positivity
    have hf : ((n + 1).factorial : ℝ) ≠ 0 := by positivity
    calc t ^ (n + 1) * (((n + 1).succ : ℕ) / (((n + 1).factorial : ℕ) * ((n + 1 : ℕ) : ℝ)) : ℝ)
        = (t ^ (n + 1) / (n + 1).factorial) * (((n : ℝ) + 2) / (n + 1)) := by
          rw [Nat.succ_eq_add_one]; push_cast; field_simp; ring
      _ = expTerm t 0 n * (t / (n + 1) * (((n : ℝ) + 2) / (n + 1))) := by rw [e]; ring
      _ ≤ expTerm t 0 n * 1 := by
          apply mul_le_mul_of_nonneg_left _ hp
          rw [div_mul_div_comm, div_le_one (by positivity)]
          have : (1 : ℝ) ≤ n := by exact_mod_cast hn
          nlinarith
      _ = expTerm t 0 n := mul_one _
  linarith

/-- `expSmall` bounds the exponential. -/
theorem expSmall_within (q x : Nat) (r : ℝ) (hx : x ≤ 2 ^ q) (h1 : (x : ℝ) / 2 ^ q ≤ r) (h2 : r ≤ ((x : ℝ) + 1) / 2 ^ q) :
    Within q (expSmall q x).1 (expSmall q x).2 (Real.exp r) := by
  have hp : (0 : ℝ) < 2 ^ q := by positivity
  have hp1 : (1 : ℝ) ≤ 2 ^ q := one_le_pow₀ (by norm_num)
  have ht0 : (0 : ℝ) ≤ (x : ℝ) / 2 ^ q := by positivity
  have ht1 : (x : ℝ) / 2 ^ q ≤ 1 := by rw [div_le_one hp]; exact_mod_cast hx
  have hb := expTerms_bounds q x
  have hl := expTerms_length q x
  have hs := sumTerms_within q _ _ hb
  have hlast := lastHi_bound q _ _ _ hl hb
  rw [hl] at hs
  have hn := exp_near_sum _ ht0 ht1 (termCount q) (by have := termCount_ge q; omega)
  rw [add_div] at h2
  generalize (x : ℝ) / 2 ^ q = t at *
  -- from t to r
  have hmono : Real.exp t ≤ Real.exp r := Real.exp_le_exp.2 h1
  have hstep : Real.exp r * 2 ^ q ≤ Real.exp t * 2 ^ q + 8 := by
    have hrt : r - t ≤ 1 / 2 ^ q := by linarith
    have hone : (1 : ℝ) / 2 ^ q ≤ 1 := by rw [div_le_one hp]; exact hp1
    have hr2 : Real.exp r ≤ 8 := by
      have : Real.exp r ≤ Real.exp 2 := Real.exp_le_exp.2 (by linarith)
      have he : Real.exp 2 = Real.exp 1 * Real.exp 1 := by rw [← Real.exp_add]; norm_num
      have := Real.exp_one_lt_d9
      have := Real.exp_pos 1
      nlinarith
    have hd : Real.exp r - Real.exp t ≤ Real.exp r * (r - t) := by
      have := Real.add_one_le_exp (t - r)
      have e : Real.exp t = Real.exp r * Real.exp (t - r) := by rw [← Real.exp_add]; ring_nf
      have := Real.exp_pos r
      nlinarith
    have : Real.exp r * (r - t) * 2 ^ q ≤ 8 := by
      have h3 : (r - t) * 2 ^ q ≤ 1 := by
        calc (r - t) * 2 ^ q ≤ 1 / 2 ^ q * 2 ^ q := mul_le_mul_of_nonneg_right hrt hp.le
          _ = 1 := by field_simp
      have h4 : 0 ≤ (r - t) * 2 ^ q := mul_nonneg (by linarith) hp.le
      have := Real.exp_pos r
      nlinarith
    nlinarith
  constructor
  · exact le_trans hs.1 (mul_le_mul_of_nonneg_right (le_trans hn.1 hmono) hp.le)
  · simp only [expSmall]
    push_cast
    have := mul_le_mul_of_nonneg_right hn.2 hp.le
    rw [add_mul] at this
    linarith [hs.2]

theorem squareBounds_within (q : Nat) (b : Nat × Nat) (y : ℝ) (h : Within q b.1 b.2 y) :
    Within q (squareBounds q b).1 (squareBounds q b).2 (y * y) := by
  have hp : (0 : ℝ) < 2 ^ q := by positivity
  have hpc : (((2 : Nat) ^ q : Nat) : ℝ) = 2 ^ q := by push_cast; rfl
  constructor
  · refine le_trans (nat_div_le _ _) ?_
    rw [hpc, div_le_iff₀ hp]
    push_cast
    nlinarith [h.1, h.2, Nat.cast_nonneg (α := ℝ) b.1]
  · refine le_trans ?_ (le_nat_div_succ _ _ (by positivity))
    rw [hpc, le_div_iff₀ hp]
    push_cast
    nlinarith [h.1, h.2, Nat.cast_nonneg (α := ℝ) b.1]

theorem squareTimes_within (q n : Nat) (b : Nat × Nat) (y : ℝ) (h0 : 0 ≤ y) (h : Within q b.1 b.2 y) :
    Within q (squareTimes q n b).1 (squareTimes q n b).2 (y ^ 2 ^ n) := by
  induction n generalizing b y with
  | zero => simpa [squareTimes] using h
  | succ n ih =>
    rw [squareTimes, pow_succ, pow_mul']
    have := ih (squareBounds q b) (y * y) (mul_nonneg h0 h0) (squareBounds_within q b y h)
    rwa [show (y ^ 2) ^ 2 ^ n = (y * y) ^ 2 ^ n by rw [sq]]

/-- e^2048 is above 2^2800. -/
theorem two_pow_le_exp : (2 : ℝ) ^ 2800 ≤ Real.exp 2048 := by
  have h1 : (2.7 : ℝ) ≤ Real.exp 1 := by have := Real.exp_one_gt_d9; linarith
  have h2 : Real.exp 2048 = (Real.exp 1 ^ 128) ^ 16 := by
    rw [← pow_mul, ← Real.exp_nat_mul]; norm_num
  have h3 : (2 : ℝ) ^ 175 ≤ Real.exp 1 ^ 128 := by
    refine le_trans ?_ (pow_le_pow_left₀ (by norm_num) h1 128)
    norm_num
  rw [h2, show 2800 = 175 * 16 from rfl, pow_mul]
  exact pow_le_pow_left₀ (by positivity) h3 16

/-- `expBounds` bounds the exponential of `m / 2^unit`. -/
theorem expBounds_bounds (q unit m : Nat) :
    ((expBounds q unit m).1 : ℝ) ≤ Real.exp ((m : ℝ) / 2 ^ unit) * 2 ^ q ∧
      ∀ hi, (expBounds q unit m).2 = some hi → Real.exp ((m : ℝ) / 2 ^ unit) * 2 ^ q ≤ hi := by
  have hp : (0 : ℝ) < 2 ^ q := by positivity
  unfold expBounds
  split
  · rename_i hm
    have hx : (m <<< q) >>> (unit + 11) ≤ 2 ^ q := by
      rw [Nat.shiftLeft_eq, Nat.shiftRight_eq_div_pow]
      apply Nat.le_of_lt_succ
      rw [Nat.div_lt_iff_lt_mul (by positivity)]
      nlinarith [Nat.pos_of_ne_zero (pow_ne_zero q (two_ne_zero : (2 : Nat) ≠ 0))]
    have hU : (0 : ℝ) < ((2 ^ (unit + 11) : Nat) : ℝ) := by positivity
    have e : (m : ℝ) / 2 ^ (unit + 11) * 2 ^ q = ((m * 2 ^ q : Nat) : ℝ) / ((2 ^ (unit + 11) : Nat) : ℝ) := by
      push_cast; ring
    have h := expSmall_within q _ ((m : ℝ) / 2 ^ (unit + 11)) hx
      (by
        rw [div_le_iff₀ hp, e, Nat.shiftLeft_eq, Nat.shiftRight_eq_div_pow]
        exact nat_div_le _ _)
      (by
        rw [le_div_iff₀ hp, e, Nat.shiftLeft_eq, Nat.shiftRight_eq_div_pow]
        have := le_nat_div_succ (m * 2 ^ q) (2 ^ (unit + 11)) (by positivity)
        push_cast at this ⊢
        exact this)
    have h2 := squareTimes_within q 11 _ _ (Real.exp_pos _).le h
    rw [← Real.exp_nat_mul] at h2
    rw [show ((2 ^ 11 : Nat) : ℝ) * ((m : ℝ) / 2 ^ (unit + 11)) = (m : ℝ) / 2 ^ unit by
      rw [pow_add]; push_cast; field_simp; norm_num; ring] at h2
    refine ⟨h2.1, ?_⟩
    intro hi hh
    cases hh
    exact h2.2
  · rename_i hm
    refine ⟨?_, fun hi hh => by cases hh⟩
    rw [Nat.cast_pow, Nat.cast_ofNat, Nat.add_comm, pow_add]
    apply mul_le_mul_of_nonneg_right _ hp.le
    refine le_trans two_pow_le_exp (Real.exp_le_exp.2 ?_)
    rw [le_div_iff₀ (by positivity)]
    have : 2 ^ (unit + 11) ≤ m := by omega
    have : (2 : ℝ) ^ (unit + 11) ≤ m := by exact_mod_cast this
    rw [pow_add] at this
    norm_num at this ⊢
    linarith

/-- The lower bound of an exponential of a nonnegative number is at least 1. -/
theorem expBounds_ge (q unit m : Nat) : 2 ^ q ≤ (expBounds q unit m).1 := by
  unfold expBounds
  split
  · have h1 : ∀ x, 2 ^ q ≤ (expSmall q x).1 := by
      intro x
      simp only [expSmall, expTerms]
      generalize termCount q = n
      cases n with
      | zero => simp [taylorTerms, sumTerms]
      | succ n => simp only [taylorTerms, sumTerms]; omega
    have h2 : ∀ (n : Nat) (b : Nat × Nat), 2 ^ q ≤ b.1 → 2 ^ q ≤ (squareTimes q n b).1 := by
      intro n
      induction n with
      | zero => intro b h; exact h
      | succ n ih =>
        intro b h
        refine ih _ ?_
        simp only [squareBounds]
        rw [Nat.le_div_iff_mul_le (by positivity)]
        exact Nat.mul_le_mul h h
    exact h2 11 _ (h1 _)
  · exact Nat.pow_le_pow_right (by decide) (Nat.le_add_right _ _)

/-! ## The cosine and the sine -/

theorem cos_sin_near_sum (t : ℝ) (h0 : 0 ≤ t) (h2 : t ≤ 2) (n : ℕ) (hn : 4 ≤ n) :
    |Real.cos t - (trigSum (expTerm t 0) (n + 1)).1| ≤ expTerm t 0 n ∧
      |Real.sin t - (trigSum (expTerm t 0) (n + 1)).2| ≤ expTerm t 0 n := by
  have hn' : (4 : ℝ) ≤ n := by exact_mod_cast hn
  have hnorm : ‖(t : ℂ) * Complex.I‖ = t := by
    rw [norm_mul, Complex.norm_I, mul_one, Complex.norm_real, Real.norm_eq_abs, abs_of_nonneg h0]
  have hb := Complex.exp_bound' (x := (t : ℂ) * Complex.I) (n := n + 1) (by
    rw [hnorm, div_le_iff₀ (by positivity)]
    push_cast
    linarith)
  rw [hnorm] at hb
  have hs : ∑ m ∈ Finset.range (n + 1), ((t : ℂ) * Complex.I) ^ m / (m.factorial : ℂ) =
      (trigSum (expTerm t 0) (n + 1)).1 + (trigSum (expTerm t 0) (n + 1)).2 * Complex.I := by
    rw [← trigSum_complex]
    apply Finset.sum_congr rfl
    intro j _
    rw [mul_pow]
    simp only [expTerm, Nat.zero_add]
    push_cast
    ring
  rw [hs, Complex.exp_mul_I] at hb
  have hle : t ^ (n + 1) / (n + 1).factorial * 2 ≤ expTerm t 0 n := by
    rw [expTerm_succ]
    have hp : (0 : ℝ) ≤ expTerm t 0 n := by simp only [expTerm]; positivity
    have : t / (n + 1) ≤ 1 / 2 := by
      rw [div_le_iff₀ (by positivity)]; linarith
    nlinarith
  have hb2 := le_trans hb hle
  generalize trigSum (expTerm t 0) (n + 1) = c at *
  have hre : (Complex.cos (t : ℂ) + Complex.sin (t : ℂ) * Complex.I - ((c.1 : ℂ) + (c.2 : ℂ) * Complex.I)).re = Real.cos t - c.1 := by
    simp [← Complex.ofReal_cos, ← Complex.ofReal_sin]
  have him : (Complex.cos (t : ℂ) + Complex.sin (t : ℂ) * Complex.I - ((c.1 : ℂ) + (c.2 : ℂ) * Complex.I)).im = Real.sin t - c.2 := by
    simp [← Complex.ofReal_cos, ← Complex.ofReal_sin]
  constructor
  · rw [← hre]; exact le_trans (Complex.abs_re_le_norm _) hb2
  · rw [← him]; exact le_trans (Complex.abs_im_le_norm _) hb2

/-- `cosSinBounds` bounds the cosine and the sine. -/
theorem cosSinBounds_has (q x w : Nat) (r : ℝ) (hx : x ≤ 2 * 2 ^ q) (h1 : (x : ℝ) / 2 ^ q ≤ r)
    (h2 : r ≤ ((x : ℝ) + w) / 2 ^ q) :
    (cosSinBounds q x w).1.Has q (Real.cos r) ∧ (cosSinBounds q x w).2.Has q (Real.sin r) := by
  have hp : (0 : ℝ) < 2 ^ q := by positivity
  have ht0 : (0 : ℝ) ≤ (x : ℝ) / 2 ^ q := by positivity
  have ht2 : (x : ℝ) / 2 ^ q ≤ 2 := by rw [div_le_iff₀ hp]; exact_mod_cast hx
  have hb := expTerms_bounds q x
  have hl := expTerms_length q x
  have hs := sumTrig_has q _ _ hb
  have hlast := lastHi_bound q _ _ _ hl hb
  rw [hl] at hs
  have hn := cos_sin_near_sum _ ht0 ht2 (termCount q) (by have := termCount_ge q; omega)
  rw [add_div] at h2
  generalize (x : ℝ) / 2 ^ q = t at *
  have hrt : |r - t| * 2 ^ q ≤ w := by
    rw [abs_of_nonneg (by linarith)]
    calc (r - t) * 2 ^ q ≤ (w : ℝ) / 2 ^ q * 2 ^ q := mul_le_mul_of_nonneg_right (by linarith) hp.le
      _ = w := by field_simp
  have hc : |Real.cos r - Real.cos t| ≤ |r - t| := by
    have := Real.abs_cos_sub_cos_le r t
    exact this
  have hsn : |Real.sin r - Real.sin t| ≤ |r - t| := by
    have := Real.abs_sin_sub_sin_le r t
    exact this
  have fin : ∀ u v z : ℝ, |u - v| ≤ |r - t| → |v - z| ≤ expTerm t 0 (termCount q) →
      |u - z| * 2 ^ q ≤ ((lastHi (expTerms q x) + w : Nat) : ℝ) := by
    intro u v z h3 h4
    have h5 : |u - z| ≤ |r - t| + expTerm t 0 (termCount q) := by
      have := abs_sub_le u v z
      linarith
    push_cast
    have := mul_le_mul_of_nonneg_right h5 hp.le
    rw [add_mul] at this
    linarith
  exact ⟨Ival.has_widen _ hs.1 (fin _ _ _ hc hn.1), Ival.has_widen _ hs.2 (fin _ _ _ hsn hn.2)⟩

end Sys2Proof.Machine
end

