-- ==== Sys2Proof/Laws/Angle.lean ====
section
/-! SUPPORT. π by Machin's formula, and the reduction of an angle to whole quarter turns and a rest: what Machine/Enclosure.lean
answers for them are bounds. -/

namespace Sys2Proof.Machine

/-! ## The arctangent and π -/

/-- The terms of the series of `arctan (1/n)`, from the `k`-th on. -/
noncomputable def arctanTerm (n : ℝ) (k j : ℕ) : ℝ := 1 / (n ^ (2 * (k + j) + 1) * (2 * (k + j) + 1))

theorem arctanTerms_length (n count k lo hi : Nat) : (arctanTerms n count k lo hi).length = count + 1 := by
  induction count generalizing k lo hi with
  | zero => rfl
  | succ c ih => simp [arctanTerms, ih]

theorem arctanTerms_bounds (q n count k lo hi : Nat) (hn : 0 < n)
    (h : Within q lo hi (1 / (n : ℝ) ^ (2 * k + 1))) :
    TermBounds q (arctanTerm n k) (arctanTerms n count k lo hi) := by
  have hn' : (0 : ℝ) < n := by exact_mod_cast hn
  have first : ∀ k lo hi : Nat, Within q lo hi (1 / (n : ℝ) ^ (2 * k + 1)) →
      Within q (lo / (2 * k + 1)) (hi / (2 * k + 1) + 1) (arctanTerm n k 0) := by
    intro k lo hi h
    have hk : (0 : ℝ) < ((2 * k + 1 : Nat) : ℝ) := by positivity
    have e : arctanTerm n k 0 * 2 ^ q = (1 / (n : ℝ) ^ (2 * k + 1)) * 2 ^ q / ((2 * k + 1 : Nat) : ℝ) := by
      simp only [arctanTerm]; push_cast; field_simp; simp
    constructor
    · rw [e]
      refine le_trans (nat_div_le _ _) ?_
      exact div_le_div_of_nonneg_right h.1 hk.le
    · rw [e]
      refine le_trans ?_ (le_nat_div_succ _ _ (by positivity))
      exact div_le_div_of_nonneg_right h.2 hk.le
  induction count generalizing k lo hi with
  | zero => exact ⟨first k lo hi h, trivial⟩
  | succ c ih =>
    refine ⟨first k lo hi h, ?_⟩
    have hs : (fun j => arctanTerm n k (j + 1)) = arctanTerm n (k + 1) := by
      funext j; simp only [arctanTerm]; push_cast
      rw [show k + (j + 1) = k + 1 + j by omega]; ring_nf
    rw [hs]
    apply ih
    have hnn : (0 : ℝ) < ((n * n : Nat) : ℝ) := by positivity
    have e : 1 / (n : ℝ) ^ (2 * (k + 1) + 1) * 2 ^ q = (1 / (n : ℝ) ^ (2 * k + 1)) * 2 ^ q / ((n * n : Nat) : ℝ) := by
      push_cast
      rw [show 2 * (k + 1) + 1 = 2 * k + 1 + 2 by ring, pow_add]
      field_simp
    constructor
    · rw [e]
      refine le_trans (nat_div_le _ _) ?_
      exact div_le_div_of_nonneg_right h.1 hnn.le
    · rw [e]
      refine le_trans ?_ (le_nat_div_succ _ _ (by positivity))
      exact div_le_div_of_nonneg_right h.2 hnn.le

/-- The partial sums of an alternating series with shrinking terms are within the last term of the limit. -/
theorem altSum_near (f : ℕ → ℝ) (l : ℝ) (hf : Antitone f) (hl : Filter.Tendsto (fun n => altSum f n) Filter.atTop (nhds l))
    (n : ℕ) : |l - altSum f (n + 1)| ≤ f n := by
  have hl' : Filter.Tendsto (fun n => ∑ i ∈ Finset.range n, (-1) ^ i * f i) Filter.atTop (nhds l) := by
    simpa only [altSum_eq] using hl
  have e : altSum f (n + 1) = altSum f n + (-1) ^ n * f n := by
    rw [altSum_eq, altSum_eq, Finset.sum_range_succ]
  obtain ⟨k, rfl | rfl⟩ := Nat.even_or_odd' n
  · have h1 := hf.alternating_series_le_tendsto hl' k
    have h2 := hf.tendsto_le_alternating_series hl' k
    rw [← altSum_eq] at h1 h2
    rw [e, pow_mul] at h2 ⊢
    norm_num at h2 ⊢
    rw [abs_le]; constructor <;> linarith
  · have h1 := hf.alternating_series_le_tendsto hl' (k + 1)
    have h2 := hf.tendsto_le_alternating_series hl' k
    rw [← altSum_eq] at h1 h2
    rw [show 2 * (k + 1) = 2 * k + 1 + 1 by ring] at h1
    rw [e, pow_succ, pow_mul] at h1 ⊢
    norm_num at h1 ⊢
    rw [abs_le]; constructor <;> linarith

/-- `arctanBounds` bounds the arctangent. -/
theorem arctanBounds_has (q n : Nat) (hn : 2 ≤ n) : (arctanBounds q n).Has q (Real.arctan ((n : ℝ)⁻¹)) := by
  have hn' : (2 : ℝ) ≤ n := by exact_mod_cast hn
  have hp : (0 : ℝ) < 2 ^ q := by positivity
  have hb := arctanTerms_bounds q n (termCount q) 0 (2 ^ q / n) (2 ^ q / n + 1) (by omega) (by
    constructor
    · refine le_trans (nat_div_le _ _) ?_
      push_cast; apply le_of_eq; ring
    · refine le_trans ?_ (le_nat_div_succ _ _ (by omega))
      push_cast; apply le_of_eq; ring)
  have hl := arctanTerms_length n (termCount q) 0 (2 ^ q / n) (2 ^ q / n + 1)
  have hs := sumAlternating_has q _ _ hb
  have hlast := lastHi_bound q _ _ _ hl hb
  rw [hl] at hs
  have hanti : Antitone (arctanTerm n 0) := by
    apply antitone_nat_of_succ_le
    intro j
    simp only [arctanTerm]
    push_cast
    apply one_div_le_one_div_of_le (by positivity)
    have hpw : (n : ℝ) ^ (2 * (0 + j) + 1) ≤ (n : ℝ) ^ (2 * (0 + (j + 1)) + 1) :=
      pow_le_pow_right₀ (by linarith) (by omega)
    have : (0 : ℝ) ≤ (n : ℝ) ^ (2 * (0 + j) + 1) := by positivity
    nlinarith [Nat.cast_nonneg (α := ℝ) j]
  have htend : Filter.Tendsto (fun m => altSum (arctanTerm n 0) m) Filter.atTop (nhds (Real.arctan ((n : ℝ)⁻¹))) := by
    have h := (Real.hasSum_arctan (x := ((n : ℝ)⁻¹)) (by
      rw [Real.norm_eq_abs, abs_of_pos (by positivity)]
      exact inv_lt_one_of_one_lt₀ (by linarith))).tendsto_sum_nat
    refine h.congr fun m => ?_
    rw [altSum_eq]
    apply Finset.sum_congr rfl
    intro j _
    simp only [arctanTerm]
    push_cast
    rw [zero_add, inv_pow]
    field_simp
    simp
  have hnear := altSum_near _ _ hanti htend (termCount q)
  refine Ival.has_widen _ hs ?_
  exact le_trans (mul_le_mul_of_nonneg_right hnear hp.le) hlast

/-- `piBounds` bounds π. -/
theorem piBounds_has (q : Nat) : (piBounds q).Has q Real.pi := by
  have h5 := arctanBounds_has q 5 (by decide)
  have h239 := arctanBounds_has q 239 (by decide)
  have e := Real.four_mul_arctan_inv_5_sub_arctan_inv_239
  push_cast at h5 h239
  have hpi : Real.pi = 16 * Real.arctan (5 : ℝ)⁻¹ - 4 * Real.arctan (239 : ℝ)⁻¹ := by linarith
  simp only [Ival.Has, piBounds] at *
  rw [hpi]
  push_cast
  constructor
  · have := h5.1; have := h239.2; nlinarith
  · have := h5.2; have := h239.1; nlinarith

/-! ## Quarter turns -/

/-- The angle `θ` is whole quarter turns and a rest between the bounds. -/
def Reduced.Has (q : Nat) (r : Reduced) (θ : ℝ) : Prop :=
  (r.lo : ℝ) / 2 ^ q ≤ θ - r.quarters * (Real.pi / 2) ∧
    θ - r.quarters * (Real.pi / 2) ≤ ((r.lo : ℝ) + r.width) / 2 ^ q

theorem toNat_le (z : Int) (y : ℝ) (h0 : 0 ≤ y) (h : (z : ℝ) ≤ y) : ((z.toNat : Nat) : ℝ) ≤ y := by
  rcases le_or_gt 0 z with hz | hz
  · have : ((z.toNat : Nat) : ℝ) = (z : ℝ) := by exact_mod_cast congrArg (Int.cast (R := ℝ)) (Int.toNat_of_nonneg hz)
    rw [this]; exact h
  · rw [Int.toNat_of_nonpos hz.le]; simpa using h0

theorem le_toNat (z : Int) (y : ℝ) (h : y ≤ (z : ℝ)) : y ≤ ((z.toNat : Nat) : ℝ) := by
  refine le_trans h ?_
  exact_mod_cast Int.self_le_toNat z

theorem int_div_le (a : Int) (b : Nat) (hb : 0 < b) : ((a / (b : Int) : Int) : ℝ) ≤ (a : ℝ) / b := by
  rw [le_div_iff₀ (by exact_mod_cast hb)]
  exact_mod_cast Int.ediv_mul_le a (by exact_mod_cast hb.ne')

theorem le_int_div_succ (a : Int) (b : Nat) (hb : 0 < b) : (a : ℝ) / b ≤ ((a / (b : Int) + 1 : Int) : ℝ) := by
  rw [div_le_iff₀ (by exact_mod_cast hb)]
  have := Int.lt_ediv_add_one_mul_self a (by exact_mod_cast hb : (0 : Int) < b)
  exact_mod_cast this.le

theorem reduceAngle_has (q unit m : Nat) : (reduceAngle q unit m).Has q ((m : ℝ) / 2 ^ unit) := by
  have hp : (0 : ℝ) < 2 ^ q := by positivity
  have hU : (0 : ℝ) < ((2 ^ unit : Nat) : ℝ) := by positivity
  have hpi := piBounds_has q
  have hpos := Real.pi_pos
  have e : (m : ℝ) / 2 ^ unit * 2 ^ q = ((m * 2 ^ q : Nat) : ℝ) / ((2 ^ unit : Nat) : ℝ) := by push_cast; ring
  have x1 : (((m <<< q) >>> unit : Nat) : ℝ) ≤ (m : ℝ) / 2 ^ unit * 2 ^ q := by
    rw [e, Nat.shiftLeft_eq, Nat.shiftRight_eq_div_pow]; exact nat_div_le _ _
  have x2 : (m : ℝ) / 2 ^ unit * 2 ^ q ≤ (((m <<< q) >>> unit : Nat) : ℝ) + 1 := by
    rw [e, Nat.shiftLeft_eq, Nat.shiftRight_eq_div_pow]
    have := le_nat_div_succ (m * 2 ^ q) (2 ^ unit) (by positivity)
    push_cast at this ⊢; exact this
  unfold reduceAngle
  split
  · simp only [Reduced.Has]
    push_cast
    rw [zero_mul, sub_zero, div_le_iff₀ hp, le_div_iff₀ hp]
    exact ⟨x1, x2⟩
  · dsimp only
    have lo1 : ((((piBounds q).lo / 2).toNat : Nat) : ℝ) ≤ Real.pi / 2 * 2 ^ q := by
      apply toNat_le _ _ (by positivity)
      have := int_div_le (piBounds q).lo 2 (by decide)
      push_cast at this
      linarith [hpi.1]
    have hi1 : Real.pi / 2 * 2 ^ q ≤ ((((piBounds q).hi / 2 + 1).toNat : Nat) : ℝ) := by
      apply le_toNat
      have := le_int_div_succ (piBounds q).hi 2 (by decide)
      push_cast at this ⊢
      linarith [hpi.2]
    generalize ((piBounds q).lo / 2).toNat = lo at *
    generalize ((piBounds q).hi / 2 + 1).toNat = hi at *
    generalize (m <<< q) >>> unit = x at *
    have hlohi : lo ≤ hi := by exact_mod_cast le_trans lo1 hi1
    have hk : x / hi * hi ≤ x := Nat.div_mul_le_self x hi
    generalize x / hi = k at *
    have hk0 : (0 : ℝ) ≤ k := by positivity
    simp only [Reduced.Has]
    rw [div_le_iff₀ hp, le_div_iff₀ hp]
    push_cast [Nat.cast_sub hk, Nat.cast_sub hlohi]
    rw [sub_mul]
    generalize (m : ℝ) / 2 ^ unit * 2 ^ q = θ at *
    have e2 : (k : ℝ) * (Real.pi / 2) * 2 ^ q = k * (Real.pi / 2 * 2 ^ q) := by ring
    rw [e2]
    have := mul_le_mul_of_nonneg_left lo1 hk0
    have := mul_le_mul_of_nonneg_left hi1 hk0
    constructor <;> nlinarith

theorem reduceTurn_has (q l k : Nat) : (reduceTurn q l k).Has q (2 * Real.pi * k / 2 ^ l) := by
  have hp : (0 : ℝ) < 2 ^ q := by positivity
  have hpi := piBounds_has q
  have hpos := Real.pi_pos
  unfold reduceTurn
  dsimp only
  have hN : (0 : ℝ) < ((2 ^ l : Nat) : ℝ) := by positivity
  have hN2 : 0 < 2 * 2 ^ l := by positivity
  have hd : (4 * k : Nat) = 2 ^ l * (4 * k / 2 ^ l) + 4 * k % 2 ^ l := (Nat.div_add_mod _ _).symm
  have hdr : (4 : ℝ) * k = ((2 ^ l : Nat) : ℝ) * ((4 * k / 2 ^ l : Nat) : ℝ) + ((4 * k % 2 ^ l : Nat) : ℝ) := by
    exact_mod_cast hd
  have rest : (2 * Real.pi * k / 2 ^ l - ((4 * k / 2 ^ l : Nat) : ℝ) * (Real.pi / 2)) * 2 ^ q =
      Real.pi * 2 ^ q * ((4 * k % 2 ^ l : Nat) : ℝ) / ((2 * 2 ^ l : Nat) : ℝ) := by
    have hk : (k : ℝ) = (((2 ^ l : Nat) : ℝ) * ((4 * k / 2 ^ l : Nat) : ℝ) + ((4 * k % 2 ^ l : Nat) : ℝ)) / 4 := by
      linarith
    generalize ((4 * k / 2 ^ l : Nat) : ℝ) = Q at *
    generalize ((4 * k % 2 ^ l : Nat) : ℝ) = R at *
    rw [hk]
    push_cast
    field_simp
    ring
  generalize 4 * k % 2 ^ l = m at *
  generalize 4 * k / 2 ^ l = Q at *
  have hm0 : (0 : ℝ) ≤ m := by positivity
  have hNr : (0 : ℝ) < ((2 * 2 ^ l : Nat) : ℝ) := by positivity
  have lo1 : ((((piBounds q).lo * m / (2 * 2 ^ l)).toNat : Nat) : ℝ) ≤ Real.pi * 2 ^ q * m / ((2 * 2 ^ l : Nat) : ℝ) := by
    apply toNat_le _ _ (by positivity)
    have := int_div_le ((piBounds q).lo * m) (2 * 2 ^ l) hN2
    push_cast at this ⊢
    refine le_trans this ?_
    push_cast at hNr
    exact div_le_div_of_nonneg_right (mul_le_mul_of_nonneg_right hpi.1 hm0) hNr.le
  have hi1 : Real.pi * 2 ^ q * m / ((2 * 2 ^ l : Nat) : ℝ) ≤ ((((piBounds q).hi * m / (2 * 2 ^ l) + 1).toNat : Nat) : ℝ) := by
    apply le_toNat
    have := le_int_div_succ ((piBounds q).hi * m) (2 * 2 ^ l) hN2
    push_cast at this ⊢
    refine le_trans ?_ this
    push_cast at hNr
    exact div_le_div_of_nonneg_right (mul_le_mul_of_nonneg_right hpi.2 hm0) hNr.le
  generalize ((piBounds q).lo * m / (2 * 2 ^ l)).toNat = lo at *
  generalize ((piBounds q).hi * m / (2 * 2 ^ l) + 1).toNat = hi at *
  have hlohi : lo ≤ hi := by exact_mod_cast le_trans lo1 hi1
  simp only [Reduced.Has]
  rw [div_le_iff₀ hp, le_div_iff₀ hp, rest]
  push_cast [Nat.cast_sub hlohi] at lo1 hi1 ⊢
  constructor <;> linarith

/-- The bounds of a reduced angle bound the cosine and the sine of the angle. -/
theorem turnBounds_has (q : Nat) (r : Reduced) (θ : ℝ) (c s : Ival) (h : r.Has q θ)
    (hb : turnBounds q r = some (c, s)) : c.Has q (Real.cos θ) ∧ s.Has q (Real.sin θ) := by
  unfold turnBounds at hb
  split at hb
  · rename_i hle
    have hcs := cosSinBounds_has q r.lo r.width _ (by omega) h.1 h.2
    generalize hφ : θ - r.quarters * (Real.pi / 2) = φ at hcs
    have hθ : θ = φ + r.quarters * (Real.pi / 2) := by linarith
    -- whole turns do not matter
    have hq : (r.quarters : ℝ) * (Real.pi / 2) = ((r.quarters % 4 : Nat) : ℝ) * (Real.pi / 2) +
        ((r.quarters / 4 : Nat) : ℝ) * (2 * Real.pi) := by
      have := Nat.div_add_mod r.quarters 4
      have : (r.quarters : ℝ) = 4 * ((r.quarters / 4 : Nat) : ℝ) + ((r.quarters % 4 : Nat) : ℝ) := by exact_mod_cast this.symm
      generalize ((r.quarters / 4 : Nat) : ℝ) = a at *
      generalize ((r.quarters % 4 : Nat) : ℝ) = b at *
      rw [this]; ring
    have hc : Real.cos θ = Real.cos (φ + ((r.quarters % 4 : Nat) : ℝ) * (Real.pi / 2)) := by
      rw [hθ, hq, ← add_assoc]
      exact Real.cos_add_nat_mul_two_pi _ _
    have hs : Real.sin θ = Real.sin (φ + ((r.quarters % 4 : Nat) : ℝ) * (Real.pi / 2)) := by
      rw [hθ, hq, ← add_assoc]
      exact Real.sin_add_nat_mul_two_pi _ _
    have hlt := Nat.mod_lt r.quarters (by decide : 0 < 4)
    rw [hc, hs]
    simp only [Option.some.injEq] at hb
    generalize r.quarters % 4 = k at *
    have h2 : (2 : ℝ) * (Real.pi / 2) = Real.pi := by ring
    have h3 : (3 : ℝ) * (Real.pi / 2) = Real.pi / 2 + Real.pi := by ring
    rcases (by omega : k = 0 ∨ k = 1 ∨ k = 2 ∨ k = 3) with rfl | rfl | rfl | rfl
    · simp only [if_true] at hb
      rw [hb] at hcs
      simpa using hcs
    · simp only [Nat.one_ne_zero, if_false, if_true] at hb
      cases hb
      push_cast
      rw [one_mul, Real.cos_add_pi_div_two, Real.sin_add_pi_div_two]
      exact ⟨Ival.has_neg hcs.2, hcs.1⟩
    · norm_num at hb
      obtain ⟨rfl, rfl⟩ := hb
      push_cast
      rw [h2, Real.cos_add_pi, Real.sin_add_pi]
      exact ⟨Ival.has_neg hcs.1, Ival.has_neg hcs.2⟩
    · norm_num at hb
      obtain ⟨rfl, rfl⟩ := hb
      push_cast
      rw [h3, ← add_assoc, Real.cos_add_pi, Real.sin_add_pi, Real.cos_add_pi_div_two, Real.sin_add_pi_div_two, neg_neg]
      exact ⟨hcs.2, Ival.has_neg hcs.1⟩
  · cases hb

end Sys2Proof.Machine
end

