-- ==== Sys2Proof/Laws/Float.lean ====
section
/-! SUPPORT. What the arithmetic of F answers: every result fits its format, a drawn NaN is a quiet NaN, and a value is its
sign and its magnitude. -/

namespace Sys2Proof.Machine

/-! ## Encodings -/

theorem infBits_lt (fmt : Format) : infBits fmt < 2 ^ (fmt.width - 1) := by cases fmt <;> decide

theorem half_fits (fmt : Format) : 2 ^ (fmt.width - 1) + 2 ^ (fmt.width - 1) = 2 ^ fmt.width := by cases fmt <;> decide

theorem width_le (fmt : Format) : 2 ^ fmt.width ≤ 2 ^ 64 := by cases fmt <;> decide

theorem toNat_makeF (fmt : Format) (neg : Bool) (mag : Nat) (h : mag < 2 ^ (fmt.width - 1)) :
    (makeF fmt neg mag).toNat = mag + if neg then 2 ^ (fmt.width - 1) else 0 := by
  have h1 := half_fits fmt
  have h2 := width_le fmt
  rw [makeF, BitVec.toNat_ofNat, Nat.mod_eq_of_lt]
  split <;> omega

theorem fits_makeF (fmt : Format) (neg : Bool) (mag : Nat) (h : mag < 2 ^ (fmt.width - 1)) :
    fitsFormat fmt (makeF fmt neg mag) = true := by
  have h1 := half_fits fmt
  rw [fitsFormat_iff, toNat_makeF fmt neg mag h]
  split <;> omega

@[simp] theorem magBits_makeF (fmt : Format) (neg : Bool) (mag : Nat) (h : mag < 2 ^ (fmt.width - 1)) :
    magBits fmt (makeF fmt neg mag) = mag := by
  rw [magBits, toNat_makeF fmt neg mag h]
  cases neg
  · simp [Nat.mod_eq_of_lt h]
  · simp [Nat.mod_eq_of_lt h]

theorem signBit_eq (fmt : Format) (a : F) : signBit fmt a = decide (a.toNat / 2 ^ (fmt.width - 1) % 2 = 1) := by
  rw [signBit, BitVec.getLsbD, Nat.testBit_eq_decide_div_mod_eq]

@[simp] theorem signBit_makeF (fmt : Format) (neg : Bool) (mag : Nat) (h : mag < 2 ^ (fmt.width - 1)) :
    signBit fmt (makeF fmt neg mag) = neg := by
  have hp : 0 < 2 ^ (fmt.width - 1) := Nat.pos_of_ne_zero (by positivity)
  rw [signBit_eq, toNat_makeF fmt neg mag h]
  cases neg
  · simp [Nat.div_eq_of_lt h]
  · rw [if_pos rfl, Nat.add_div_right _ hp, Nat.div_eq_of_lt h]; rfl

/-- A value of the format is its sign and its magnitude. -/
theorem makeF_eta (fmt : Format) (a : F) (h : fitsFormat fmt a = true) :
    makeF fmt (signBit fmt a) (magBits fmt a) = a := by
  have ha := (fitsFormat_iff fmt a).1 h
  have h1 := half_fits fmt
  have hp : 0 < 2 ^ (fmt.width - 1) := Nat.pos_of_ne_zero (by positivity)
  have hm : magBits fmt a < 2 ^ (fmt.width - 1) := Nat.mod_lt _ hp
  apply BitVec.eq_of_toNat_eq
  rw [toNat_makeF _ _ _ hm, signBit_eq, magBits]
  have hd := Nat.div_add_mod a.toNat (2 ^ (fmt.width - 1))
  have hq : a.toNat / 2 ^ (fmt.width - 1) < 2 := by
    rw [Nat.div_lt_iff_lt_mul hp]; omega
  generalize 2 ^ (fmt.width - 1) = p at *
  have hc : a.toNat / p = 0 ∨ a.toNat / p = 1 := by
    generalize a.toNat / p = n at hq
    omega
  rcases hc with hz | hz
  · rw [hz] at hd ⊢
    simpa using hd
  · rw [hz] at hd ⊢
    simp at hd ⊢
    omega

/-! ## Results fit the format -/

theorem roundUnits_le (fmt : Format) (n d : Nat) : roundUnits fmt n d ≤ infBits fmt := Nat.min_le_right _ _

theorem roundUnits_lt (fmt : Format) (n d : Nat) : roundUnits fmt n d < 2 ^ (fmt.width - 1) :=
  Nat.lt_of_le_of_lt (roundUnits_le fmt n d) (infBits_lt fmt)

theorem fits_round (fmt : Format) (neg : Bool) (n d : Nat) :
    fitsFormat fmt (makeF fmt neg (roundUnits fmt n d)) = true := fits_makeF _ _ _ (roundUnits_lt _ _ _)

theorem fits_inf (fmt : Format) (neg : Bool) : fitsFormat fmt (makeF fmt neg (infBits fmt)) = true :=
  fits_makeF _ _ _ (infBits_lt _)

theorem fits_zero (fmt : Format) : fitsFormat fmt fzero = true := by cases fmt <;> decide

/-- The magnitude of a drawn NaN: an exponent of all ones, the top fraction bit 1 (40_numerics.md R110, R115). -/
theorem nan_bounds (fmt : Format) (n : Nat) :
    infBits fmt + 2 ^ (fmt.fracBits - 1) + n % 2 ^ (fmt.fracBits - 1) < 2 ^ (fmt.width - 1) := by
  have : n % 2 ^ (fmt.fracBits - 1) < 2 ^ (fmt.fracBits - 1) := Nat.mod_lt _ (by positivity)
  have h2 : infBits fmt + 2 ^ (fmt.fracBits - 1) + 2 ^ (fmt.fracBits - 1) = 2 ^ (fmt.width - 1) := by
    cases fmt <;> decide
  omega

theorem fits_drawNaN (c : Fp) : fitsFormat c.fmt (drawNaN c) = true := fits_makeF _ _ _ (nan_bounds _ _)

/-- A drawn NaN is a NaN. -/
theorem isNaN_drawNaN (c : Fp) : isNaN c.fmt (drawNaN c) = true := by
  have hp : 0 < 2 ^ (c.fmt.fracBits - 1) := by positivity
  rw [isNaN, drawNaN, magBits_makeF _ _ _ (nan_bounds _ _), decide_eq_true_eq]
  omega

theorem fits_addFinite (fmt : Format) (s : Bool) (m : Nat) (t : Bool) (n : Nat) :
    fitsFormat fmt (addFinite fmt s m t n) = true := by
  unfold addFinite
  split
  · exact fits_round _ _ _ _
  · split
    · exact fits_zero _
    · split <;> exact fits_round _ _ _ _

theorem fits_fadd (c : Fp) (a b : F) : fitsFormat c.fmt (fadd c a b) = true := by
  unfold fadd
  split
  · exact fits_drawNaN c
  · exact fits_drawNaN c
  · split
    · exact fits_inf _ _
    · exact fits_drawNaN c
  · exact fits_inf _ _
  · exact fits_inf _ _
  · exact fits_addFinite _ _ _ _ _

theorem fits_fsub (c : Fp) (a b : F) : fitsFormat c.fmt (fsub c a b) = true := fits_fadd _ _ _

theorem fits_fmul (c : Fp) (a b : F) : fitsFormat c.fmt (fmul c a b) = true := by
  unfold fmul
  split
  · exact fits_drawNaN c
  · exact fits_drawNaN c
  · exact fits_inf _ _
  · split
    · exact fits_drawNaN c
    · exact fits_inf _ _
  · split
    · exact fits_drawNaN c
    · exact fits_inf _ _
  · exact fits_round _ _ _ _

theorem fits_fdiv (c : Fp) (a b : F) : fitsFormat c.fmt (fdiv c a b) = true := by
  unfold fdiv
  split
  · exact fits_drawNaN c
  · exact fits_drawNaN c
  · exact fits_drawNaN c
  · exact fits_inf _ _
  · exact fits_makeF _ _ _ (by positivity)
  · split
    · split
      · exact fits_drawNaN c
      · exact fits_inf _ _
    · exact fits_round _ _ _ _

theorem fits_roundReal (fmt : Format) (neg : Bool) (n d : Nat) : fitsFormat fmt (roundReal fmt neg n d) = true :=
  fits_round _ _ _ _

theorem fits_fmin (fmt : Format) (a b : F) (ha : fitsFormat fmt a = true) (hb : fitsFormat fmt b = true) :
    fitsFormat fmt (fmin fmt a b) = true := by
  unfold fmin
  split <;> assumption

theorem fits_ofBits (fmt : Format) (v : BitVec 64) : fitsFormat fmt (ofBits fmt v) = true := by
  have h : v.toNat % 2 ^ fmt.width < 2 ^ fmt.width := Nat.mod_lt _ (by positivity)
  rw [fitsFormat_iff, ofBits, BitVec.toNat_ofNat, Nat.mod_eq_of_lt (Nat.lt_of_lt_of_le h (width_le fmt))]
  exact h

/-- `fneg` flips the sign and keeps the magnitude (40_numerics.md R117). -/
theorem fneg_eq (fmt : Format) (a : F) (h : fitsFormat fmt a = true) :
    fneg fmt a = makeF fmt (!signBit fmt a) (magBits fmt a) := by
  have hp : 0 < 2 ^ (fmt.width - 1) := Nat.pos_of_ne_zero (by positivity)
  have hm : magBits fmt a < 2 ^ (fmt.width - 1) := Nat.mod_lt _ hp
  apply BitVec.eq_of_getLsbD_eq
  intro i hi
  have hw : fmt.width - 1 < 64 := by cases fmt <;> decide
  have e1 : (fneg fmt a).getLsbD i = (a.getLsbD i ^^ decide (fmt.width - 1 = i)) := by
    rw [fneg, BitVec.getLsbD_xor, BitVec.getLsbD_twoPow]
    simp [hw]
  have e2 : ∀ neg, (makeF fmt neg (magBits fmt a)).getLsbD i =
      (if i = fmt.width - 1 then neg else a.getLsbD i && decide (i < fmt.width - 1)) := by
    intro neg
    rw [BitVec.getLsbD, toNat_makeF _ _ _ hm, Nat.add_comm]
    by_cases hi' : i = fmt.width - 1
    · subst hi'
      rw [if_pos rfl]
      cases neg
      · rw [if_neg (by simp), Nat.zero_add]; exact Nat.testBit_lt_two_pow hm
      · rw [if_pos rfl, Nat.testBit_two_pow_add_eq, Nat.testBit_lt_two_pow hm]; rfl
    · rw [if_neg hi', magBits]
      cases neg
      · rw [if_neg (by simp), Nat.zero_add, Nat.testBit_mod_two_pow, Bool.and_comm]; rfl
      · rw [if_pos rfl]
        rcases Nat.lt_or_gt_of_ne hi' with hlt | hgt
        · rw [Nat.testBit_two_pow_add_gt hlt, Nat.testBit_mod_two_pow, Bool.and_comm]; rfl
        · have hlt : 2 ^ (fmt.width - 1) + a.toNat % 2 ^ (fmt.width - 1) < 2 ^ i := by
            have : 2 ^ (fmt.width - 1 + 1) ≤ 2 ^ i := Nat.pow_le_pow_right (by decide) (by omega)
            rw [Nat.pow_succ] at this
            unfold magBits at hm
            omega
          rw [Nat.testBit_lt_two_pow hlt]
          simp; intro _; omega
  have e3 := e2 (signBit fmt a)
  rw [makeF_eta fmt a h] at e3
  rw [e1, e2]
  by_cases hi' : i = fmt.width - 1
  · subst hi'; simp [signBit]
  · rw [if_neg hi'] at e3 ⊢
    rw [← e3]
    simp [Ne.symm hi']

theorem fits_fneg (fmt : Format) (a : F) (h : fitsFormat fmt a = true) : fitsFormat fmt (fneg fmt a) = true := by
  have hp : 0 < 2 ^ (fmt.width - 1) := Nat.pos_of_ne_zero (by positivity)
  rw [fneg_eq fmt a h]
  exact fits_makeF _ _ _ (Nat.mod_lt _ hp)

/-! ## Complex results fit the format -/

/-- Both parts fit. -/
structure Cplx.Fits (fmt : Format) (z : Cplx) : Prop where
  re : fitsFormat fmt z.re = true
  im : fitsFormat fmt z.im = true

theorem fits_czero (fmt : Format) : Cplx.Fits fmt czero := ⟨fits_zero _, fits_zero _⟩

@[simp] theorem Fp.at_fmt (c : Fp) (n : Nat) : (c.at n).fmt = c.fmt := rfl

theorem fits_cadd (c : Fp) (a b : Cplx) : Cplx.Fits c.fmt (cadd c a b) := ⟨fits_fadd _ _ _, fits_fadd _ _ _⟩

theorem fits_csub (c : Fp) (a b : Cplx) : Cplx.Fits c.fmt (csub c a b) := ⟨fits_fsub _ _ _, fits_fsub _ _ _⟩

theorem fits_cmul (c : Fp) (a b : Cplx) : Cplx.Fits c.fmt (cmul c a b) := ⟨fits_fsub _ _ _, fits_fadd _ _ _⟩

theorem fits_cscale (c : Fp) (x : F) (z : Cplx) : Cplx.Fits c.fmt (cscale c x z) := ⟨fits_fmul _ _ _, fits_fmul _ _ _⟩

theorem Memory.cplx_fits (fmt : Format) (e : Nat) (m : Memory) (x : Nat) : Cplx.Fits fmt (Memory.cplx fmt e m x) :=
  ⟨Memory.value_fits _ _ _ _, Memory.value_fits _ _ _ _⟩

theorem fits_decided (fmt : Format) (neg : Bool) (lo hi : Nat) (v : F) (hlo : lo < 2 ^ (fmt.width - 1))
    (h : decided fmt neg lo hi = some v) : fitsFormat fmt v = true := by
  unfold decided at h
  split at h
  · cases h; exact fits_makeF _ _ _ hlo
  · cases h

theorem fits_roundBounds (fmt : Format) (q : Nat) (b : Ival) (v : F) (h : roundBounds fmt q b = some v) :
    fitsFormat fmt v = true := by
  unfold roundBounds at h
  split at h
  · cases h
  · exact fits_decided _ _ _ _ _ (roundUnits_lt _ _ _) h

theorem fits_roundScaled (fmt : Format) (q : Nat) (down : Bool) (e : Nat × Option Nat) (t : Ival) (v : F)
    (h : roundScaled fmt q down e t = some v) : fitsFormat fmt v = true := by
  unfold roundScaled at h
  split at h
  · cases h
  · split at h <;> refine fits_decided _ _ _ _ _ ?_ h
    · exact roundUnits_lt _ _ _
    · exact roundUnits_lt _ _ _
    · exact roundUnits_lt _ _ _
    · positivity

/-- An answer of the list is the answer of one of its precisions. -/
theorem firstDecided_some (f : Nat → Option F) (ps : List Nat) (v : F) (h : firstDecided f ps = some v) :
    ∃ p ∈ ps, f p = some v := by
  induction ps with
  | nil => cases h
  | cons p ps ih =>
    simp only [firstDecided] at h
    split at h
    · rename_i w hw
      cases h
      exact ⟨p, by simp, hw⟩
    · obtain ⟨q, hq, hv⟩ := ih h
      exact ⟨q, List.mem_cons_of_mem _ hq, hv⟩

/-- The list answers where one of its precisions does. -/
theorem firstDecided_isSome (f : Nat → Option F) (ps : List Nat) (h : ∃ p ∈ ps, (f p).isSome) :
    ∃ v, firstDecided f ps = some v := by
  induction ps with
  | nil => simp at h
  | cons p ps ih =>
    cases hp : f p with
    | some v => exact ⟨v, by simp [firstDecided, hp]⟩
    | none => simpa [firstDecided, hp] using ih (by simpa [hp] using h)

/-- Where a precision decides a part of TW, the part is what one of the precisions answers. -/
theorem twiddlePart_decided {fmt : Format} {l k : Nat} {im : Bool}
    (h : ∃ p ∈ precisions, (twiddleAt fmt l k im p).isSome) :
    ∃ p ∈ precisions, twiddleAt fmt l k im p = some (twiddlePart fmt l k im) := by
  obtain ⟨w, hw⟩ := firstDecided_isSome (twiddleAt fmt l k im) precisions h
  unfold twiddlePart
  split
  · rename_i v hv; exact firstDecided_some _ _ _ hv
  · rename_i hn; exact absurd (hn.symm.trans hw) (by simp)

/-- Where a precision decides a part of CEXP, the part is what one of the precisions answers. -/
theorem cexpPart_decided {fmt : Format} {a b : F} {im : Bool} (h : ∃ p ∈ precisions, (cexpAt fmt a b im p).isSome) :
    ∃ p ∈ precisions, cexpAt fmt a b im p = some (cexpPart fmt a b im) := by
  obtain ⟨w, hw⟩ := firstDecided_isSome (cexpAt fmt a b im) precisions h
  unfold cexpPart
  split
  · rename_i v hv; exact firstDecided_some _ _ _ hv
  · rename_i hn; exact absurd (hn.symm.trans hw) (by simp)

/-- Where a precision decides RN(e^a), it is what one of the precisions answers. -/
theorem rexp_decided {fmt : Format} {a : F} (h : ∃ p ∈ precisions, (rexpAt fmt a p).isSome) :
    ∃ p ∈ precisions, rexpAt fmt a p = some (rexp fmt a) := by
  obtain ⟨w, hw⟩ := firstDecided_isSome (rexpAt fmt a) precisions h
  unfold rexp
  split
  · rename_i v hv; exact firstDecided_some _ _ _ hv
  · rename_i hn; exact absurd (hn.symm.trans hw) (by simp)

theorem fits_twiddlePart (fmt : Format) (l k : Nat) (im : Bool) : fitsFormat fmt (twiddlePart fmt l k im) = true := by
  unfold twiddlePart
  split
  · rename_i v h
    obtain ⟨p, _, hp⟩ := firstDecided_some _ _ _ h
    unfold twiddleAt at hp
    split at hp
    · cases hp
    · exact fits_roundBounds _ _ _ _ hp
  · exact fits_ofBits _ _

theorem fits_twiddle (fmt : Format) (l k : Nat) : Cplx.Fits fmt (twiddle fmt l k) := by
  unfold twiddle
  split
  · exact ⟨fits_roundReal _ _ _ _, fits_zero _⟩
  · split
    · exact ⟨fits_zero _, fits_fneg _ _ (fits_roundReal _ _ _ _)⟩
    · constructor <;> dsimp only <;> exact fits_twiddlePart _ _ _ _

theorem fits_rexpAt (fmt : Format) (a : F) (p : Nat) (v : F) (h : rexpAt fmt a p = some v) :
    fitsFormat fmt v = true := by
  unfold rexpAt at h
  generalize expBounds p fmt.unit (magUnits fmt a) = e at h
  exact fits_roundScaled _ _ _ _ _ _ h

theorem fits_rexp (fmt : Format) (a : F) : fitsFormat fmt (rexp fmt a) = true := by
  unfold rexp
  split
  · rename_i v h
    obtain ⟨p, _, hp⟩ := firstDecided_some _ _ _ h
    exact fits_rexpAt fmt a p v hp
  · exact fits_ofBits _ _

theorem fits_cexpAt (fmt : Format) (a b : F) (im : Bool) (p : Nat) (v : F) (h : cexpAt fmt a b im p = some v) :
    fitsFormat fmt v = true := by
  unfold cexpAt at h
  simp only at h
  split at h
  · cases h
  · exact fits_roundScaled _ _ _ _ _ _ h

theorem fits_cexpPart (fmt : Format) (a b : F) (im : Bool) : fitsFormat fmt (cexpPart fmt a b im) = true := by
  unfold cexpPart
  split
  · rename_i v h
    obtain ⟨p, _, hp⟩ := firstDecided_some _ _ _ h
    exact fits_cexpAt fmt a b im p v hp
  · exact fits_ofBits _ _

theorem fits_cexp (fmt : Format) (a b : F) (hb : fitsFormat fmt b = true) : Cplx.Fits fmt (cexp fmt a b) := by
  unfold cexp
  split
  · split
    · constructor <;> dsimp only
      · exact fits_rexp fmt a
      · exact hb
    · constructor <;> dsimp only <;> exact fits_cexpPart _ _ _ _
  · exact ⟨fits_ofBits _ _, fits_ofBits _ _⟩

/-! ## Constants (40_numerics.md R119) -/

theorem fits_fone (fmt : Format) : fitsFormat fmt (fone fmt) = true := fits_roundReal _ _ _ _
theorem fits_ffClamp (fmt : Format) : fitsFormat fmt (ffClamp fmt) = true := fits_roundReal _ _ _ _

end Sys2Proof.Machine
end

