-- ==== Sys2Proof/Laws/Rounding.lean ====
section
/-! SUPPORT. Rounding to nearest, ties to even (40_numerics.md R111): `roundUnits` answers the nearest value, the one with even
fraction between two that are equally near, and an infinity past the overflow bound; and what lies between two numbers
that round to one value rounds to it. -/

namespace Sys2Proof.Machine

/-! ## The values of a format, in units -/

/-- The magnitude with given `magBits`, in units. -/
def unitsOf (fmt : Format) (m : Nat) : Nat :=
  if m / 2 ^ fmt.fracBits = 0 then m
  else (2 ^ fmt.fracBits + m % 2 ^ fmt.fracBits) <<< (m / 2 ^ fmt.fracBits - 1)

theorem magUnits_eq (fmt : Format) (a : F) : magUnits fmt a = unitsOf fmt (magBits fmt a) := rfl

theorem frac_pos (fmt : Format) : 0 < 2 ^ fmt.fracBits := by positivity

/-- A magnitude from its exponent field and its significand. -/
theorem unitsOf_mk (fmt : Format) (s n : Nat) (h1 : s = 0 ∨ 2 ^ fmt.fracBits ≤ n) (h2 : n ≤ 2 ^ (fmt.fracBits + 1)) :
    unitsOf fmt (s * 2 ^ fmt.fracBits + n) = n * 2 ^ s := by
  have hp := frac_pos fmt
  rw [pow_succ] at h2
  generalize hP : 2 ^ fmt.fracBits = P at *
  unfold unitsOf
  rw [hP, show s * P + n = n + P * s by ring, Nat.add_mul_div_left _ _ hp, Nat.add_mul_mod_self_left, Nat.shiftLeft_eq]
  rcases Nat.lt_or_ge n P with hlt | hge
  · have hs : s = 0 := by omega
    subst hs
    rw [Nat.div_eq_of_lt hlt]; simp
  · rcases Nat.lt_or_ge n (P * 2) with hlt | hge2
    · have hd : n / P = 1 := by
        rw [Nat.div_eq_iff hp]; omega
      have hm : n % P = n - P := by
        have := Nat.div_add_mod n P
        rw [hd] at this; omega
      rw [hd, hm, if_neg (by omega), show 1 + s - 1 = s by omega, show P + (n - P) = n by omega]
    · have hn : n = P * 2 := by omega
      have hd : n / P = 2 := by rw [hn, Nat.mul_div_cancel_left _ hp]
      have hm : n % P = 0 := by rw [hn]; exact Nat.mul_mod_right _ _
      rw [hd, hm, if_neg (by omega), show 2 + s - 1 = s + 1 by omega, pow_succ, hn]
      ring

/-- Every magnitude has that form. -/
theorem unitsOf_form (fmt : Format) (m : Nat) :
    ∃ s n, m = s * 2 ^ fmt.fracBits + n ∧ (s = 0 ∨ 2 ^ fmt.fracBits ≤ n) ∧ n < 2 ^ (fmt.fracBits + 1) := by
  have hp := frac_pos fmt
  rw [pow_succ]
  generalize 2 ^ fmt.fracBits = P at *
  have hd := Nat.div_add_mod m P
  have hm := Nat.mod_lt m hp
  rcases Nat.eq_zero_or_pos (m / P) with h0 | h0
  · refine ⟨0, m, by simp, .inl rfl, ?_⟩
    rw [h0] at hd; omega
  · refine ⟨m / P - 1, P + m % P, ?_, .inr (by omega), by omega⟩
    obtain ⟨k, hk⟩ : ∃ k, m / P = k + 1 := ⟨m / P - 1, by omega⟩
    rw [hk] at hd ⊢
    rw [Nat.mul_add] at hd
    rw [Nat.add_sub_cancel, Nat.mul_comm k P]
    omega

theorem unitsOf_lt_succ (fmt : Format) (m : Nat) : unitsOf fmt m < unitsOf fmt (m + 1) := by
  obtain ⟨s, n, rfl, h1, h2⟩ := unitsOf_form fmt m
  rw [Nat.add_assoc, unitsOf_mk fmt s n h1 (by omega), unitsOf_mk fmt s (n + 1) (h1.imp_right (by omega)) (by omega)]
  exact Nat.mul_lt_mul_of_pos_right (by omega) (by positivity)

theorem unitsOf_strictMono (fmt : Format) : StrictMono (unitsOf fmt) := strictMono_nat_of_lt_succ (unitsOf_lt_succ fmt)

theorem unitsOf_zero (fmt : Format) : unitsOf fmt 0 = 0 := by simp [unitsOf]

theorem unitsOf_eq_zero (fmt : Format) (m : Nat) : unitsOf fmt m = 0 ↔ m = 0 := by
  constructor
  · intro h
    rcases Nat.eq_zero_or_pos m with h0 | h0
    · exact h0
    · have := unitsOf_strictMono fmt h0
      omega
  · rintro rfl; exact unitsOf_zero fmt

/-- The infinity's place in the order: twice the bias and the fraction width, as a power of two. -/
theorem unitsOf_infBits (fmt : Format) : unitsOf fmt (infBits fmt) = 2 ^ (fmt.fracBits + 2 * fmt.bias) := by
  cases fmt <;> decide +kernel

theorem unitsOf_maxFinite (fmt : Format) :
    unitsOf fmt (infBits fmt - 1) = (2 ^ (fmt.fracBits + 1) - 1) * 2 ^ (2 * fmt.bias - 1) := by
  cases fmt <;> decide +kernel

/-! ## The nearest value -/

/-- `m` is the nearest of all magnitudes to the number `x` of units, and even if another one is as near. -/
def IsNearest (fmt : Format) (x : ℝ) (m : Nat) : Prop :=
  ∀ n : Nat, |(unitsOf fmt m : ℝ) - x| < |(unitsOf fmt n : ℝ) - x| ∨
    (|(unitsOf fmt m : ℝ) - x| = |(unitsOf fmt n : ℝ) - x| ∧ (n = m ∨ m % 2 = 0))

/-- Between two neighbours, the nearer one is the nearest of all. -/
theorem isNearest_of_neighbours (fmt : Format) (x : ℝ) (k m : Nat) (hlo : (unitsOf fmt k : ℝ) ≤ x)
    (hhi : x < (unitsOf fmt (k + 1) : ℝ))
    (hm : (m = k ∧ (x - unitsOf fmt k < unitsOf fmt (k + 1) - x ∨
        (x - unitsOf fmt k = unitsOf fmt (k + 1) - x ∧ k % 2 = 0))) ∨
      (m = k + 1 ∧ (unitsOf fmt (k + 1) - x < x - unitsOf fmt k ∨
        (x - unitsOf fmt k = unitsOf fmt (k + 1) - x ∧ (k + 1) % 2 = 0)))) :
    IsNearest fmt x m := by
  intro n
  have hmono := (unitsOf_strictMono fmt)
  rcases hm with ⟨rfl, h⟩ | ⟨rfl, h⟩
  · rw [abs_of_nonpos (by linarith : (unitsOf fmt m : ℝ) - x ≤ 0)]
    rcases Nat.lt_trichotomy n m with hn | rfl | hn
    · left
      have : (unitsOf fmt n : ℝ) < unitsOf fmt m := by exact_mod_cast hmono hn
      rw [abs_of_nonpos (by linarith)]; linarith
    · right
      exact ⟨by rw [abs_of_nonpos (by linarith)], .inl rfl⟩
    · have hn' : m + 1 ≤ n := hn
      have : (unitsOf fmt (m + 1) : ℝ) ≤ unitsOf fmt n := by exact_mod_cast hmono.monotone hn'
      rw [abs_of_nonneg (by linarith : (0 : ℝ) ≤ unitsOf fmt n - x)]
      rcases h with h | ⟨h, he⟩
      · left; linarith
      · rcases lt_or_eq_of_le this with h' | h'
        · left; linarith
        · right; exact ⟨by linarith, .inr he⟩
  · rw [abs_of_nonneg (by linarith : 0 ≤ (unitsOf fmt (k + 1) : ℝ) - x)]
    rcases Nat.lt_trichotomy n (k + 1) with hn | rfl | hn
    · have hn' : n ≤ k := by omega
      have : (unitsOf fmt n : ℝ) ≤ unitsOf fmt k := by exact_mod_cast hmono.monotone hn'
      rw [abs_of_nonpos (by linarith : (unitsOf fmt n : ℝ) - x ≤ 0)]
      rcases h with h | ⟨h, he⟩
      · left; linarith
      · rcases lt_or_eq_of_le this with h' | h'
        · left; linarith
        · right; exact ⟨by linarith, .inr he⟩
    · right
      exact ⟨by rw [abs_of_nonneg (by linarith)], .inl rfl⟩
    · left
      have : (unitsOf fmt (k + 1) : ℝ) < unitsOf fmt n := by exact_mod_cast hmono hn
      rw [abs_of_nonneg (by linarith)]; linarith

/-- `roundUnits` without its clamp to the infinity. -/
def roundFree (fmt : Format) (num den : Nat) : Nat :=
  (Nat.log2 (num / den) - fmt.fracBits) * 2 ^ fmt.fracBits
    + roundDiv num (den <<< (Nat.log2 (num / den) - fmt.fracBits))

theorem roundUnits_eq (fmt : Format) (num den : Nat) :
    roundUnits fmt num den = min (roundFree fmt num den) (infBits fmt) := rfl

/-- The unclamped rounding is the nearest magnitude. -/
theorem roundFree_nearest (fmt : Format) (num den : Nat) (hd : 0 < den) :
    IsNearest fmt ((num : ℝ) / den) (roundFree fmt num den) := by
  have hf : 1 ≤ fmt.fracBits := by cases fmt <;> decide
  unfold roundFree
  generalize hs : Nat.log2 (num / den) - fmt.fracBits = s
  rw [Nat.shiftLeft_eq]
  have hD : 0 < den * 2 ^ s := by positivity
  generalize hDe : den * 2 ^ s = D at *
  -- the significand
  have hn2 : num / D < 2 ^ (fmt.fracBits + 1) := by
    rw [← hDe, ← Nat.div_div_eq_div_mul, Nat.div_lt_iff_lt_mul (by positivity), ← pow_add]
    rcases Nat.eq_zero_or_pos (num / den) with h0 | h0
    · rw [h0]; positivity
    · refine lt_of_lt_of_le (Nat.lt_log2_self (n := num / den)) (Nat.pow_le_pow_right (by decide) ?_)
      omega
  have hn1 : s = 0 ∨ 2 ^ fmt.fracBits ≤ num / D := by
    rcases Nat.eq_zero_or_pos s with h | h
    · exact .inl h
    · right
      have hq : num / den ≠ 0 := by
        intro h0
        rw [h0, Nat.log2_zero] at hs
        omega
      rw [← hDe, ← Nat.div_div_eq_div_mul, Nat.le_div_iff_mul_le (by positivity), ← pow_add]
      refine le_trans (Nat.pow_le_pow_right (by decide) ?_) (Nat.log2_self_le hq)
      omega
  have hdm := Nat.div_add_mod num D
  have hml := Nat.mod_lt num hD
  generalize num / D = n at *
  generalize hr : num % D = r at *
  have e1 := unitsOf_mk fmt s n hn1 (by omega)
  have e2 := unitsOf_mk fmt s (n + 1) (hn1.imp_right (by omega)) (by omega)
  -- the number, in units
  have hx : (num : ℝ) / den = n * 2 ^ s + (r : ℝ) / D * 2 ^ s := by
    have h1 : (num : ℝ) = D * n + r := by exact_mod_cast hdm.symm
    have h2 : (D : ℝ) = den * 2 ^ s := by rw [← hDe]; push_cast; ring
    have h3 : (den : ℝ) ≠ 0 := by positivity
    have h4 : (D : ℝ) ≠ 0 := by positivity
    have h5 : (2 : ℝ) ^ s ≠ 0 := by positivity
    rw [h1]
    field_simp
    rw [h2]
    ring
  have hD' : (0 : ℝ) < D := by exact_mod_cast hD
  have hfr : (r : ℝ) / D < 1 := by rw [div_lt_one hD']; exact_mod_cast hml
  have hfr0 : 0 ≤ (r : ℝ) / D := by positivity
  have hps : (0 : ℝ) < 2 ^ s := by positivity
  have hk : s * 2 ^ fmt.fracBits % 2 = 0 := by
    obtain ⟨k, hk⟩ : ∃ k, fmt.fracBits = k + 1 := ⟨fmt.fracBits - 1, by omega⟩
    rw [hk, pow_succ, ← Nat.mul_assoc]; exact Nat.mul_mod_left _ _
  have hhalf : ∀ c : ℝ, (2 * r : ℝ) = D * c → (r : ℝ) / D = c / 2 := by
    intro c h; field_simp; linarith
  refine isNearest_of_neighbours fmt _ (s * 2 ^ fmt.fracBits + n) _ ?_ ?_ ?_
  · rw [e1, hx]; push_cast; nlinarith
  · rw [Nat.add_assoc, e2, hx]; push_cast; nlinarith
  · rw [Nat.add_assoc, e2, e1, hx]
    push_cast
    unfold roundDiv
    rw [hr, show num / D = n from by
      rw [Nat.div_eq_iff hD, ← hdm]
      have := Nat.mul_comm D n
      constructor <;> omega]
    by_cases hgt : D < 2 * r
    · right
      rw [if_pos (.inl hgt)]
      refine ⟨by omega, .inl ?_⟩
      have : (1 : ℝ) / 2 < (r : ℝ) / D := by
        rw [div_lt_div_iff₀ (by norm_num) hD']
        have : (D : ℝ) < 2 * r := by exact_mod_cast hgt
        linarith
      nlinarith
    · by_cases heq : 2 * r = D
      · have hh : (r : ℝ) / D = 1 / 2 := hhalf 1 (by rw [mul_one]; exact_mod_cast heq)
        by_cases hodd : n % 2 = 1
        · right
          rw [if_pos (.inr ⟨heq, hodd⟩)]
          refine ⟨by omega, .inr ⟨by rw [hh]; ring, by omega⟩⟩
        · left
          rw [if_neg (by omega)]
          refine ⟨rfl, .inr ⟨by rw [hh]; ring, by omega⟩⟩
      · left
        rw [if_neg (by omega)]
        refine ⟨rfl, .inl ?_⟩
        have : (r : ℝ) / D < 1 / 2 := by
          rw [div_lt_div_iff₀ hD' (by norm_num)]
          have : (2 * r : ℝ) < D := by exact_mod_cast (by omega : 2 * r < D)
          linarith
        nlinarith

/-- What lies between two numbers with one nearest magnitude has it too. -/
theorem IsNearest.between {fmt : Format} {x r y : ℝ} {m : Nat} (hx : IsNearest fmt x m) (hy : IsNearest fmt y m)
    (h1 : x ≤ r) (h2 : r ≤ y) : IsNearest fmt r m := by
  intro n
  have key : ∀ a b z w : ℝ, a < b → z ≤ w → |a - z| - |b - z| ≤ |a - w| - |b - w| := by
    intro a b z w hab hzw
    rcases abs_cases (a - z) with h | h <;> rcases abs_cases (b - z) with h' | h' <;>
      rcases abs_cases (a - w) with k | k <;> rcases abs_cases (b - w) with k' | k' <;>
      linarith [h.1, h'.1, k.1, k'.1]
  rcases Nat.lt_trichotomy n m with hn | rfl | hn
  · have hd := key (unitsOf fmt n) (unitsOf fmt m) x r (by exact_mod_cast unitsOf_strictMono fmt hn) h1
    rcases hx n with h | ⟨h, he⟩
    · left; linarith
    · rcases lt_or_eq_of_le (by linarith : |(unitsOf fmt m : ℝ) - r| ≤ |(unitsOf fmt n : ℝ) - r|) with h' | h'
      · exact .inl h'
      · exact .inr ⟨h', he⟩
  · exact .inr ⟨rfl, .inl rfl⟩
  · have hd := key (unitsOf fmt m) (unitsOf fmt n) r y (by exact_mod_cast unitsOf_strictMono fmt hn) h2
    rcases hy n with h | ⟨h, he⟩
    · left; linarith
    · rcases lt_or_eq_of_le (by linarith : |(unitsOf fmt m : ℝ) - r| ≤ |(unitsOf fmt n : ℝ) - r|) with h' | h'
      · exact .inl h'
      · exact .inr ⟨h', he⟩

/-- A number of units that is a magnitude has it as its nearest. -/
theorem isNearest_exact (fmt : Format) (m : Nat) : IsNearest fmt (unitsOf fmt m) m := by
  intro n
  by_cases h : n = m
  · subst h; exact .inr ⟨rfl, .inl rfl⟩
  · left
    have : unitsOf fmt n ≠ unitsOf fmt m := fun h' => h ((unitsOf_strictMono fmt).injective h')
    have : (unitsOf fmt n : ℝ) - unitsOf fmt m ≠ 0 := by
      rw [sub_ne_zero]; exact_mod_cast this
    simpa using this

/-- The nearest magnitude is one. -/
theorem IsNearest.unique {fmt : Format} {x : ℝ} {m n : Nat} (hm : IsNearest fmt x m) (hn : IsNearest fmt x n) :
    m = n := by
  wlog h : m ≤ n generalizing m n
  · exact (this hn hm (by omega)).symm
  by_contra hne
  have h1 := hm n
  have h2 := hn m
  rcases h1 with h1 | ⟨h1, e1⟩
  · rcases h2 with h2 | ⟨h2, -⟩ <;> linarith
  · have e1' : m % 2 = 0 := e1.resolve_left (fun h => hne h.symm)
    have e2' : n % 2 = 0 := by
      rcases h2 with h2 | ⟨-, e2⟩
      · linarith
      · exact e2.resolve_left hne
    have u1 : (unitsOf fmt m : ℝ) < unitsOf fmt (m + 1) := by exact_mod_cast unitsOf_strictMono fmt (by omega)
    have u2 : (unitsOf fmt (m + 1) : ℝ) < unitsOf fmt n := by
      exact_mod_cast unitsOf_strictMono fmt (by omega : m + 1 < n)
    have h3 := hm (m + 1)
    have h4 : |(unitsOf fmt (m + 1) : ℝ) - x| < |(unitsOf fmt m : ℝ) - x| := by
      rcases abs_cases ((unitsOf fmt m : ℝ) - x) with h | h <;> rcases abs_cases ((unitsOf fmt n : ℝ) - x) with h' | h' <;>
        rcases abs_cases ((unitsOf fmt (m + 1) : ℝ) - x) with k | k <;> linarith [h.1, h'.1, k.1]
    rcases h3 with h3 | ⟨h3, -⟩ <;> linarith

/-! ## Overflow -/

/-- A number of units overflows exactly where its nearest magnitude is past the finite ones. -/
theorem IsNearest.finite_iff {fmt : Format} {x : ℝ} {m : Nat} (h : IsNearest fmt x m) :
    m < infBits fmt ↔ x < 2 ^ (fmt.fracBits + 2 * fmt.bias) - 2 ^ (2 * fmt.bias - 2) := by
  have hi : 1 ≤ infBits fmt := by cases fmt <;> decide +kernel
  have hodd : (infBits fmt - 1) % 2 = 1 := by cases fmt <;> decide +kernel
  have uinf : (unitsOf fmt (infBits fmt) : ℝ) = 2 ^ (fmt.fracBits + 2 * fmt.bias) := by
    rw [unitsOf_infBits]; push_cast; rfl
  have umax : (unitsOf fmt (infBits fmt - 1) : ℝ) =
      2 ^ (fmt.fracBits + 2 * fmt.bias) - 2 * 2 ^ (2 * fmt.bias - 2) := by
    have h1 : unitsOf fmt (infBits fmt - 1) + 2 * 2 ^ (2 * fmt.bias - 2) = 2 ^ (fmt.fracBits + 2 * fmt.bias) := by
      cases fmt <;> decide +kernel
    have h2 : (unitsOf fmt (infBits fmt - 1) : ℝ) + 2 * 2 ^ (2 * fmt.bias - 2) = 2 ^ (fmt.fracBits + 2 * fmt.bias) := by
      exact_mod_cast h1
    linarith
  have hg : (0 : ℝ) < 2 ^ (2 * fmt.bias - 2) := by positivity
  generalize (2 : ℝ) ^ (fmt.fracBits + 2 * fmt.bias) = A at *
  generalize (2 : ℝ) ^ (2 * fmt.bias - 2) = B at *
  constructor
  · intro hm
    by_contra hx
    have hx' : A - B ≤ x := by linarith
    have um : (unitsOf fmt m : ℝ) ≤ A - 2 * B := by
      rw [← umax]; exact_mod_cast (unitsOf_strictMono fmt).monotone (by omega)
    have h1 := h (infBits fmt)
    rw [uinf, abs_of_nonpos (by linarith : (unitsOf fmt m : ℝ) - x ≤ 0)] at h1
    rcases h1 with h1 | ⟨h1, he⟩
    · rcases abs_cases (A - x) with h' | h' <;> linarith [h'.1]
    · rcases abs_cases (A - x) with h' | h'
      · have : (unitsOf fmt m : ℝ) = unitsOf fmt (infBits fmt - 1) := by linarith [h'.1]
        have : m = infBits fmt - 1 := (unitsOf_strictMono fmt).injective (by exact_mod_cast this)
        omega
      · linarith [h'.1]
  · intro hx
    by_contra hm
    have um : A ≤ (unitsOf fmt m : ℝ) := by
      rw [← uinf]; exact_mod_cast (unitsOf_strictMono fmt).monotone (by omega)
    have h1 := h (infBits fmt - 1)
    rw [umax, abs_of_nonneg (by linarith : 0 ≤ (unitsOf fmt m : ℝ) - x)] at h1
    have : A - x ≤ |A - 2 * B - x| := by
      rcases h1 with h1 | ⟨h1, -⟩ <;> linarith
    rcases abs_cases (A - 2 * B - x) with h' | h' <;> linarith [h'.1]

/-- The bound of 40_numerics.md R111 for a real number, in units. -/
theorem overflows_iff (fmt : Format) (r : ℝ) :
    ¬ Overflows fmt r ↔ |r| * 2 ^ fmt.unit < 2 ^ (fmt.fracBits + 2 * fmt.bias) - 2 ^ (2 * fmt.bias - 2) := by
  obtain ⟨k, hk⟩ : ∃ k, fmt.bias = k + 3 := ⟨fmt.bias - 3, by cases fmt <;> decide⟩
  have hu : fmt.unit = fmt.fracBits + 2 + k := by rw [Format.unit, hk]; omega
  have h1 : 2 * fmt.bias - 2 = (fmt.bias + 1) + k := by omega
  have h2 : fmt.fracBits + 2 * fmt.bias = (fmt.fracBits + 2) + (fmt.bias + 1) + k := by omega
  rw [Overflows, not_le, hu, h1, h2]
  generalize (fmt.bias + 1) = e
  generalize (fmt.fracBits + 2) = f
  have hp : (0 : ℝ) < 2 ^ k := by positivity
  rw [← mul_lt_mul_iff_left₀ hp, show |r| * 2 ^ f * 2 ^ k = |r| * 2 ^ (f + k) by rw [pow_add]; ring,
    show ((2 : ℝ) ^ f - 1) * 2 ^ e * 2 ^ k = 2 ^ (f + e + k) - 2 ^ (e + k) by simp only [pow_add]; ring]

/-! ## From units to real numbers -/

theorem realValue_makeF (fmt : Format) (neg : Bool) (m : Nat) (h : m < 2 ^ (fmt.width - 1)) :
    realValue fmt (makeF fmt neg m) = (if neg then -1 else 1) * (unitsOf fmt m : ℝ) / 2 ^ fmt.unit := by
  rw [realValue, signBit_makeF fmt neg m h, magUnits_eq, magBits_makeF fmt neg m h]

/-- The value with the sign of `r` and the magnitude nearest to that of `r` is RN(r). -/
theorem roundsTo_of_nearest (fmt : Format) (r : ℝ) (neg : Bool) (m : Nat) (hneg : neg = decide (r < 0))
    (hm : IsNearest fmt (|r| * 2 ^ fmt.unit) m) : RoundsTo fmt r (makeF fmt neg (min m (infBits fmt))) := by
  have hlt : min m (infBits fmt) < 2 ^ (fmt.width - 1) := Nat.lt_of_le_of_lt (Nat.min_le_right _ _) (infBits_lt fmt)
  have hU : (0 : ℝ) < 2 ^ fmt.unit := by positivity
  have hrx : r = (if neg then -1 else 1) * (|r| * 2 ^ fmt.unit) / 2 ^ fmt.unit := by
    subst hneg
    by_cases h : r < 0
    · simp only [h, decide_true, if_true]
      rw [abs_of_neg h]; field_simp
    · simp only [h, decide_false]
      rw [abs_of_nonneg (not_lt.1 h)]; simp
  have hfin : isFinite fmt (makeF fmt neg (min m (infBits fmt))) = true ↔ m < infBits fmt := by
    rw [isFinite, magBits_makeF _ _ _ hlt, decide_eq_true_eq]; omega
  have hx0 : 0 ≤ |r| * 2 ^ fmt.unit := by positivity
  refine ⟨fits_makeF _ _ _ hlt, ?_, ?_, ?_, ?_⟩
  · rw [isNaN, magBits_makeF _ _ _ hlt, decide_eq_false_iff_not]; omega
  · rw [signBit_makeF _ _ _ hlt, hneg]
  · intro hf w hw
    have hmi := hfin.1 hf
    rw [min_eq_left (Nat.le_of_lt hmi)] at hlt ⊢
    rw [realValue_makeF _ _ _ hlt, magBits_makeF _ _ _ hlt]
    have hw' : realValue fmt w = (if signBit fmt w then -1 else 1) * (unitsOf fmt (magBits fmt w) : ℝ) / 2 ^ fmt.unit := rfl
    rw [hw']
    generalize |r| * 2 ^ fmt.unit = x at *
    rw [hrx]
    have d1 : ∀ n : Nat, |(if neg then -1 else (1 : ℝ)) * (n : ℝ) / 2 ^ fmt.unit - (if neg then -1 else 1) * x / 2 ^ fmt.unit|
        = |(n : ℝ) - x| / 2 ^ fmt.unit := by
      intro n
      rw [show (if neg then -1 else (1 : ℝ)) * (n : ℝ) / 2 ^ fmt.unit - (if neg then -1 else 1) * x / 2 ^ fmt.unit =
        (if neg then -1 else (1 : ℝ)) * ((n : ℝ) - x) / 2 ^ fmt.unit by ring, abs_div, abs_mul, abs_of_pos hU]
      cases neg <;> simp
    rw [d1]
    by_cases hs : signBit fmt w = neg ∨ unitsOf fmt (magBits fmt w) = 0
    · have hw2 : (if signBit fmt w then -1 else (1 : ℝ)) * (unitsOf fmt (magBits fmt w) : ℝ) =
          (if neg then -1 else 1) * (unitsOf fmt (magBits fmt w) : ℝ) := by
        rcases hs with hs | hs
        · rw [hs]
        · rw [hs]; simp
      rw [hw2, d1]
      rcases hm (magBits fmt w) with h | ⟨h, he⟩
      · left; exact div_lt_div_of_pos_right h hU
      · right
        refine ⟨by rw [h], ?_⟩
        rcases he with he | he
        · left; rw [he]
        · exact .inr he
    · left
      push Not at hs
      have hpos : (0 : ℝ) < unitsOf fmt (magBits fmt w) := by
        exact_mod_cast Nat.pos_of_ne_zero hs.2
      have h0 : |(unitsOf fmt m : ℝ) - x| ≤ x := by
        have := hm 0
        rw [unitsOf_zero] at this
        push_cast at this
        rw [zero_sub, abs_neg, abs_of_nonneg hx0] at this
        rcases this with h | ⟨h, -⟩ <;> linarith
      have hopp : (if signBit fmt w then -1 else (1 : ℝ)) = -(if neg then -1 else 1) := by
        have := hs.1
        revert this
        cases signBit fmt w <;> cases neg <;> simp
      rw [hopp, show -(if neg then -1 else (1 : ℝ)) * (unitsOf fmt (magBits fmt w) : ℝ) / 2 ^ fmt.unit -
          (if neg then -1 else 1) * x / 2 ^ fmt.unit =
        (if neg then -1 else (1 : ℝ)) * (-(unitsOf fmt (magBits fmt w) + x)) / 2 ^ fmt.unit by ring, abs_div, abs_mul,
        abs_of_pos hU, abs_neg, abs_of_nonneg (by linarith : 0 ≤ (unitsOf fmt (magBits fmt w) : ℝ) + x)]
      apply div_lt_div_of_pos_right _ hU
      have : |(if neg then -1 else (1 : ℝ))| = 1 := by cases neg <;> simp
      rw [this]; linarith
  · rw [hfin, hm.finite_iff, overflows_iff]

/-- An infinity with the sign of a real number that overflows is its RN. -/
theorem roundsTo_inf (fmt : Format) (r : ℝ) (neg : Bool) (hneg : neg = decide (r < 0)) (h : Overflows fmt r) :
    RoundsTo fmt r (makeF fmt neg (infBits fmt)) := by
  have hlt := infBits_lt fmt
  have hf : isFinite fmt (makeF fmt neg (infBits fmt)) = false := by
    rw [isFinite, magBits_makeF _ _ _ hlt, decide_eq_false_iff_not]; omega
  refine ⟨fits_makeF _ _ _ hlt, ?_, ?_, ?_, ?_⟩
  · rw [isNaN, magBits_makeF _ _ _ hlt, decide_eq_false_iff_not]; omega
  · rw [signBit_makeF _ _ _ hlt, hneg]
  · rw [hf]; intro h'; cases h'
  · rw [hf]; simp [h]

/-- RN of a real number that lies between two numbers of units which round to one magnitude. -/
theorem roundsTo_of_between (fmt : Format) (r : ℝ) (neg : Bool) (n1 d1 n2 d2 : Nat) (hneg : neg = decide (r < 0))
    (h1 : 0 < d1) (h2 : 0 < d2) (hlo : (n1 : ℝ) / d1 ≤ |r| * 2 ^ fmt.unit) (hhi : |r| * 2 ^ fmt.unit ≤ (n2 : ℝ) / d2)
    (he : roundUnits fmt n1 d1 = roundUnits fmt n2 d2) : RoundsTo fmt r (makeF fmt neg (roundUnits fmt n1 d1)) := by
  have k1 := roundFree_nearest fmt n1 d1 h1
  have k2 := roundFree_nearest fmt n2 d2 h2
  rcases Nat.lt_or_ge (roundFree fmt n1 d1) (infBits fmt) with hm | hm
  · have hfree : roundFree fmt n2 d2 = roundFree fmt n1 d1 := by
      rw [roundUnits_eq, roundUnits_eq] at he; omega
    rw [hfree] at k2
    exact roundsTo_of_nearest fmt r neg _ hneg (k1.between k2 hlo hhi)
  · rw [roundUnits_eq, min_eq_right hm]
    apply roundsTo_inf fmt r neg hneg
    by_contra ho
    rw [overflows_iff] at ho
    have := k1.finite_iff.2 (lt_of_le_of_lt hlo ho)
    omega

/-- RN of a real number whose magnitude is at least that of one which rounds to an infinity. -/
theorem roundsTo_of_above (fmt : Format) (r : ℝ) (neg : Bool) (n d : Nat) (hneg : neg = decide (r < 0)) (h : 0 < d)
    (hlo : (n : ℝ) / d ≤ |r| * 2 ^ fmt.unit) (he : roundUnits fmt n d = infBits fmt) :
    RoundsTo fmt r (makeF fmt neg (infBits fmt)) := by
  apply roundsTo_inf fmt r neg hneg
  by_contra ho
  rw [overflows_iff] at ho
  have := (roundFree_nearest fmt n d h).finite_iff.2 (lt_of_le_of_lt hlo ho)
  rw [roundUnits_eq] at he
  omega

/-- RN of a real number whose magnitude is at most that of one which rounds to zero. -/
theorem roundsTo_of_below (fmt : Format) (r : ℝ) (neg : Bool) (n d : Nat) (hneg : neg = decide (r < 0)) (h : 0 < d)
    (hhi : |r| * 2 ^ fmt.unit ≤ (n : ℝ) / d) (he : roundUnits fmt n d = 0) : RoundsTo fmt r (makeF fmt neg 0) := by
  have hi : 1 ≤ infBits fmt := by cases fmt <;> decide +kernel
  have hz : IsNearest fmt 0 0 := by
    have := isNearest_exact fmt 0
    rw [unitsOf_zero] at this
    simpa using this
  have hn : roundFree fmt n d = 0 := by rw [roundUnits_eq] at he; omega
  have k := roundFree_nearest fmt n d h
  rw [hn] at k
  have := roundsTo_of_nearest fmt r neg 0 hneg (hz.between k (by positivity) hhi)
  simpa using this

/-- RN of an exact number of units. -/
theorem roundsTo_of_units (fmt : Format) (r : ℝ) (neg : Bool) (n d : Nat) (hneg : neg = decide (r < 0)) (h : 0 < d)
    (he : |r| * 2 ^ fmt.unit = (n : ℝ) / d) : RoundsTo fmt r (makeF fmt neg (roundUnits fmt n d)) :=
  roundsTo_of_between fmt r neg n d n d hneg h h he.ge he.le rfl

/-- A magnitude in units rounds to itself. -/
theorem roundUnits_exact (fmt : Format) (m n d : Nat) (hd : 0 < d) (hm : m ≤ infBits fmt) (h : n = unitsOf fmt m * d) :
    roundUnits fmt n d = m := by
  have k := roundFree_nearest fmt n d hd
  have hx : (n : ℝ) / d = unitsOf fmt m := by
    have : (d : ℝ) ≠ 0 := by positivity
    rw [h]; push_cast; field_simp
  rw [hx] at k
  rw [roundUnits_eq, k.unique (isNearest_exact fmt m), min_eq_left hm]

end Sys2Proof.Machine
end

