-- ==== Sys2Proof/Laws/Arithmetic.lean ====
section
/-! SUPPORT. What each class of operands gives: the classification of an encoding (40_numerics.md R110), and one equation for
each row of the special values (R114). -/

namespace Sys2Proof.Machine

/-! ## Classes -/

theorem isNaN_iff (fmt : Format) (a : F) : isNaN fmt a = true ↔ infBits fmt < magBits fmt a := decide_eq_true_iff
theorem isFinite_iff (fmt : Format) (a : F) : isFinite fmt a = true ↔ magBits fmt a < infBits fmt := decide_eq_true_iff
theorem isInf_iff (fmt : Format) (a : F) : isInf fmt a = true ↔ magBits fmt a = infBits fmt := decide_eq_true_iff
theorem isZero_iff (fmt : Format) (a : F) : isZero fmt a = true ↔ magBits fmt a = 0 := decide_eq_true_iff

theorem infBits_pos (fmt : Format) : 0 < infBits fmt := by cases fmt <;> decide +kernel

theorem classify_nan (fmt : Format) (a : F) (h : isNaN fmt a = true) : classify fmt a = .nan := by
  rw [classify, if_pos h]

theorem classify_fin (fmt : Format) (a : F) (h : isFinite fmt a = true) :
    classify fmt a = .fin (signBit fmt a) (magUnits fmt a) := by
  have hn : ¬ isNaN fmt a = true := by
    rw [isNaN_iff]; rw [isFinite_iff] at h; omega
  rw [classify, if_neg hn, if_pos h]

theorem classify_inf (fmt : Format) (a : F) (h : isInf fmt a = true) : classify fmt a = .inf (signBit fmt a) := by
  have hn : ¬ isNaN fmt a = true := by
    rw [isNaN_iff]; rw [isInf_iff] at h; omega
  have hf : ¬ isFinite fmt a = true := by
    rw [isFinite_iff]; rw [isInf_iff] at h; omega
  rw [classify, if_neg hn, if_neg hf]

/-- A value is a NaN, finite, or an infinity. -/
theorem class_cases (fmt : Format) (a : F) : isNaN fmt a = true ∨ isFinite fmt a = true ∨ isInf fmt a = true := by
  rw [isNaN_iff, isFinite_iff, isInf_iff]; omega

theorem finite_of_zero (fmt : Format) (a : F) (h : isZero fmt a = true) : isFinite fmt a = true := by
  have := infBits_pos fmt
  rw [isZero_iff] at h; rw [isFinite_iff]; omega

theorem magUnits_eq_zero (fmt : Format) (a : F) : magUnits fmt a = 0 ↔ isZero fmt a = true := by
  rw [magUnits_eq, unitsOf_eq_zero, isZero_iff]

theorem realValue_eq_zero (fmt : Format) (a : F) : realValue fmt a = 0 ↔ isZero fmt a = true := by
  rw [realValue, ← magUnits_eq_zero]
  have hp : (2 : ℝ) ^ fmt.unit ≠ 0 := by positivity
  rw [div_eq_zero_iff, or_iff_left hp, mul_eq_zero]
  constructor
  · rintro (h | h)
    · split at h <;> norm_num at h
    · exact_mod_cast h
  · intro h; right; exact_mod_cast h

/-- The sign and the magnitude of a real value. -/
theorem abs_realValue (fmt : Format) (a : F) : |realValue fmt a| * 2 ^ fmt.unit = magUnits fmt a := by
  have hp : (0 : ℝ) < 2 ^ fmt.unit := by positivity
  rw [realValue, abs_div, abs_mul, abs_of_pos hp]
  cases signBit fmt a <;> simp

theorem realValue_neg_iff (fmt : Format) (a : F) :
    realValue fmt a < 0 ↔ signBit fmt a = true ∧ isZero fmt a = false := by
  have hp : (0 : ℝ) < 2 ^ fmt.unit := by positivity
  have hz := magUnits_eq_zero fmt a
  rw [realValue]
  cases hs : signBit fmt a
  · simp only [Bool.false_eq_true, if_false, one_mul, false_and, iff_false, not_lt]
    positivity
  · simp only [if_true, true_and]
    rcases Nat.eq_zero_or_pos (magUnits fmt a) with h0 | h0
    · rw [hz.1 h0, h0]; simp
    · have hz' : isZero fmt a = false := by
        cases h : isZero fmt a
        · rfl
        · rw [hz.2 h] at h0; omega
      rw [hz']
      simp only [iff_true]
      have : (0 : ℝ) < magUnits fmt a := by exact_mod_cast h0
      exact div_neg_of_neg_of_pos (by linarith) hp

/-! ## Sign flips -/

theorem signBit_fneg (fmt : Format) (a : F) (h : fitsFormat fmt a = true) : signBit fmt (fneg fmt a) = !signBit fmt a := by
  have hm : magBits fmt a < 2 ^ (fmt.width - 1) := Nat.mod_lt _ (by positivity)
  rw [fneg_eq fmt a h, signBit_makeF _ _ _ hm]

theorem magBits_fneg (fmt : Format) (a : F) (h : fitsFormat fmt a = true) : magBits fmt (fneg fmt a) = magBits fmt a := by
  have hm : magBits fmt a < 2 ^ (fmt.width - 1) := Nat.mod_lt _ (by positivity)
  rw [fneg_eq fmt a h, magBits_makeF _ _ _ hm]

theorem isFinite_fneg (fmt : Format) (a : F) (h : fitsFormat fmt a = true) : isFinite fmt (fneg fmt a) = isFinite fmt a := by
  rw [isFinite, isFinite, magBits_fneg fmt a h]

theorem isNaN_fneg (fmt : Format) (a : F) (h : fitsFormat fmt a = true) : isNaN fmt (fneg fmt a) = isNaN fmt a := by
  rw [isNaN, isNaN, magBits_fneg fmt a h]

theorem isInf_fneg (fmt : Format) (a : F) (h : fitsFormat fmt a = true) : isInf fmt (fneg fmt a) = isInf fmt a := by
  rw [isInf, isInf, magBits_fneg fmt a h]

theorem realValue_fneg (fmt : Format) (a : F) (h : fitsFormat fmt a = true) :
    realValue fmt (fneg fmt a) = - realValue fmt a := by
  rw [realValue, realValue, magUnits_eq, magUnits_eq, magBits_fneg fmt a h, signBit_fneg fmt a h]
  cases signBit fmt a <;> simp [neg_div]

/-! ## NaN operands -/

theorem fadd_nan_left (c : Fp) (a b : F) (h : isNaN c.fmt a = true) : fadd c a b = drawNaN c := by
  rw [fadd, classify_nan _ _ h]

theorem fadd_nan_right (c : Fp) (a b : F) (h : isNaN c.fmt b = true) : fadd c a b = drawNaN c := by
  rw [fadd, classify_nan _ _ h]
  cases classify c.fmt a <;> rfl

theorem fmul_nan (c : Fp) (a b : F) (h : isNaN c.fmt a = true ∨ isNaN c.fmt b = true) : fmul c a b = drawNaN c := by
  rcases h with h | h
  · rw [fmul, classify_nan _ _ h]
  · rw [fmul, classify_nan _ _ h]
    cases classify c.fmt a <;> rfl

theorem fdiv_nan (c : Fp) (a b : F) (h : isNaN c.fmt a = true ∨ isNaN c.fmt b = true) : fdiv c a b = drawNaN c := by
  rcases h with h | h
  · rw [fdiv, classify_nan _ _ h]
  · rw [fdiv, classify_nan _ _ h]
    cases classify c.fmt a <;> rfl

/-! ## The operations on finite operands -/

theorem fadd_finite (c : Fp) (a b : F) (ha : isFinite c.fmt a = true) (hb : isFinite c.fmt b = true) :
    fadd c a b = addFinite c.fmt (signBit c.fmt a) (magUnits c.fmt a) (signBit c.fmt b) (magUnits c.fmt b) := by
  rw [fadd, classify_fin _ _ ha, classify_fin _ _ hb]

theorem fmul_finite (c : Fp) (a b : F) (ha : isFinite c.fmt a = true) (hb : isFinite c.fmt b = true) :
    fmul c a b = makeF c.fmt (signBit c.fmt a != signBit c.fmt b)
      (roundUnits c.fmt (magUnits c.fmt a * magUnits c.fmt b) (2 ^ c.fmt.unit)) := by
  rw [fmul, classify_fin _ _ ha, classify_fin _ _ hb]

theorem fdiv_finite (c : Fp) (a b : F) (ha : isFinite c.fmt a = true) (hb : isFinite c.fmt b = true)
    (hz : isZero c.fmt b = false) :
    fdiv c a b = makeF c.fmt (signBit c.fmt a != signBit c.fmt b)
      (roundUnits c.fmt (magUnits c.fmt a <<< c.fmt.unit) (magUnits c.fmt b)) := by
  have : magUnits c.fmt b ≠ 0 := by
    intro h
    rw [magUnits_eq_zero] at h
    rw [h] at hz; cases hz
  rw [fdiv, classify_fin _ _ ha, classify_fin _ _ hb]
  simp [this]

theorem roundUnits_zero (fmt : Format) (d : Nat) (hd : 0 < d) : roundUnits fmt 0 d = 0 :=
  roundUnits_exact fmt 0 0 d hd (Nat.zero_le _) (by rw [unitsOf_zero]; simp)

/-- A product with a zero is a zero of the sign of 40_numerics.md R114. -/
theorem fmul_zero (c : Fp) (a b : F) (ha : isFinite c.fmt a = true) (hb : isFinite c.fmt b = true)
    (h : isZero c.fmt a = true ∨ isZero c.fmt b = true) :
    fmul c a b = makeF c.fmt (signBit c.fmt a != signBit c.fmt b) 0 := by
  rw [fmul_finite c a b ha hb]
  have : magUnits c.fmt a * magUnits c.fmt b = 0 := by
    rcases h with h | h
    · rw [(magUnits_eq_zero _ _).2 h, Nat.zero_mul]
    · rw [(magUnits_eq_zero _ _).2 h, Nat.mul_zero]
  rw [this, roundUnits_zero _ _ (by positivity)]

theorem isZero_makeF_zero (fmt : Format) (s : Bool) : isZero fmt (makeF fmt s 0) = true := by
  rw [isZero_iff, magBits_makeF _ _ _ (by positivity)]

/-- A sum of zeros is a zero. -/
theorem isZero_fadd (c : Fp) (a b : F) (ha : isZero c.fmt a = true) (hb : isZero c.fmt b = true) :
    isZero c.fmt (fadd c a b) = true := by
  rw [fadd_finite c a b (finite_of_zero _ _ ha) (finite_of_zero _ _ hb), (magUnits_eq_zero _ _).2 ha,
    (magUnits_eq_zero _ _).2 hb, addFinite]
  split
  · rw [roundUnits_zero _ _ (by decide)]; exact isZero_makeF_zero _ _
  · rw [if_pos rfl]; cases c.fmt <;> decide +kernel

/-- A difference of zeros is a zero. -/
theorem isZero_fsub (c : Fp) (a b : F) (ha : isZero c.fmt a = true) (hb : isZero c.fmt b = true)
    (hf : fitsFormat c.fmt b = true) : isZero c.fmt (fsub c a b) = true := by
  refine isZero_fadd c a _ ha ?_
  rw [isZero_iff, magBits_fneg _ _ hf]
  exact (isZero_iff _ _).1 hb

/-! ## What a result can be -/

/-- The top fraction bit of a drawn NaN is 1 (40_numerics.md R110, R115). -/
theorem quiet_makeF (fmt : Format) (neg : Bool) (n : Nat) :
    (makeF fmt neg (infBits fmt + 2 ^ (fmt.fracBits - 1) + n % 2 ^ (fmt.fracBits - 1))).getLsbD (fmt.fracBits - 1) = true := by
  have h := nan_bounds fmt n
  have hm : n % 2 ^ (fmt.fracBits - 1) < 2 ^ (fmt.fracBits - 1) := Nat.mod_lt _ (by positivity)
  rw [BitVec.getLsbD, toNat_makeF _ _ _ h]
  rw [Nat.testBit_eq_decide_div_mod_eq]
  have k : ∃ q, infBits fmt = 2 * q * 2 ^ (fmt.fracBits - 1) := ⟨2 ^ fmt.expBits - 1, by cases fmt <;> decide +kernel⟩
  have k2 : ∃ q, 2 ^ (fmt.width - 1) = 2 * q * 2 ^ (fmt.fracBits - 1) := ⟨2 ^ fmt.expBits, by cases fmt <;> decide +kernel⟩
  obtain ⟨q, hq⟩ := k
  obtain ⟨q2, hq2⟩ := k2
  have hp : 0 < 2 ^ (fmt.fracBits - 1) := by positivity
  rw [hq, hq2]
  generalize 2 ^ (fmt.fracBits - 1) = P at *
  generalize n % P = r at *
  have : ∃ z, (2 * q * P + P + r + if neg = true then 2 * q2 * P else 0) = r + P * (2 * z + 1) := by
    cases neg
    · exact ⟨q, by simp; ring⟩
    · exact ⟨q + q2, by simp; ring⟩
  obtain ⟨z, hz⟩ := this
  rw [hz, Nat.add_mul_div_left _ _ hp, Nat.div_eq_of_lt hm]
  simp

theorem quiet_drawNaN (c : Fp) : (drawNaN c).getLsbD (c.fmt.fracBits - 1) = true := quiet_makeF _ _ _

/-- No magnitude up to an infinity is a NaN. -/
theorem isNaN_makeF (fmt : Format) (s : Bool) (m : Nat) (h : m ≤ infBits fmt) : isNaN fmt (makeF fmt s m) = false := by
  have := infBits_lt fmt
  rw [isNaN, magBits_makeF _ _ _ (by omega), decide_eq_false_iff_not]; omega

/-- A sum is a drawn NaN or a value up to an infinity. -/
theorem fadd_shape (c : Fp) (a b : F) :
    fadd c a b = drawNaN c ∨ ∃ s m, m ≤ infBits c.fmt ∧ fadd c a b = makeF c.fmt s m := by
  have z : fzero = makeF c.fmt false 0 := by cases c.fmt <;> decide +kernel
  unfold fadd
  split
  · exact .inl rfl
  · exact .inl rfl
  · split
    · exact .inr ⟨_, _, le_refl _, rfl⟩
    · exact .inl rfl
  · exact .inr ⟨_, _, le_refl _, rfl⟩
  · exact .inr ⟨_, _, le_refl _, rfl⟩
  · right
    unfold addFinite
    split
    · exact ⟨_, _, roundUnits_le _ _ _, rfl⟩
    · split
      · exact ⟨_, _, Nat.zero_le _, z⟩
      · split
        · exact ⟨_, _, roundUnits_le _ _ _, rfl⟩
        · exact ⟨_, _, roundUnits_le _ _ _, rfl⟩

/-- A product is a drawn NaN or has the sign of 40_numerics.md R114. -/
theorem fmul_shape (c : Fp) (a b : F) : fmul c a b = drawNaN c ∨
    (isNaN c.fmt a = false ∧ isNaN c.fmt b = false ∧
      ∃ m, m ≤ infBits c.fmt ∧ fmul c a b = makeF c.fmt (signBit c.fmt a != signBit c.fmt b) m) := by
  rcases class_cases c.fmt a with h | h | h
  · exact .inl (fmul_nan _ _ _ (.inl h))
  · rcases class_cases c.fmt b with k | k | k
    · exact .inl (fmul_nan _ _ _ (.inr k))
    · right
      refine ⟨?_, ?_, _, roundUnits_le _ _ _, fmul_finite _ _ _ h k⟩ <;> rw [isNaN, decide_eq_false_iff_not] 
      · rw [isFinite_iff] at h; omega
      · rw [isFinite_iff] at k; omega
    · by_cases hz : magUnits c.fmt a = 0
      · left; rw [fmul, classify_fin _ _ h, classify_inf _ _ k]; simp [hz]
      · right
        refine ⟨?_, ?_, infBits c.fmt, le_refl _, ?_⟩
        · rw [isNaN, decide_eq_false_iff_not]; rw [isFinite_iff] at h; omega
        · rw [isNaN, decide_eq_false_iff_not]; rw [isInf_iff] at k; omega
        · rw [fmul, classify_fin _ _ h, classify_inf _ _ k]; simp [hz]
  · rcases class_cases c.fmt b with k | k | k
    · exact .inl (fmul_nan _ _ _ (.inr k))
    · by_cases hz : magUnits c.fmt b = 0
      · left; rw [fmul, classify_inf _ _ h, classify_fin _ _ k]; simp [hz]
      · right
        refine ⟨?_, ?_, infBits c.fmt, le_refl _, ?_⟩
        · rw [isNaN, decide_eq_false_iff_not]; rw [isInf_iff] at h; omega
        · rw [isNaN, decide_eq_false_iff_not]; rw [isFinite_iff] at k; omega
        · rw [fmul, classify_inf _ _ h, classify_fin _ _ k]; simp [hz]
    · right
      refine ⟨?_, ?_, infBits c.fmt, le_refl _, ?_⟩
      · rw [isNaN, decide_eq_false_iff_not]; rw [isInf_iff] at h; omega
      · rw [isNaN, decide_eq_false_iff_not]; rw [isInf_iff] at k; omega
      · rw [fmul, classify_inf _ _ h, classify_inf _ _ k]

/-- A quotient is a drawn NaN or has the sign of 40_numerics.md R114. -/
theorem fdiv_shape (c : Fp) (a b : F) : fdiv c a b = drawNaN c ∨
    ∃ m, m ≤ infBits c.fmt ∧ fdiv c a b = makeF c.fmt (signBit c.fmt a != signBit c.fmt b) m := by
  rcases class_cases c.fmt a with h | h | h
  · exact .inl (fdiv_nan _ _ _ (.inl h))
  · rcases class_cases c.fmt b with k | k | k
    · exact .inl (fdiv_nan _ _ _ (.inr k))
    · rw [fdiv, classify_fin _ _ h, classify_fin _ _ k]
      dsimp only
      split
      · split
        · exact .inl rfl
        · exact .inr ⟨_, le_refl _, rfl⟩
      · exact .inr ⟨_, roundUnits_le _ _ _, rfl⟩
    · right
      rw [fdiv, classify_fin _ _ h, classify_inf _ _ k]
      exact ⟨_, Nat.zero_le _, rfl⟩
  · rcases class_cases c.fmt b with k | k | k
    · exact .inl (fdiv_nan _ _ _ (.inr k))
    · right
      rw [fdiv, classify_inf _ _ h, classify_fin _ _ k]
      exact ⟨_, le_refl _, rfl⟩
    · left
      rw [fdiv, classify_inf _ _ h, classify_inf _ _ k]

/-! ## Comparisons -/

/-- `orderKey` orders finite values as their real values are ordered. -/
theorem realValue_lt_iff (fmt : Format) (a b : F) :
    (realValue fmt a < realValue fmt b ↔ orderKey fmt a < orderKey fmt b) := by
  have hp : (0 : ℝ) < 2 ^ fmt.unit := by positivity
  rw [realValue, realValue, div_lt_div_iff_of_pos_right hp, orderKey, orderKey, magUnits_eq, magUnits_eq]
  have mono := unitsOf_strictMono fmt
  generalize magBits fmt a = m
  generalize magBits fmt b = n
  have hlt : ∀ p q : Nat, ((unitsOf fmt p : ℝ) < unitsOf fmt q ↔ p < q) := by
    intro p q; rw [Nat.cast_lt]; exact mono.lt_iff_lt
  have hz := unitsOf_zero fmt
  cases signBit fmt a <;> cases signBit fmt b <;> simp
  · exact mono.lt_iff_lt
  · constructor
    · intro h
      have : (0 : ℝ) ≤ unitsOf fmt m := by positivity
      have : (0 : ℝ) ≤ unitsOf fmt n := by positivity
      linarith
    · intro h; omega
  · constructor
    · intro h
      have : unitsOf fmt m ≠ 0 ∨ unitsOf fmt n ≠ 0 := by
        by_contra h'; push Not at h'
        rw [h'.1, h'.2] at h; simp at h
      rcases this with h' | h' <;> rw [Ne, unitsOf_eq_zero] at h' <;> omega
    · intro h
      have : unitsOf fmt m ≠ 0 ∨ unitsOf fmt n ≠ 0 := by
        rw [Ne, Ne, unitsOf_eq_zero, unitsOf_eq_zero]; omega
      rcases this with h' | h'
      · have : (0 : ℝ) < unitsOf fmt m := by exact_mod_cast Nat.pos_of_ne_zero h'
        have : (0 : ℝ) ≤ unitsOf fmt n := by positivity
        linarith
      · have : (0 : ℝ) < unitsOf fmt n := by exact_mod_cast Nat.pos_of_ne_zero h'
        have : (0 : ℝ) ≤ unitsOf fmt m := by positivity
        linarith
  · exact mono.lt_iff_lt

theorem flt_iff (fmt : Format) (a b : F) :
    flt fmt a b = true ↔ isNaN fmt a = false ∧ isNaN fmt b = false ∧ orderKey fmt a < orderKey fmt b := by
  simp [flt, and_assoc]

theorem orderKey_makeF (fmt : Format) (s : Bool) (m : Nat) (h : m < 2 ^ (fmt.width - 1)) :
    orderKey fmt (makeF fmt s m) = if s then -(m : Int) else m := by
  rw [orderKey, signBit_makeF _ _ _ h, magBits_makeF _ _ _ h]

end Sys2Proof.Machine
end

