-- ==== Sys2Proof/Laws/Decode.lean ====
section
/-! SUPPORT. The fields of a command word: a word is its three fields, and the fields of an encoded command are those of
30_encoding.md R90 and R92. -/

namespace Sys2Proof

/-- A word is its fields, one behind the other. -/
theorem fields_append (w : Word) : fieldRsv w ++ (fieldCh w ++ fieldOpc w) = w := by
  apply BitVec.eq_of_getLsbD_eq
  intro i hi
  simp only [fieldRsv, fieldCh, fieldOpc, BitVec.getLsbD_append, BitVec.getLsbD_extractLsb']
  split
  · split
    · rename_i h; simp [h]
    · rename_i h; rw [show 8 + (i - 8) = i by omega]; simp; omega
  · rename_i h; rw [show 16 + (i - (8 + 8)) = i by omega]; simp; omega

theorem fieldRsv_append (r : BitVec 16) (c o : BitVec 8) : fieldRsv (r ++ (c ++ o)) = r := by
  apply BitVec.eq_of_getLsbD_eq
  intro i hi
  simp only [fieldRsv, BitVec.getLsbD_extractLsb', hi, decide_true, Bool.true_and]
  refine (BitVec.getLsbD_append).trans ?_
  rw [if_neg (by omega), Nat.add_sub_cancel_left]

theorem fieldCh_append (r : BitVec 16) (c o : BitVec 8) : fieldCh (r ++ (c ++ o)) = c := by
  apply BitVec.eq_of_getLsbD_eq
  intro i hi
  simp only [fieldCh, BitVec.getLsbD_extractLsb', hi, decide_true, Bool.true_and]
  refine (BitVec.getLsbD_append).trans ((if_pos (by omega)).trans ((BitVec.getLsbD_append).trans ?_))
  rw [if_neg (by omega), Nat.add_sub_cancel_left]

theorem fieldOpc_append (r : BitVec 16) (c o : BitVec 8) : fieldOpc (r ++ (c ++ o)) = o := by
  apply BitVec.eq_of_getLsbD_eq
  intro i hi
  simp only [fieldOpc, BitVec.getLsbD_extractLsb', hi, decide_true, Bool.true_and, Nat.zero_add]
  exact (BitVec.getLsbD_append).trans ((if_pos (by omega)).trans ((BitVec.getLsbD_append).trans (if_pos hi)))

@[simp] theorem fieldRsv_encode (i : Instr) : fieldRsv (encode i) = 0 := fieldRsv_append _ _ _
@[simp] theorem fieldCh_encode (i : Instr) : fieldCh (encode i) = i.chField := fieldCh_append _ _ _
@[simp] theorem fieldOpc_encode (i : Instr) : fieldOpc (encode i) = i.opc := fieldOpc_append _ _ _

/-- `noChannel` accepts exactly a zero CH. -/
theorem noChannel_ok {ch : BitVec 8} {i j : Instr} : noChannel ch i = .ok j ↔ ch = 0 ∧ i = j := by
  unfold noChannel
  split <;> simp_all

/-- A word decodes at `u` exactly if RSV is 0, the opcode map gives the command, and the command is of `u`. -/
theorem decode_ok {u : UnitId} {w : Word} {i : Instr} :
    decode u w = .ok i ↔ fieldRsv w = 0 ∧ decodeOpcode (fieldOpc w) (fieldCh w) = .ok i ∧ i.unit = u := by
  unfold decode
  split
  · split
    · split
      · simp_all
        intro h; subst h; assumption
      · simp_all
        intro h; subst h; assumption
    · simp_all
  · simp_all

end Sys2Proof
end

