-- ==== Sys2Proof/Laws/Fft.lean ====
section
/-! SUPPORT. The transform: the lengths of its parts, its elements one by one (41_fft.md R144, R145), and that every element fits the
format. -/

namespace Sys2Proof.Machine

/-! ## The split by index parity -/

theorem evens_getElem? (x : List Cplx) (i : Nat) : (evens x)[i]? = x[2 * i]? := by
  induction x using evens.induct generalizing i with
  | case1 => simp [evens]
  | case2 x => cases i with
    | zero => rfl
    | succ i => simp [evens, Nat.mul_add]
  | case3 x y xs ih =>
    cases i with
    | zero => rfl
    | succ i => simpa [evens, Nat.mul_add] using ih i

theorem odds_getElem? (x : List Cplx) (i : Nat) : (odds x)[i]? = x[2 * i + 1]? := by
  rw [odds, evens_getElem?, List.getElem?_tail]

theorem evens_length (x : List Cplx) : (evens x).length = (x.length + 1) / 2 := by
  induction x using evens.induct with
  | case1 => simp [evens]
  | case2 x => simp [evens]
  | case3 x y xs ih => simp [evens, ih]; omega

theorem odds_length (x : List Cplx) : (odds x).length = x.length / 2 := by
  rw [odds, evens_length, List.length_tail]
  rcases Nat.eq_zero_or_pos x.length with h | h
  · rw [h]
  · rw [Nat.sub_add_cancel h]

/-! ## The butterflies -/

theorem butterflies_length (c : Fp) (w : Nat → Cplx) (i : Nat) (es os : List Cplx) :
    (butterflies c w i es os).length = min es.length os.length := by
  induction es generalizing i os with
  | nil => simp [butterflies]
  | cons e es ih =>
    cases os with
    | nil => simp [butterflies]
    | cons o os => simp [butterflies, ih, Nat.add_min_add_right]

theorem butterflies_getElem? (c : Fp) (w : Nat → Cplx) (i n : Nat) (es os : List Cplx) (e o : Cplx)
    (he : es[n]? = some e) (ho : os[n]? = some o) :
    (butterflies c w i es os)[n]? =
      some (cadd ((c.at (i + n)).at 1) e (cmul ((c.at (i + n)).at 0) o (w (i + n))),
        csub ((c.at (i + n)).at 2) e (cmul ((c.at (i + n)).at 0) o (w (i + n)))) := by
  induction es generalizing i n os with
  | nil => simp at he
  | cons e' es ih =>
    cases os with
    | nil => simp at ho
    | cons o' os =>
      cases n with
      | zero =>
        simp only [List.getElem?_cons_zero, Option.some.injEq] at he ho
        subst he; subst ho
        simp [butterflies]
      | succ n =>
        simp only [List.getElem?_cons_succ] at he ho
        have := ih (i + 1) n os he ho
        rw [show i + 1 + n = i + (n + 1) by omega] at this
        simpa [butterflies] using this

theorem joinHalves_length (bs : List (Cplx × Cplx)) : (joinHalves bs).length = 2 * bs.length := by
  simp [joinHalves]; omega

theorem joinHalves_low (bs : List (Cplx × Cplx)) (i : Nat) (b : Cplx × Cplx) (h : bs[i]? = some b) :
    (joinHalves bs)[i]? = some b.1 := by
  have hi : i < bs.length := (List.getElem?_eq_some_iff.1 h).1
  rw [joinHalves, List.getElem?_append_left (by simpa using hi), List.getElem?_map, h]
  rfl

theorem joinHalves_high (bs : List (Cplx × Cplx)) (i : Nat) (b : Cplx × Cplx) (h : bs[i]? = some b) :
    (joinHalves bs)[i + bs.length]? = some b.2 := by
  rw [joinHalves, List.getElem?_append_right (by simp), List.length_map, Nat.add_sub_cancel, List.getElem?_map, h]
  rfl

/-! ## The recursion -/

/-- A transform of `2^j` elements has `2^j` elements. -/
theorem fftRec_length (c : Fp) (b : Build) (dir : Direction) (j : Nat) (x : List Cplx) (h : x.length = 2 ^ j) :
    (fftRec c b dir j x).length = 2 ^ j := by
  induction j using Nat.strong_induction_on generalizing c x with
  | _ j ih =>
  match j with
  | 0 => rfl
  | 1 => rfl
  | j + 2 =>
    have he : (evens x).length = 2 ^ (j + 1) := by rw [evens_length, h, pow_succ 2 (j + 1)]; omega
    have ho : (odds x).length = 2 ^ (j + 1) := by rw [odds_length, h, pow_succ 2 (j + 1)]; omega
    rw [fftRec, joinHalves_length, butterflies_length, ih (j + 1) (by omega) (c.at 1) _ he, ih (j + 1) (by omega) (c.at 2) _ ho, Nat.min_self]
    ring

theorem Cplx.fits_getD (fmt : Format) (x : List Cplx) (i : Nat) (h : ∀ z ∈ x, Cplx.Fits fmt z) :
    Cplx.Fits fmt (x.getD i czero) := by
  rw [List.getD_eq_getElem?_getD]
  cases hx : x[i]? with
  | none => exact fits_czero fmt
  | some z => exact h z (List.mem_of_getElem? hx)

theorem butterflies_fits (c : Fp) (w : Nat → Cplx) (i : Nat) (es os : List Cplx) (p : Cplx × Cplx)
    (h : p ∈ butterflies c w i es os) : Cplx.Fits c.fmt p.1 ∧ Cplx.Fits c.fmt p.2 := by
  induction es generalizing i os with
  | nil => simp [butterflies] at h
  | cons e es ih =>
    cases os with
    | nil => simp [butterflies] at h
    | cons o os =>
      simp only [butterflies] at h
      rcases List.mem_cons.1 h with rfl | h
      · exact ⟨fits_cadd ((c.at i).at 1) _ _, fits_csub ((c.at i).at 2) _ _⟩
      · exact ih _ _ h

/-- Every element of a transform fits the format, where the input's elements do. -/
theorem fftRec_fits (c : Fp) (b : Build) (dir : Direction) (j : Nat) (x : List Cplx)
    (h : ∀ z ∈ x, Cplx.Fits c.fmt z) : ∀ z ∈ fftRec c b dir j x, Cplx.Fits c.fmt z := by
  intro z hz
  match j with
  | 0 =>
    simp only [fftRec, List.mem_singleton] at hz
    rw [hz]; exact Cplx.fits_getD _ _ _ h
  | 1 =>
    simp only [fftRec, List.mem_cons, List.not_mem_nil, or_false] at hz
    rcases hz with rfl | rfl
    · exact fits_cadd (c.at 0) _ _
    · exact fits_csub (c.at 1) _ _
  | j + 2 =>
    simp only [fftRec, joinHalves, List.mem_append, List.mem_map] at hz
    rcases hz with ⟨p, hp, rfl⟩ | ⟨p, hp, rfl⟩
    · exact (butterflies_fits (c.at 0) _ _ _ _ p hp).1
    · exact (butterflies_fits (c.at 0) _ _ _ _ p hp).2

/-! ## Sizes -/

theorem isPow2_iff (n : Nat) : isPow2 n = true ↔ ∃ j, n = 2 ^ j := by
  rw [isPow2, decide_eq_true_eq]
  constructor
  · intro h; exact ⟨_, h⟩
  · rintro ⟨j, rfl⟩; rw [Nat.log2_two_pow]

/-- The check of an FFT command's size, by what it means (41_fft.md R140). -/
theorem fftSizeError_none (b : Build) (n : Word) (h : PowerOfTwo n.toNat) (hf : n.toNat ≤ b.nrom) :
    fftSizeError b n = none := by
  rw [fftSizeError, if_pos ((isPow2_iff _).2 h), if_pos (by simpa [fitsRom] using hf)]

theorem fftSizeError_size (b : Build) (n : Word) (h : ¬ PowerOfTwo n.toNat) : fftSizeError b n = some .fftSize := by
  rw [fftSizeError, if_neg (fun h' => h ((isPow2_iff _).1 h'))]

theorem fftSizeError_capacity (b : Build) (n : Word) (h : PowerOfTwo n.toNat) (hf : b.nrom < n.toNat) :
    fftSizeError b n = some .fftCapacity := by
  rw [fftSizeError, if_pos ((isPow2_iff _).2 h), if_neg (by simpa [fitsRom] using hf)]

theorem grownMaxSize_toNat (m n : Word) : (grownMaxSize m n).toNat = max m.toNat n.toNat := by
  unfold grownMaxSize
  split <;> omega

/-- The output of a transform: as many elements as the size, each fitting the format. -/
theorem State.transformOutput_length (s : State) (dir : Direction) (j : Nat) (h : s.fftArg.toNat = 2 ^ j) :
    (s.transformOutput dir).length = 2 ^ j := by
  rw [State.transformOutput, h, Nat.log2_two_pow]
  exact fftRec_length _ _ _ _ _ (by rw [State.fftInput, Memory.cplxs_length])

theorem Memory.cplxs_fits (fmt : Format) (e : Nat) (m : Memory) (x n : Nat) :
    ∀ z ∈ Memory.cplxs fmt e m x n, Cplx.Fits fmt z := by
  induction n generalizing x with
  | zero => simp [Memory.cplxs]
  | succ n ih =>
    intro z hz
    rcases List.mem_cons.1 hz with rfl | hz
    · exact Memory.cplx_fits _ _ _ _
    · exact ih _ z hz

theorem State.transformOutput_fits (s : State) (dir : Direction) :
    ∀ z ∈ s.transformOutput dir, Cplx.Fits s.build.fmt z :=
  fftRec_fits s.fftFp _ _ _ _ (Memory.cplxs_fits _ _ _ _ _)

end Sys2Proof.Machine
end

