-- ==== Sys2Proof/Laws/Frames.lean ====
section
/-! SUPPORT. What the shared operations leave as it was, byte by byte of the block: from the frame of a command to the bytes
that the port shows, and the whole effect of a command error. -/

namespace Sys2Proof.Machine

theorem wordInElement_mod (imag high : Bool) : wordInElement imag high % 4 = 0 := by cases imag <;> cases high <;> decide

/-- A command of the FFT unit changes no byte outside FFT_STATUS, FFT_MAXSIZE and the first `n` elements of FFT_OUT, if it changes
no word of FFT_OUT behind them. -/
theorem FftFrame.byteAt_eq {s t : State} (f : FftFrame s t) (n : Nat)
    (ho : ∀ y, y + 4 ≤ fftOutBase ∨ fftOutBase + 16 * n ≤ y →
      Memory.word s.epoch t.fft.outBuf y = Memory.word s.epoch s.fft.outBuf y)
    {x : Nat} (h1 : ¬ inSpan 0x000004 4 x) (h2 : t.fft.maxSize = s.fft.maxSize ∨ ¬ inSpan 0x00000C 4 x)
    (h3 : ¬ inSpan fftOutBase (16 * n) x) : t.byteAt x = s.byteAt x := by
  obtain ⟨hc, ha, hi, hh, hp⟩ := f
  refine byteAt_congr hp.build fun l hm k1 k2 => ?_
  simp only [inSpan] at h1 h2 h3
  cases l with
  | fftCmd => exact hc
  | fftStatus => simp only [Loc.offset] at k1 k2; omega
  | fftArg => exact ha
  | fftMaxSize =>
    rcases h2 with h2 | h2
    · exact h2
    · simp only [Loc.offset] at k1 k2; omega
  | fftParams => simp only [State.readLoc, hp.build]
  | hbCmd => simp only [State.readLoc, hh]
  | hbStatus => simp only [State.readLoc, State.status, hh]
  | hbNchan => simp only [State.readLoc, hh]
  | hbParams => simp only [State.readLoc, hp.build]
  | hbChannels => simp only [State.readLoc, hh]
  | hbSlot r hi => cases r <;> simp only [State.readLoc, State.slot, hh, hp.build]
  | table t i im hi => cases t <;> simp only [State.readLoc, State.table, hh, hp.build]
  | channel c i im hi => simp only [State.readLoc, hh, hp.epoch]
  | tw k im hi => simp only [State.readLoc, hp.build]
  | fftIn k im high => simp only [State.readLoc, hi, hp.epoch]
  | fftOut k im high =>
    simp only [State.readLoc, hp.epoch]
    apply ho
    have := wordInElement_lt im high
    have := wordInElement_mod im high
    simp only [Loc.offset, fftOutBase] at *
    omega

/-- A command of the HB unit changes no byte outside HB_STATUS, HB_CHANNELS, the output slots, HB_FFACTOR and HB_SDIRECT, SCOEFF and
SPOLE, and STATE, each named with what spares it. -/
theorem HbFrame.byteAt_eq {s t : State} (f : HbFrame s t) {x : Nat} (h1 : ¬ inSpan 0x000104 4 x)
    (hch : t.hb.channels = s.hb.channels ∨ ¬ inSpan 0x000110 4 x)
    (hy : (t.hb.yre = s.hb.yre ∧ t.hb.yim = s.hb.yim) ∨ ¬ inSpan 0x000140 16 x)
    (hf : (t.hb.ffactor = s.hb.ffactor ∧ t.hb.sdirect = s.hb.sdirect) ∨ ¬ inSpan 0x000150 16 x)
    (ht : (t.hb.scoeff = s.hb.scoeff ∧ t.hb.spole = s.hb.spole) ∨ ¬ inSpan 0x001200 0x200 x)
    (hs : ∀ c i im hi, c < s.build.maxChannels → i < order → Loc.offset (.channel c i im hi) ≤ x →
      x < Loc.offset (.channel c i im hi) + 4 →
      Memory.word s.epoch t.hb.state (Loc.offset (.channel c i im hi)) =
        Memory.word s.epoch s.hb.state (Loc.offset (.channel c i im hi))) :
    t.byteAt x = s.byteAt x := by
  obtain ⟨fc, fn, fr, fg, fx, fi, ff, hp⟩ := f
  refine byteAt_congr hp.build fun l hm k1 k2 => ?_
  simp only [inSpan] at *
  cases l with
  | fftCmd => simp only [State.readLoc, ff]
  | fftStatus => simp only [State.readLoc, State.status, ff]
  | fftArg => simp only [State.readLoc, ff]
  | fftMaxSize => simp only [State.readLoc, ff]
  | fftParams => simp only [State.readLoc, hp.build]
  | hbCmd => exact fc
  | hbStatus => simp only [Loc.offset] at k1 k2; omega
  | hbNchan => exact fn
  | hbParams => simp only [State.readLoc, hp.build]
  | hbChannels =>
    rcases hch with h | h
    · exact h
    · simp only [Loc.offset] at k1 k2; omega
  | hbSlot r high =>
    have hw : (if high = true then 4 else 0) ≤ 4 := by split <;> decide
    cases r <;> simp only [State.readLoc, State.slot, fr, fg, fx, fi, hp.build]
    · rcases hy with h | h
      · rw [h.1]
      · simp only [Loc.offset, HbSlot.index] at k1 k2; omega
    · rcases hy with h | h
      · rw [h.2]
      · simp only [Loc.offset, HbSlot.index] at k1 k2; omega
    · rcases hf with h | h
      · rw [h.1]
      · simp only [Loc.offset, HbSlot.index] at k1 k2; omega
    · rcases hf with h | h
      · rw [h.2]
      · simp only [Loc.offset, HbSlot.index] at k1 k2; omega
  | table w i im high =>
    have hi : i < 12 := hm.1
    have hw := wordInElement_lt im high
    cases w <;> simp only [State.readLoc, State.table, hp.build]
    · rcases ht with h | h
      · rw [h.1]
      · simp only [Loc.offset, HbTable.index] at k1 k2; omega
    · rcases ht with h | h
      · rw [h.2]
      · simp only [Loc.offset, HbTable.index] at k1 k2; omega
  | channel c i im high =>
    simp only [State.readLoc, hp.epoch]
    exact hs c i im high hm.1 hm.2.1 k1 k2
  | tw k im hi => simp only [State.readLoc, hp.build]
  | fftIn k im high => simp only [State.readLoc, ff, hp.epoch]
  | fftOut k im high => simp only [State.readLoc, ff, hp.epoch]

/-- What `raise CmdError(e)` of the FFT unit does: all of it. -/
theorem State.cmdError_fft_spec (s : State) (e : ECode) : FftCommandError e s (s.cmdError e .fft) := by
  have f : FftFrame s (s.cmdError e .fft) := ⟨rfl, rfl, rfl, rfl, ⟨rfl, rfl, rfl, rfl, rfl⟩⟩
  refine ⟨rfl, rfl, rfl, rfl, f, fun x hx => ?_⟩
  exact f.byteAt_eq 0 (fun _ _ => rfl) hx (.inl rfl) (by simp [inSpan])

/-- What `raise CmdError(e)` of the HB unit does: all of it. -/
theorem State.cmdError_hb_spec (s : State) (e : ECode) : HbCommandError e s (s.cmdError e .hb) := by
  have f : HbFrame s (s.cmdError e .hb) := ⟨rfl, rfl, rfl, rfl, rfl, rfl, rfl, ⟨rfl, rfl, rfl, rfl, rfl⟩⟩
  refine ⟨rfl, rfl, rfl, rfl, rfl, ⟨rfl, rfl, rfl, rfl, rfl⟩, f, fun x hx => ?_⟩
  exact f.byteAt_eq hx (.inl rfl) (.inl ⟨rfl, rfl⟩) (.inl ⟨rfl, rfl⟩) (.inl ⟨rfl, rfl⟩) fun _ _ _ _ _ _ _ _ => rfl

/-- What `raise CmdError(e)` of a unit does. -/
theorem State.cmdError_spec (s : State) (u : UnitId) (e : ECode) : CommandError u e s (s.cmdError e u) := by
  cases u
  · exact s.cmdError_fft_spec e
  · exact s.cmdError_hb_spec e

end Sys2Proof.Machine
end

