-- ==== Sys2Proof/Laws/Hilbert.lean ====
section
/-! SUPPORT. The HB unit's computations: their results element by element, that they fit the format, and the checks of its commands
by what they mean. -/

namespace Sys2Proof.Machine

/-! ## A value per section -/

theorem perSection_length (f : Nat → Cplx) : (perSection f).length = order := by simp [perSection]

theorem perSection_getElem? (f : Nat → Cplx) (i : Nat) (h : i < order) : (perSection f)[i]? = some (f i) := by
  simp [perSection, h]

theorem tableAt_perSection (f : Nat → Cplx) (i : Nat) (h : i < order) : tableAt (perSection f) i = f i := by
  rw [tableAt, List.getD_eq_getElem?_getD, perSection_getElem? f i h]; rfl

theorem mem_perSection {f : Nat → Cplx} {z : Cplx} (h : z ∈ perSection f) : ∃ i, i < order ∧ f i = z := by
  simpa [perSection] using h

theorem tableAt_replicate (i : Nat) : tableAt (List.replicate order czero) i = czero := by
  rw [tableAt, List.getD_eq_getElem?_getD, List.getElem?_replicate]
  split <;> rfl

/-! ## Sections -/

theorem State.channelState_length (s : State) (c : Nat) : (s.channelState c).length = order := Memory.cplxs_length _ _ _ _ _

theorem State.tableAt_channelState (s : State) (c i : Nat) (h : i < order) :
    tableAt (s.channelState c) i = s.section c i := by
  rw [tableAt, List.getD_eq_getElem?_getD, State.channelState, Memory.cplxs_get _ _ _ _ _ _ h]; rfl

theorem State.sections_length (s : State) (x : Sample) (ch : Nat) : (s.sections x ch).length = order := perSection_length _

/-- The new state of a section (42_hilbert.md R175). -/
theorem State.sections_getElem? (s : State) (x : Sample) (ch i : Nat) (h : i < order) :
    (s.sections x ch)[i]? = some (sectionAfter (((s.hbFp.at 0).at 0).at i) (((s.hbFp.at 0).at 1).at i) x (s.section ch i)
      (s.entry .spole i) (s.entry .scoeff i)) := by
  rw [State.sections, nextSections, perSection_getElem? _ _ h, State.tableAt_channelState s ch i h]
  cases x <;> rfl

theorem State.sections_fits (s : State) (x : Sample) (ch : Nat) : ∀ z ∈ s.sections x ch, Cplx.Fits s.build.fmt z := by
  intro z hz
  rw [State.sections, nextSections] at hz
  obtain ⟨i, _, rfl⟩ := mem_perSection hz
  exact fits_cadd ((((s.hbFp.at 0).at 0).at i).at 0) _ _

/-- A PROCESS command's stored sections, read back. -/
theorem State.section_stored (s : State) (x : Sample) (ch i : Nat) (z : Cplx)
    (hz : (s.sections x ch)[i]? = some z) :
    Memory.cplx s.build.fmt s.epoch (Memory.setCplxs s.build.fmt s.hb.state (channelBase ch) (s.sections x ch))
      (channelBase ch + 16 * i) = z := by
  obtain ⟨hi, hget⟩ := List.getElem?_eq_some_iff.1 hz
  have hf := State.sections_fits s x ch _ (List.getElem_mem hi)
  rw [Memory.cplx_setCplxs_same _ _ _ _ _ _ hi hf.re hf.im, hget]

/-! ## The output sum -/

/-- The partial sums of the output (42_hilbert.md R176). -/
def partialSum (c : Fp) (acc : Cplx) (zs : List Cplx) : Nat → Cplx
  | 0 => acc
  | i + 1 => cadd (c.at i) (partialSum c acc zs i) (tableAt zs i)

theorem sumSections_append (c : Fp) (i : Nat) (acc : Cplx) (zs : List Cplx) (z : Cplx) :
    sumSections c i acc (zs ++ [z]) = cadd (c.at (i + zs.length)) (sumSections c i acc zs) z := by
  induction zs generalizing i acc with
  | nil => rfl
  | cons y ys ih =>
    simp only [List.cons_append, sumSections, List.length_cons]
    rw [ih, show i + 1 + ys.length = i + (ys.length + 1) by omega]

theorem sumSections_take (c : Fp) (acc : Cplx) (zs : List Cplx) (n : Nat) (h : n ≤ zs.length) :
    sumSections c 0 acc (zs.take n) = partialSum c acc zs n := by
  induction n with
  | zero => rfl
  | succ n ih =>
    have hn : n < zs.length := h
    rw [← List.take_concat_get' _ _ hn, sumSections_append, ih (by omega), partialSum]
    simp only [List.length_take, Nat.zero_add, Nat.min_eq_left (Nat.le_of_lt hn)]
    rw [tableAt, List.getD_eq_getElem?_getD, List.getElem?_eq_getElem hn]; rfl

/-- The output sum is the last partial sum. -/
theorem sumSections_eq (c : Fp) (acc : Cplx) (zs : List Cplx) : sumSections c 0 acc zs = partialSum c acc zs zs.length := by
  rw [← sumSections_take c acc zs zs.length (Nat.le_refl _), List.take_length]

theorem sumSections_fits (c : Fp) (i : Nat) (acc : Cplx) (zs : List Cplx) (h : Cplx.Fits c.fmt acc) :
    Cplx.Fits c.fmt (sumSections c i acc zs) := by
  induction zs generalizing i acc with
  | nil => exact h
  | cons z zs ih => exact ih _ _ (fits_cadd (c.at i) _ _)

theorem directTerm_eq (a : Fp) (x : Sample) (sd : F) : directTerm a x sd = sumStart a x sd := by cases x <;> rfl

theorem directTerm_fits (c : Fp) (x : Sample) (sd : F) : Cplx.Fits c.fmt (directTerm c x sd) := by
  cases x with
  | real x => exact ⟨fits_fmul c _ _, fits_zero _⟩
  | complex z => exact ⟨fits_fmul (c.at 0) _ _, fits_fmul (c.at 1) _ _⟩

theorem State.output_fits (s : State) (x : Sample) (ch : Nat) : Cplx.Fits s.build.fmt (s.output x ch) :=
  sumSections_fits (s.hbFp.at 2) _ _ _ (directTerm_fits (s.hbFp.at 1) _ _)

/-! ## Checks -/

theorem constructError_none (b : Build) (sr : F) (nc : Word) (h1 : isFinite b.fmt sr = true)
    (h2 : isPositive b.fmt sr = true) (h3 : nc ≠ 0) (h4 : nc.toNat ≤ b.maxChannels) : constructError b sr nc = none := by
  rw [constructError, h1, h2, Bool.and_self, if_pos rfl, if_neg]
  rintro (h | h)
  · exact h3 h
  · omega

theorem constructError_srate (b : Build) (sr : F) (nc : Word)
    (h : isFinite b.fmt sr = false ∨ isPositive b.fmt sr = false) : constructError b sr nc = some .hbSrate := by
  rw [constructError, if_neg]
  rcases h with h | h <;> simp [h]

theorem constructError_nchan (b : Build) (sr : F) (nc : Word) (h1 : isFinite b.fmt sr = true)
    (h2 : isPositive b.fmt sr = true) (h3 : nc = 0 ∨ b.maxChannels < nc.toNat) :
    constructError b sr nc = some .hbNchan := by
  rw [constructError, h1, h2, Bool.and_self, if_pos rfl, if_pos h3]

theorem processError_none (channels : Word) (ch : Nat) (h : ch < channels.toNat) : processError channels ch = none := by
  have h0 : channels ≠ 0 := by
    rintro rfl
    simp at h
  rw [processError, if_neg h0, if_neg (by omega)]

theorem processError_notConstructed (ch : Nat) : processError 0 ch = some .hbNotConstructed := rfl

theorem processError_channel (channels : Word) (ch : Nat) (h0 : channels ≠ 0) (h : channels.toNat ≤ ch) :
    processError channels ch = some .hbChannel := by
  rw [processError, if_neg h0, if_pos h]

/-! ## The tables of a construction fit the format -/

theorem scaledCoeff_fits (c : Fp) (ff pg : F) (z : Cplx) : Cplx.Fits c.fmt (scaledCoeff c ff pg z) :=
  ⟨fits_fmul (c.at 0) _ _, fits_fmul (c.at 2) _ _⟩

theorem scaledPole_fits (c : Fp) (ff : F) (z : Cplx) : Cplx.Fits c.fmt (scaledPole c ff z) :=
  fits_cexp _ _ _ (fits_fmul (c.at 1) _ _)

theorem ffact_fits (c : Fp) (sr : F) : fitsFormat c.fmt (ffact c sr) = true :=
  fits_fmin _ _ _ (fits_fdiv _ _ _) (fits_ffClamp _)

/-- Every section of an array that lists nothing reads (+0, +0) (10_state.md R36). -/
theorem section_nil (fmt : Format) (e c i : Nat) (hc : c < 256) (hi : i < order) :
    Memory.cplx fmt e [] (channelBase c + 16 * i) = czero := by
  simp only [order] at hi
  have word_zero : ∀ y, channelBase c + 16 * i ≤ y → y + 4 ≤ channelBase c + 16 * i + 16 →
      Memory.word e [] y = 0 := by
    intro y h1 h2
    have lane : ∀ k, k < 4 → Memory.byte e [] (y + k) = 0 := fun k hk =>
      Memory.byte_nil_of_channel e _ (by simp only [channelBase] at h1; omega) (by simp only [channelBase] at h2; omega)
    have lane0 : Memory.byte e [] y = 0 := lane 0 (by decide)
    rw [Memory.word, lane0, lane 1 (by decide), lane 2 (by decide), lane 3 (by decide)]
    rfl
  have value_zero : ∀ y, channelBase c + 16 * i ≤ y → y + 8 ≤ channelBase c + 16 * i + 16 →
      Memory.value fmt e [] y = fzero := by
    intro y h1 h2
    cases fmt <;> simp only [Memory.value, word_zero y h1 (by omega), word_zero (y + 4) (by omega) (by omega)] <;> rfl
  exact congrArg₂ Cplx.mk (value_zero _ (by omega) (by omega)) (value_zero _ (by omega) (by omega))

end Sys2Proof.Machine
end

