-- ==== Sys2Proof/Laws/PerInstr.lean ====
section
/-! SUPPORT. The families of statements made per command: every command's word agrees with its row of spec/opcode_table.json. -/

namespace Sys2Proof.Laws.TableMatch

/-- The mask and the match of a command's row of spec/opcode_table.json. -/
def row : Instr → Word × Word
  | .fftConfigure => (0xFFFFFFFF#32, 0x00000011#32)
  | .fftForward => (0xFFFFFFFF#32, 0x00000012#32)
  | .fftInverse => (0xFFFFFFFF#32, 0x00000013#32)
  | .hbConstruct => (0xFFFFFFFF#32, 0x00000021#32)
  | .hbReset => (0xFFFFFFFF#32, 0x00000022#32)
  | .hbProcessR _ => (0xFFFF00FF#32, 0x00000023#32)
  | .hbProcessC _ => (0xFFFF00FF#32, 0x00000024#32)

/-- The word of a command, under its row's mask, is the row's match, and the word names the command's own unit. -/
def Statement (i : Instr) : Prop := encode i &&& (row i).1 = (row i).2 ∧ wordUnit (encode i) = i.unit

/-- Under the mask of a command with a channel, CH does not show. -/
theorem channel_masked (c o : BitVec 8) : ((0 : BitVec 16) ++ (c ++ o)) &&& 0xFFFF00FF#32 = (0 : BitVec 24) ++ o := by
  apply BitVec.eq_of_getLsbD_eq
  intro i hi
  have hi' : i < 32 := hi
  rw [BitVec.getLsbD_and]
  refine (congrArg (· && _) (BitVec.getLsbD_append)).trans ?_
  refine Eq.trans ?_ (BitVec.getLsbD_append).symm
  rw [BitVec.getLsbD_append]
  interval_cases i <;> simp

/-- The unit of a word is that of its opcode. -/
theorem wordUnit_append (r : BitVec 16) (c o : BitVec 8) :
    wordUnit (r ++ (c ++ o)) = if o.extractLsb' 4 4 = 2 then .hb else .fft := by
  have h : (r ++ (c ++ o) : Word).extractLsb' 4 4 = (fieldOpc (r ++ (c ++ o))).extractLsb' 4 4 := by
    apply BitVec.eq_of_getLsbD_eq
    intro k hk
    have h8 : 4 + k < 8 := by omega
    simp only [fieldOpc, BitVec.getLsbD_extractLsb', hk, h8, decide_true, Bool.true_and, Nat.zero_add]
  rw [wordUnit, h, fieldOpc_append]

theorem fftConfigure : Statement .fftConfigure := ⟨by decide, by decide⟩
theorem fftForward : Statement .fftForward := ⟨by decide, by decide⟩
theorem fftInverse : Statement .fftInverse := ⟨by decide, by decide⟩
theorem hbConstruct : Statement .hbConstruct := ⟨by decide, by decide⟩
theorem hbReset : Statement .hbReset := ⟨by decide, by decide⟩
theorem hbProcessR (ch : Nat) : Statement (.hbProcessR ch) :=
  ⟨(channel_masked (BitVec.ofNat 8 ch) 0x23).trans (show (0 : BitVec 24) ++ (0x23 : BitVec 8) = 0x00000023#32 by decide),
    (wordUnit_append 0 (BitVec.ofNat 8 ch) 0x23).trans
      (show (if (0x23 : BitVec 8).extractLsb' 4 4 = 2 then UnitId.hb else .fft) = .hb by decide)⟩
theorem hbProcessC (ch : Nat) : Statement (.hbProcessC ch) :=
  ⟨(channel_masked (BitVec.ofNat 8 ch) 0x24).trans (show (0 : BitVec 24) ++ (0x24 : BitVec 8) = 0x00000024#32 by decide),
    (wordUnit_append 0 (BitVec.ofNat 8 ch) 0x24).trans
      (show (if (0x24 : BitVec 8).extractLsb' 4 4 = 2 then UnitId.hb else .fft) = .hb by decide)⟩

end Sys2Proof.Laws.TableMatch
end

