-- ==== Sys2Proof/Laws/Port.lean ====
section
/-! SUPPORT. The port: which word an access reaches, what performing it does, and what the host's turn does. -/

namespace Sys2Proof.Machine

/-! ## Which word an access reaches -/

theorem locate_fftCmd (b : Build) : locate b 0x000000 = some .fftCmd := rfl
theorem locate_fftStatus (b : Build) : locate b 0x000004 = some .fftStatus := rfl
theorem locate_hbCmd (b : Build) : locate b 0x000100 = some .hbCmd := by simp [locate, locateAligned, controlRegister]
theorem locate_hbStatus (b : Build) : locate b 0x000104 = some .hbStatus := by
  simp [locate, locateAligned, controlRegister]

/-- The CMD register of a unit. -/
def cmdLoc : UnitId → Loc
  | .fft => .fftCmd
  | .hb => .hbCmd

/-- The STATUS register of a unit. -/
def statusLoc : UnitId → Loc
  | .fft => .fftStatus
  | .hb => .hbStatus

@[simp] theorem cmdLoc_unit (u : UnitId) : (cmdLoc u).unit = u := by cases u <;> rfl
@[simp] theorem cmdLoc_isStatus (u : UnitId) : (cmdLoc u).isStatus = false := by cases u <;> rfl
@[simp] theorem statusLoc_unit (u : UnitId) : (statusLoc u).unit = u := by cases u <;> rfl
@[simp] theorem statusLoc_isStatus (u : UnitId) : (statusLoc u).isStatus = true := by cases u <;> rfl

theorem target_commandWrite (b : Build) (u : UnitId) (v : Word) : target b (commandWrite u v) = some (cmdLoc u) := by
  cases u
  · simp [target, commandWrite, locate_fftCmd, Loc.writable, cmdLoc]
  · simp [target, commandWrite, locate_hbCmd, Loc.writable, cmdLoc]

theorem target_statusRead (b : Build) (u : UnitId) : target b (statusRead u) = some (statusLoc u) := by
  cases u
  · simp [target, statusRead, locate_fftStatus, statusLoc]
  · simp [target, statusRead, locate_hbStatus, statusLoc]

/-- An access raises no BusError exactly where it is a 32-bit access to a mapped word with the access rights it needs. -/
theorem target_eq_some {b : Build} {a : Access} {l : Loc} :
    target b a = some l ↔ a.width = .bits32 ∧ locate b a.off.toNat = some l ∧ (a.kind = .read ∨ l.writable = true) := by
  unfold target
  cases hw : a.width <;> simp only [reduceCtorEq, false_and, true_and]
  cases hl : locate b a.off.toNat with
  | none => simp
  | some l' =>
    cases hk : a.kind with
    | read => simp
    | write v =>
      simp only [reduceCtorEq, Option.some.injEq, false_or]
      constructor
      · intro h
        split at h
        · cases h; exact ⟨rfl, by assumption⟩
        · cases h
      · rintro ⟨rfl, h⟩; rw [if_pos h]

/-- The access to a listed word at its own offset reaches it. -/
theorem target_of_mapped {b : Build} (hb : b.Legal) {l : Loc} (h : l.mapped b) (k : AccessKind)
    (hk : k = .read ∨ l.writable = true) : target b ⟨.bits32, BitVec.ofNat 22 l.offset, k⟩ = some l := by
  rw [target_eq_some]
  refine ⟨rfl, ?_, hk⟩
  simp only [BitVec.toNat_ofNat, Nat.mod_eq_of_lt (Loc.offset_lt hb h).1]
  exact locate_of_mapped hb h

/-! ## Performing an access -/

theorem State.perform_busError {s : State} {a : Access} (h : target s.build a = none) :
    s.perform a = s.respond .busError := by simp [State.perform, h]

theorem State.perform_read {s : State} {a : Access} {l : Loc} (h : target s.build a = some l) (hk : a.kind = .read) :
    s.perform a = s.respond (.data (s.readLoc l)) := by simp [State.perform, h, hk]

theorem State.perform_write {s : State} {a : Access} {l : Loc} {v : Word} (h : target s.build a = some l)
    (hk : a.kind = .write v) : s.perform a = (s.writeLoc l v).respond .done := by simp [State.perform, h, hk]

/-- Everything performing an access can do. -/
theorem State.perform_cases (s : State) (a : Access) :
    (target s.build a = none ∧ s.perform a = s.respond .busError) ∨
    (∃ l, target s.build a = some l ∧ a.kind = .read ∧ s.perform a = s.respond (.data (s.readLoc l))) ∨
    ∃ l v, target s.build a = some l ∧ a.kind = .write v ∧ s.perform a = (s.writeLoc l v).respond .done := by
  cases h : target s.build a with
  | none => exact .inl ⟨rfl, s.perform_busError h⟩
  | some l =>
    cases hk : a.kind with
    | read => exact .inr (.inl ⟨l, rfl, rfl, s.perform_read h hk⟩)
    | write v => exact .inr (.inr ⟨l, v, rfl, rfl, s.perform_write h hk⟩)

theorem State.perform_commandWrite (s : State) (u : UnitId) (v : Word) :
    s.perform (commandWrite u v) = (s.accept v u).respond .done := by
  rw [s.perform_write (v := v) (target_commandWrite _ u v) (by cases u <;> rfl)]
  cases u <;> rfl

theorem State.perform_statusRead (s : State) (u : UnitId) :
    s.perform (statusRead u) = s.respond (.data (s.status u)) := by
  rw [s.perform_read (target_statusRead _ u) (by cases u <;> rfl)]
  cases u <;> rfl

/-! ## What a write leaves -/

@[simp] theorem State.writeLoc_build (s : State) (l : Loc) (w : Word) : (s.writeLoc l w).build = s.build := by
  cases l <;> rfl
@[simp] theorem State.writeLoc_port (s : State) (l : Loc) (w : Word) : (s.writeLoc l w).port = s.port := by
  cases l <;> rfl
@[simp] theorem State.writeLoc_script (s : State) (l : Loc) (w : Word) : (s.writeLoc l w).script = s.script := by
  cases l <;> rfl
@[simp] theorem State.writeLoc_schedule (s : State) (l : Loc) (w : Word) : (s.writeLoc l w).schedule = s.schedule := by
  cases l <;> rfl
@[simp] theorem State.writeLoc_epoch (s : State) (l : Loc) (w : Word) : (s.writeLoc l w).epoch = s.epoch := by
  cases l <;> rfl

/-- A write to a word of one unit's region leaves the other unit as it was. -/
theorem State.writeLoc_hb_of_fft (s : State) (l : Loc) (w : Word) (h : l.unit = .fft) : (s.writeLoc l w).hb = s.hb := by
  cases l <;> simp_all [Loc.unit, State.writeLoc]

/-- A write to a word of one unit's region leaves the other unit as it was. -/
theorem State.writeLoc_fft_of_hb (s : State) (l : Loc) (w : Word) (h : l.unit = .hb) : (s.writeLoc l w).fft = s.fft := by
  cases l <;> simp_all [Loc.unit, State.writeLoc]

@[simp] theorem State.perform_build (s : State) (a : Access) : (s.perform a).build = s.build := by
  rcases s.perform_cases a with ⟨-, h⟩ | ⟨l, -, -, h⟩ | ⟨l, v, -, -, h⟩ <;> simp [h]
@[simp] theorem State.perform_script (s : State) (a : Access) : (s.perform a).script = s.script := by
  rcases s.perform_cases a with ⟨-, h⟩ | ⟨l, -, -, h⟩ | ⟨l, v, -, -, h⟩ <;> simp [h]
@[simp] theorem State.perform_schedule (s : State) (a : Access) : (s.perform a).schedule = s.schedule := by
  rcases s.perform_cases a with ⟨-, h⟩ | ⟨l, -, -, h⟩ | ⟨l, v, -, -, h⟩ <;> simp [h]
@[simp] theorem State.perform_epoch (s : State) (a : Access) : (s.perform a).epoch = s.epoch := by
  rcases s.perform_cases a with ⟨-, h⟩ | ⟨l, -, -, h⟩ | ⟨l, v, -, -, h⟩ <;> simp [h]
@[simp] theorem State.perform_pending (s : State) (a : Access) : (s.perform a).port.pending = s.port.pending := by
  rcases s.perform_cases a with ⟨-, h⟩ | ⟨l, -, -, h⟩ | ⟨l, v, -, -, h⟩ <;> simp [h]

/-! ## The hold and the host's turn -/

theorem State.holds_eq {s : State} {a : Access} {l : Loc} (h : target s.build a = some l) :
    s.holds a = (s.busy l.unit && !l.isStatus) := by simp [State.holds, h]

/-- A performed access that is not held leaves a busy unit as it was. -/
theorem State.perform_fft_of_busy {s : State} {a : Access} (hb : s.busy .fft = true) (h : s.holds a = false) :
    (s.perform a).fft = s.fft := by
  rcases s.perform_cases a with ⟨-, h'⟩ | ⟨l, -, -, h'⟩ | ⟨l, v, ht, hk, h'⟩ <;> rw [h']
  · rfl
  · rfl
  · cases hu : l.unit
    · rw [State.holds_eq ht, hu, hb] at h
      have hw := (target_eq_some.1 ht).2.2
      rw [hk] at hw
      simp only [reduceCtorEq, false_or] at hw
      cases l <;> simp_all [Loc.isStatus, Loc.writable]
    · exact s.writeLoc_fft_of_hb l v hu

/-- A performed access that is not held leaves a busy unit as it was. -/
theorem State.perform_hb_of_busy {s : State} {a : Access} (hb : s.busy .hb = true) (h : s.holds a = false) :
    (s.perform a).hb = s.hb := by
  rcases s.perform_cases a with ⟨-, h'⟩ | ⟨l, -, -, h'⟩ | ⟨l, v, ht, hk, h'⟩ <;> rw [h']
  · rfl
  · rfl
  · cases hu : l.unit
    · exact s.writeLoc_hb_of_fft l v hu
    · rw [State.holds_eq ht, hu, hb] at h
      have hw := (target_eq_some.1 ht).2.2
      rw [hk] at hw
      simp only [reduceCtorEq, false_or] at hw
      cases l <;> simp_all [Loc.isStatus, Loc.writable]

/-- Everything the host's turn can do: nothing, make an access outstanding, or perform one access that is not held, in a
state that differs from `s` in the script and the outstanding access only. -/
theorem State.hostMove_cases (s : State) :
    s.hostMove = s ∨
    (∃ a rest, s.script = .access a :: rest ∧ s.port.pending = none ∧ s.holds a = true ∧
      s.hostMove = { s with script := rest, port := { s.port with pending := some a } }) ∨
    ∃ a sc, s.holds a = false ∧
      s.hostMove = State.perform { s with script := sc, port := { s.port with pending := none } } a := by
  unfold State.hostMove
  cases hp : s.port.pending with
  | some a =>
    cases hh : s.holds a with
    | true => left; simp [hh]
    | false => right; right; exact ⟨a, s.script, hh, by simp [hh]⟩
  | none =>
    have hs : ({ s.port with pending := none } : Port) = s.port := by rw [← hp]
    cases hc : s.script with
    | nil => left; rfl
    | cons o rest =>
      cases o with
      | access a =>
        cases hh : s.holds a with
        | true => right; left; exact ⟨a, rest, rfl, rfl, hh, by simp [hh]⟩
        | false => right; right; exact ⟨a, rest, hh, by simp [hh, hs]⟩
      | poll u =>
        right; right
        have hh : s.holds (statusRead u) = false := by rw [State.holds_eq (target_statusRead _ u)]; simp
        cases hb : s.busy u with
        | true => exact ⟨statusRead u, s.script, hh, by simp [hb, hs]⟩
        | false => exact ⟨statusRead u, rest, hh, by simp [hb, hs]⟩

end Sys2Proof.Machine
end

