-- ==== Sys2Proof/Laws/Schedule.lean ====
section
/-! SUPPORT. What a step can do, once for every proof about steps: a unit's turn makes of its own unit something that depends on
that unit, the build and the power-on count alone, and touches nothing else. -/

namespace Sys2Proof.Machine

/-- A command whose decode succeeded at a unit is that unit's. -/
theorem decode_unit {u : UnitId} {w : Word} {i : Instr} (h : decode u w = .ok i) : i.unit = u := (decode_ok.1 h).2.2

/-- An FFT command makes of the FFT unit what the FFT unit alone says, and touches nothing else. -/
theorem exec_fft_spec (i : Instr) (hi : i.unit = .fft) (b : Build) (f : FftUnit) (e : Nat) :
    ∃ u : FftUnit, u.cmd = f.cmd ∧ u.arg = f.arg ∧ u.inBuf = f.inBuf ∧ u.job = none ∧ ∀ h p sc sch,
      exec i ⟨b, f, h, p, sc, sch, e⟩ = .next ⟨b, u, h, p, sc, sch, e⟩ := by
  have key : ∀ dir, ∃ u : FftUnit, u.cmd = f.cmd ∧ u.arg = f.arg ∧ u.inBuf = f.inBuf ∧ u.job = none ∧
      ∀ h p sc sch, fftTransform dir ⟨b, f, h, p, sc, sch, e⟩ = ⟨b, u, h, p, sc, sch, e⟩ := by
    intro dir
    have ha : ∀ h p sc sch, State.fftArg ⟨b, f, h, p, sc, sch, e⟩ = f.operands.arg := fun _ _ _ _ => rfl
    cases hs : fftSizeError b f.operands.arg with
    | some c =>
      refine ⟨f.complete c, rfl, rfl, rfl, rfl, fun h p sc sch => ?_⟩
      simp only [fftTransform, ha, hs]; rfl
    | none =>
      refine ⟨({ f with maxSize := grownMaxSize f.maxSize f.operands.arg }.storeOutput b.fmt
        (State.transformOutput ⟨b, f, default, default, [], [], e⟩ dir)).complete .ok, rfl, rfl, rfl, rfl,
        fun h p sc sch => ?_⟩
      simp only [fftTransform, ha, hs]; rfl
  cases i <;> simp only [Instr.unit, reduceCtorEq] at hi
  · have ha : ∀ h p sc sch, State.fftArg ⟨b, f, h, p, sc, sch, e⟩ = f.operands.arg := fun _ _ _ _ => rfl
    cases hs : fftSizeError b f.operands.arg with
    | some c =>
      refine ⟨f.complete c, rfl, rfl, rfl, rfl, fun h p sc sch => ?_⟩
      simp only [exec, execFftConfigure, fftConfigure, ha, hs]; rfl
    | none =>
      refine ⟨{ f with maxSize := f.operands.arg }.complete .ok, rfl, rfl, rfl, rfl, fun h p sc sch => ?_⟩
      simp only [exec, execFftConfigure, fftConfigure, ha, hs]; rfl
  · obtain ⟨u, h1, h2, h3, h4, h5⟩ := key .fwd
    exact ⟨u, h1, h2, h3, h4, fun h p sc sch => by rw [exec, execFftForward, h5]⟩
  · obtain ⟨u, h1, h2, h3, h4, h5⟩ := key .inv
    exact ⟨u, h1, h2, h3, h4, fun h p sc sch => by rw [exec, execFftInverse, h5]⟩

/-- An HB command makes of the HB unit what the HB unit alone says, and touches nothing else. -/
theorem exec_hb_spec (i : Instr) (hi : i.unit = .hb) (b : Build) (g : HbUnit) (e : Nat) :
    ∃ u : HbUnit, u.cmd = g.cmd ∧ u.capture = g.capture ∧ u.job = none ∧ ∀ f p sc sch,
      exec i ⟨b, f, g, p, sc, sch, e⟩ = .next ⟨b, f, u, p, sc, sch, e⟩ := by
  have key : ∀ x ch, ∃ u : HbUnit, u.cmd = g.cmd ∧ u.capture = g.capture ∧ u.job = none ∧
      ∀ f p sc sch, hbProcess x ch ⟨b, f, g, p, sc, sch, e⟩ = ⟨b, f, u, p, sc, sch, e⟩ := by
    intro x ch
    cases hs : processError g.channels ch with
    | some c =>
      refine ⟨g.complete c, rfl, rfl, rfl, fun f p sc sch => ?_⟩
      simp only [hbProcess, hs]; rfl
    | none =>
      refine ⟨HbUnit.complete { g with
          state := Memory.setCplxs b.fmt g.state (channelBase ch) (State.sections ⟨b, default, g, default, [], [], e⟩ x ch)
          yre := (State.output ⟨b, default, g, default, [], [], e⟩ x ch).re
          yim := (State.output ⟨b, default, g, default, [], [], e⟩ x ch).im } .ok, rfl, rfl, rfl, fun f p sc sch => ?_⟩
      simp only [hbProcess, hs]; rfl
  cases i <;> simp only [Instr.unit, reduceCtorEq] at hi
  · cases hs : constructError b g.operands.srate g.operands.nchan with
    | some c =>
      refine ⟨g.complete c, rfl, rfl, rfl, fun f p sc sch => ?_⟩
      simp only [exec, execHbConstruct, hbConstruct, hs]; rfl
    | none =>
      refine ⟨(g.construct b ⟨b.fmt, ⟨.hb, g.serial, []⟩⟩ g.operands.srate g.operands.pgain g.operands.nchan).complete .ok,
        rfl, rfl, rfl, fun f p sc sch => ?_⟩
      simp only [exec, execHbConstruct, hbConstruct, hs]; rfl
  · exact ⟨HbUnit.complete { g with state := [] } .ok, rfl, rfl, rfl, fun f p sc sch => rfl⟩
  · rename_i ch
    obtain ⟨u, h1, h2, h3, h4⟩ := key (.real g.operands.xre) ch
    exact ⟨u, h1, h2, h3, fun f p sc sch => by rw [exec, execHbProcessR]; exact congrArg _ (h4 f p sc sch)⟩
  · rename_i ch
    obtain ⟨u, h1, h2, h3, h4⟩ := key (.complex ⟨g.operands.xre, g.operands.xim⟩) ch
    exact ⟨u, h1, h2, h3, fun f p sc sch => by rw [exec, execHbProcessC]; exact congrArg _ (h4 f p sc sch)⟩

/-- Everything the FFT unit's turn can do. -/
theorem unitMove_fft_spec (b : Build) (f : FftUnit) (e : Nat) :
    ∃ u : FftUnit, u.cmd = f.cmd ∧ u.arg = f.arg ∧ u.inBuf = f.inBuf ∧ u.job = none ∧ ∀ h p sc sch,
      State.unitMove ⟨b, f, h, p, sc, sch, e⟩ .fft = .next ⟨b, u, h, p, sc, sch, e⟩ := by
  cases hj : f.job with
  | none =>
    refine ⟨f, rfl, rfl, rfl, hj, fun h p sc sch => ?_⟩
    simp only [State.unitMove, State.running, hj, Option.map_none]
  | some j =>
    cases hd : decode .fft j.word with
    | error er =>
      refine ⟨f.complete .illegalCmd, rfl, rfl, rfl, rfl, fun h p sc sch => ?_⟩
      simp only [State.unitMove, State.running, hj, Option.map_some, State.executeWord, hd]; rfl
    | ok i =>
      obtain ⟨u, h1, h2, h3, h4, h5⟩ := exec_fft_spec i (decode_unit hd) b f e
      refine ⟨u, h1, h2, h3, h4, fun h p sc sch => ?_⟩
      simp only [State.unitMove, State.running, hj, Option.map_some, State.executeWord, hd, h5]

/-- Everything the HB unit's turn can do. -/
theorem unitMove_hb_spec (b : Build) (g : HbUnit) (e : Nat) :
    ∃ u : HbUnit, u.cmd = g.cmd ∧ u.capture = g.capture ∧ u.job = none ∧ ∀ f p sc sch,
      State.unitMove ⟨b, f, g, p, sc, sch, e⟩ .hb = .next ⟨b, f, u, p, sc, sch, e⟩ := by
  cases hj : g.job with
  | none =>
    refine ⟨g, rfl, rfl, hj, fun f p sc sch => ?_⟩
    simp only [State.unitMove, State.running, hj, Option.map_none]
  | some j =>
    cases hd : decode .hb j.word with
    | error er =>
      refine ⟨g.complete .illegalCmd, rfl, rfl, rfl, fun f p sc sch => ?_⟩
      simp only [State.unitMove, State.running, hj, Option.map_some, State.executeWord, hd]; rfl
    | ok i =>
      obtain ⟨u, h1, h2, h3, h4⟩ := exec_hb_spec i (decode_unit hd) b g e
      refine ⟨u, h1, h2, h3, fun f p sc sch => ?_⟩
      simp only [State.unitMove, State.running, hj, Option.map_some, State.executeWord, hd, h4]

/-- Everything a step can do: the next agent's move from the state with its turn used up. -/
theorem step_cases {s t : State} (h : step s = .next t) :
    (s.nextAgent = .host ∧ t = s.useTurn.hostMove) ∨
    (s.nextAgent = .fft ∧ s.useTurn.unitMove .fft = .next t) ∨
    (s.nextAgent = .hb ∧ s.useTurn.unitMove .hb = .next t) ∨
    (s.nextAgent = .powerOn ∧ t = s.useTurn.powerOnReset) := by
  unfold step State.agentMove at h
  cases ha : s.nextAgent <;> simp_all [eq_comm]

end Sys2Proof.Machine
end

