-- ==== Sys2Proof/Laws/Transcendental.lean ====
section
/-! SUPPORT. A part that bounds decide is the correct rounding of every real number between the bounds (40_numerics.md R123, R124). -/

namespace Sys2Proof.Machine

theorem decided_some {fmt : Format} {neg : Bool} {lo hi : Nat} {v : F} (h : decided fmt neg lo hi = some v) :
    lo = hi ∧ v = makeF fmt neg lo := by
  unfold decided at h
  split at h
  · rename_i he; cases h; exact ⟨he, rfl⟩
  · cases h

/-- What `signedBounds` says: the sign of the number, and bounds of its magnitude. -/
theorem signedBounds_spec {q : Nat} {b : Ival} {y : ℝ} {neg : Bool} {lo hi : Nat} (hb : b.Has q y)
    (h : signedBounds b = some (neg, lo, hi)) :
    neg = decide (y < 0) ∧ 0 < lo ∧ (lo : ℝ) ≤ |y| * 2 ^ q ∧ |y| * 2 ^ q ≤ hi := by
  have hp : (0 : ℝ) < 2 ^ q := by positivity
  unfold signedBounds at h
  split at h
  · rename_i hpos
    cases h
    have hlo : (0 : ℝ) < b.lo := by exact_mod_cast hpos
    have hy : 0 < y := by
      by_contra hn
      have : y * 2 ^ q ≤ 0 := mul_nonpos_of_nonpos_of_nonneg (not_lt.1 hn) hp.le
      linarith [hb.1]
    have c1 : ((b.lo.toNat : Nat) : ℝ) = b.lo := by exact_mod_cast congrArg (Int.cast (R := ℝ)) (Int.toNat_of_nonneg hpos.le)
    rw [abs_of_pos hy, c1]
    refine ⟨by simp [hy.le], by omega, hb.1, ?_⟩
    exact le_toNat _ _ hb.2
  · split at h
    · rename_i hneg
      cases h
      have hhi : (b.hi : ℝ) < 0 := by exact_mod_cast hneg
      have hy : y < 0 := by
        by_contra hn
        have : 0 ≤ y * 2 ^ q := mul_nonneg (not_lt.1 hn) hp.le
        linarith [hb.2]
      have c1 : (((-b.hi).toNat : Nat) : ℝ) = -b.hi := by
        exact_mod_cast congrArg (Int.cast (R := ℝ)) (Int.toNat_of_nonneg (by omega : 0 ≤ -b.hi))
      rw [abs_of_neg hy, c1]
      refine ⟨by simp [hy], by omega, by linarith [hb.2], ?_⟩
      apply le_toNat
      push_cast
      linarith [hb.1]
    · cases h

/-- What `roundBounds` decides is the correct rounding. -/
theorem roundBounds_roundsTo (fmt : Format) (q : Nat) (b : Ival) (y : ℝ) (v : F) (hb : b.Has q y)
    (h : roundBounds fmt q b = some v) : RoundsTo fmt y v := by
  unfold roundBounds at h
  split at h
  · cases h
  · rename_i neg lo hi hs
    obtain ⟨hneg, _, hlo, hhi⟩ := signedBounds_spec hb hs
    obtain ⟨he, rfl⟩ := decided_some h
    have hp : (0 : ℝ) < 2 ^ q := by positivity
    have hU : (0 : ℝ) ≤ 2 ^ fmt.unit := by positivity
    refine roundsTo_of_between fmt y neg _ _ _ _ hneg (by positivity) (by positivity) ?_ ?_ he
    · rw [Nat.shiftLeft_eq]; push_cast
      rw [div_le_iff₀ hp]
      nlinarith
    · rw [Nat.shiftLeft_eq]; push_cast
      rw [le_div_iff₀ hp]
      nlinarith

/-- What `roundScaled` decides is the correct rounding of `e^m · t`, or of `e^-m · t`. -/
theorem roundScaled_roundsTo (fmt : Format) (q : Nat) (down : Bool) (e : Nat × Option Nat) (t : Ival) (m y : ℝ) (v : F)
    (he1 : (e.1 : ℝ) ≤ Real.exp m * 2 ^ q) (he2 : ∀ hi, e.2 = some hi → Real.exp m * 2 ^ q ≤ hi) (he0 : 0 < e.1)
    (hb : t.Has q y) (h : roundScaled fmt q down e t = some v) :
    RoundsTo fmt (Real.exp (if down then -m else m) * y) v := by
  unfold roundScaled at h
  split at h
  · cases h
  · rename_i neg lo hi hs
    obtain ⟨hneg, hlo0, hlo, hhi⟩ := signedBounds_spec hb hs
    have hp : (0 : ℝ) < 2 ^ q := by positivity
    have hU : (0 : ℝ) < 2 ^ fmt.unit := by positivity
    have hE := Real.exp_pos m
    have hy0 : 0 ≤ |y| := abs_nonneg y
    have he0' : (0 : ℝ) < e.1 := by exact_mod_cast he0
    have hlo0' : (0 : ℝ) < lo := by exact_mod_cast hlo0
    have hsign : ∀ z, neg = decide (Real.exp z * y < 0) := by
      intro z
      rw [hneg]
      have := Real.exp_pos z
      have : Real.exp z * y < 0 ↔ y < 0 := by
        constructor
        · intro h; by_contra hn; nlinarith [mul_nonneg this.le (not_lt.1 hn)]
        · intro h; nlinarith
      simp [this]
    have habs : ∀ z, |Real.exp z * y| = Real.exp z * |y| := by
      intro z; rw [abs_mul, abs_of_pos (Real.exp_pos z)]
    have hprod_lo : (e.1 : ℝ) * lo ≤ (Real.exp m * 2 ^ q) * (|y| * 2 ^ q) :=
      mul_le_mul he1 hlo hlo0'.le (by positivity)
    have hinv : Real.exp (-m) * (Real.exp m * 2 ^ q) = 2 ^ q := by
      rw [← mul_assoc, ← Real.exp_add]; simp
    split at h
    · rename_i ehi hh
      have hehi := he2 ehi hh
      obtain ⟨hk, rfl⟩ := decided_some h
      refine roundsTo_of_between fmt _ neg _ _ _ _ (hsign _) (by positivity) (by positivity) ?_ ?_ hk
      · rw [habs, Nat.shiftLeft_eq]; push_cast
        rw [div_le_iff₀ (by positivity)]
        have := mul_le_mul_of_nonneg_right hprod_lo hU.le
        linarith
      · rw [habs, Nat.shiftLeft_eq]; push_cast
        rw [le_div_iff₀ (by positivity)]
        have hprod_hi : (Real.exp m * 2 ^ q) * (|y| * 2 ^ q) ≤ (ehi : ℝ) * hi :=
          mul_le_mul hehi hhi (by positivity) (by positivity)
        have := mul_le_mul_of_nonneg_right hprod_hi hU.le
        linarith
    · obtain ⟨hk, rfl⟩ := decided_some h
      rw [hk]
      refine roundsTo_of_above fmt _ neg ((e.1 * lo) <<< fmt.unit) (2 ^ q * 2 ^ q) (hsign _) (by positivity) ?_ hk
      rw [habs, Nat.shiftLeft_eq]; push_cast
      rw [div_le_iff₀ (by positivity)]
      have := mul_le_mul_of_nonneg_right hprod_lo hU.le
      linarith
    · rename_i ehi hh
      have hehi := he2 ehi hh
      obtain ⟨hk, rfl⟩ := decided_some h
      have hehi0 : (0 : ℝ) < ehi := lt_of_lt_of_le (by positivity) hehi
      refine roundsTo_of_between fmt _ neg _ _ _ _ (hsign _) (by exact_mod_cast hehi0) he0 ?_ ?_ hk
      · rw [habs, Nat.shiftLeft_eq]; push_cast
        rw [div_le_iff₀ hehi0]
        simp only [if_true]
        have h1 : (2 : ℝ) ^ q ≤ Real.exp (-m) * ehi := by
          rw [← hinv]; exact mul_le_mul_of_nonneg_left hehi (Real.exp_pos _).le
        have h2 : (lo : ℝ) ≤ |y| * (Real.exp (-m) * ehi) := le_trans hlo (mul_le_mul_of_nonneg_left h1 hy0)
        have := mul_le_mul_of_nonneg_right h2 hU.le
        linarith
      · rw [habs, Nat.shiftLeft_eq]; push_cast
        rw [le_div_iff₀ he0']
        simp only [if_true]
        have h1 : Real.exp (-m) * e.1 ≤ (2 : ℝ) ^ q := by
          rw [← hinv]; exact mul_le_mul_of_nonneg_left he1 (Real.exp_pos _).le
        have h2 : |y| * (Real.exp (-m) * e.1) ≤ hi := le_trans (mul_le_mul_of_nonneg_left h1 hy0) hhi
        have := mul_le_mul_of_nonneg_right h2 hU.le
        linarith
    · obtain ⟨hk, rfl⟩ := decided_some h
      refine roundsTo_of_below fmt _ neg (hi <<< fmt.unit) e.1 (hsign _) he0 ?_ hk.symm
      rw [habs, Nat.shiftLeft_eq]; push_cast
      rw [le_div_iff₀ he0']
      simp only [if_true]
      have h1 : Real.exp (-m) * e.1 ≤ (2 : ℝ) ^ q := by
        rw [← hinv]; exact mul_le_mul_of_nonneg_left he1 (Real.exp_pos _).le
      have h2 : |y| * (Real.exp (-m) * e.1) ≤ hi := le_trans (mul_le_mul_of_nonneg_left h1 hy0) hhi
      have := mul_le_mul_of_nonneg_right h2 hU.le
      linarith

end Sys2Proof.Machine
end

