-- ==== Sys2Proof/Tests/Slice0.lean ====
section
/-! SUPPORT. Tests: words written out from the encoding tables, single steps with results from 95_test_vectors.md, and for every
statement with hypotheses a state that meets them. -/

namespace Sys2Proof.Tests

open Sys2Proof.Machine

set_option Elab.async false

/-! ## Helpers -/

/-- A small integer as a binary64 value. -/
def num (n : Int) : F := roundReal .binary64 (decide (n < 0)) n.natAbs 1

/-- Preset T0 of 95_test_vectors.md, with NROM = 8 and two channels. -/
def t0 : Build where
  fmt := .binary64
  log2Nrom := 3
  maxChannels := 2
  coeff := (List.range 12).map fun i => ⟨num (i + 1), num (-1)⟩
  pole := List.replicate 12 ⟨0, 0⟩
  directGain := num 1
  base := 0

/-- `t0` after power-on reset. -/
def idle : State where
  build := t0
  fft := powerOnFft 0
  hb := powerOnHb .binary64 0
  port := powerOnPort
  script := []
  schedule := []
  epoch := 0

/-- `idle` with FFT_ARG, and FFT_IN from its first element on. -/
def withFft (n : Word) (x : List Cplx) : State :=
  { idle with fft := { idle.fft with arg := n, inBuf := Memory.setCplxs .binary64 [] fftInBase x } }

/-- `idle` with HB_SRATE and HB_NCHAN. -/
def withHb (sr : F) (nc : Word) : State := { idle with hb := { idle.hb with srate := sr, nchan := nc } }

/-- What V-H2 leaves of the HB unit of T0, and a sample in HB_XRE and HB_XIM. -/
def constructed (xre xim : F) : State :=
  { idle with
    hb :=
      { idle.hb with
        channels := 2
        ffactor := 0x3FD0000000000000
        sdirect := 0x3FE0000000000000
        scoeff := (List.range 12).map fun i => ⟨roundReal .binary64 false (i + 1) 4, 0xBFD0000000000000⟩
        spole := List.replicate 12 ⟨num 1, 0⟩
        xre := xre
        xim := xim } }

/-- The state of a next outcome. -/
def after (o : Host.Outcome State Fault Refusal) : Option State :=
  match o with
  | .next t => some t
  | _ => none

/-- The state after the step that completes a command word, from `s`. -/
def runWord (w : Nat) (s : State) : Option State := after (step (s.withFetchWord 32 w))

/-- The first `n` elements of FFT_OUT. -/
def outs (n : Nat) (s : State) : List Cplx := (List.range n).map s.fftOut

/-! ## Well-formedness and decoding (30_encoding.md R92, R94, R95, R97) -/

theorem test_channel_256_is_refused :
    Instr.wellFormed (.hbProcessR 256) = false ∧ Instr.wellFormed (.hbProcessC 256) = false := by decide

theorem test_channel_255_is_accepted :
    Instr.wellFormed (.hbProcessR 255) = true ∧ Instr.wellFormed (.hbProcessC 255) = true := by decide

theorem test_script_refuses_channel_256_and_offset :
    Stmt.wellFormed (.callProcessR 256 0) = false ∧ Stmt.wellFormed (.r32 0x400000) = false := by decide

/-- The words of R92 bit by bit: RSV, CH, OPC. -/
theorem test_decode_fftConfigure :
    decode .fft 0b0000000000000000_00000000_00010001#32 = .ok .fftConfigure := by decide
theorem test_decode_fftForward :
    decode .fft 0b0000000000000000_00000000_00010010#32 = .ok .fftForward := by decide
theorem test_decode_fftInverse :
    decode .fft 0b0000000000000000_00000000_00010011#32 = .ok .fftInverse := by decide
theorem test_decode_hbConstruct :
    decode .hb 0b0000000000000000_00000000_00100001#32 = .ok .hbConstruct := by decide
theorem test_decode_hbReset :
    decode .hb 0b0000000000000000_00000000_00100010#32 = .ok .hbReset := by decide
theorem test_decode_hbProcessR :
    decode .hb 0b0000000000000000_10000001_00100011#32 = .ok (.hbProcessR 129) := by decide
theorem test_decode_hbProcessC :
    decode .hb 0b0000000000000000_00000010_00100100#32 = .ok (.hbProcessC 2) := by decide

/-- V-E2, V-E3, V-E6 to V-E10, V-E12. -/
theorem test_decode_illegal :
    decode .fft 0x00000021#32 = .error .wrongUnit ∧ decode .hb 0x00000012#32 = .error .wrongUnit ∧
      decode .fft 0x00010011#32 = .error .reservedNonzero ∧ decode .fft 0x00000111#32 = .error .channelNonzero ∧
      decode .hb 0x00000122#32 = .error .channelNonzero ∧ decode .fft 0x00000000#32 = .error .unknownOpcode ∧
      decode .hb 0x00000000#32 = .error .unknownOpcode ∧ decode .fft 0x00000014#32 = .error .unknownOpcode ∧
      decode .hb 0x80000023#32 = .error .reservedNonzero := by decide

/-- The host's numbering of bits. -/
theorem test_decodeTableWord :
    decodeTableWord 32 0x12 = some .fftForward ∧ decodeTableWord 32 0x0524 = some (.hbProcessC 5) ∧
      decodeTableWord 32 0x10023 = none := by decide

/-! ## One step of each command -/

theorem test_configure :
    (runWord 0x11 (withFft 8 [])).map (fun t => (t.fft.maxSize, t.fft.ecode, t.busy .fft)) = some (8, .ok, false) := by
  decide +kernel

/-- 41_fft.md R141: 6 is no power of two. -/
theorem test_configure_size_error :
    (runWord 0x11 (withFft 6 [])).map (fun t => (t.fft.maxSize, t.readLoc .fftStatus)) = some (0, 0x00000200) := by
  decide +kernel

/-- V-F6. -/
theorem test_forward_4 :
    (runWord 0x12 (withFft 4 [⟨num 1, 0⟩, ⟨num 2, 0⟩, ⟨num 3, 0⟩, ⟨num 4, 0⟩])).map (outs 4) =
      some [⟨0x4024000000000000, 0⟩, ⟨0xC000000000000000, 0x4000000000000000⟩, ⟨0xC000000000000000, 0⟩,
        ⟨0xC000000000000000, 0xC000000000000000⟩] := by decide +kernel

/-- V-F9, bins 1 and 2. -/
theorem test_forward_8 :
    (runWord 0x12 (withFft 8 (czero :: ⟨num 1, 0⟩ :: List.replicate 6 czero))).map
        (fun t => [t.fftOut 1, t.fftOut 2]) =
      some [⟨0x3FE6A09E667F3BCD, 0xBFE6A09E667F3BCD⟩, ⟨0, 0xBFF0000000000000⟩] := by decide +kernel

/-- V-F5i. -/
theorem test_inverse_4 :
    (runWord 0x13 (withFft 4 [⟨0, 0⟩, ⟨num 1, 0⟩, ⟨0, 0⟩, ⟨0, 0⟩])).map (outs 4) =
      some [⟨0x3FF0000000000000, 0⟩, ⟨0, 0x3FF0000000000000⟩, ⟨0xBFF0000000000000, 0⟩, ⟨0, 0xBFF0000000000000⟩] := by
  decide +kernel

/-- V-F11, and FFT_MAXSIZE after it (41_fft.md R148). -/
theorem test_inverse_2 :
    (runWord 0x13 (withFft 2 [⟨num 1, num 2⟩, ⟨num 3, num 4⟩])).map (fun t => (outs 2 t, t.fft.maxSize)) =
      some ([⟨0x4010000000000000, 0x4018000000000000⟩, ⟨0xC000000000000000, 0xC000000000000000⟩], 2) := by decide +kernel

/-- V-H2. -/
theorem test_construct :
    (runWord 0x21 (withHb 0x40F3880000000000 2)).map
        (fun t => (t.hb.ffactor, t.hb.sdirect, t.hb.scoeff[11]?, t.hb.spole[0]?, t.hb.channels)) =
      some (0x3FD0000000000000, 0x3FE0000000000000, some ⟨0x4008000000000000, 0xBFD0000000000000⟩,
        some ⟨0x3FF0000000000000, 0⟩, 2) := by decide +kernel

/-- V-H32: a negative rate is reported before a zero channel count. -/
theorem test_construct_error :
    (runWord 0x21 (withHb 0xBFF0000000000000 0)).map (fun t => t.readLoc .hbStatus) = some 0x00000400 := by decide +kernel

/-- V-H12. -/
theorem test_reset :
    (((runWord 0x23 (constructed (num 1) 0)).bind (runWord 0x22)).map fun t => (t.section 0 11, t.hb.yre, t.hb.sdirect)) =
      some (⟨0, 0⟩, 0x4034000000000000, 0x3FE0000000000000) := by decide +kernel

/-- V-E8: CH ≠ 0 on HB.RESET. -/
theorem test_reset_illegal :
    (runWord 0x122 (constructed 0 0)).map (fun t => (t.readLoc .hbStatus, t.readLoc .hbCmd)) = some (0x00000100, 0x00000122) := by
  decide +kernel

/-- V-H4: (20, -3). -/
theorem test_processR :
    (runWord 0x23 (constructed (num 1) 0)).map (fun t => (t.hb.yre, t.hb.yim, t.section 0 11, t.section 1 11)) =
      some (0x4034000000000000, 0xC008000000000000, ⟨0x4008000000000000, 0xBFD0000000000000⟩, ⟨0, 0⟩) := by decide +kernel

/-- V-H31 for a real sample: not constructed is reported before the channel. -/
theorem test_processR_error : (runWord 0x0523 idle).map (fun t => t.readLoc .hbStatus) = some 0x00000600 := by decide +kernel

/-- V-H8: (23, 17). -/
theorem test_processC :
    (runWord 0x24 (constructed (num 1) (num 1))).map (fun t => (t.hb.yre, t.hb.yim, t.section 0 11)) =
      some (0x4037000000000000, 0x4031000000000000, ⟨0x400A000000000000, 0x4006000000000000⟩) := by decide +kernel

/-- V-E5. -/
theorem test_processC_error :
    (runWord 0x0224 (constructed 0 0)).map (fun t => t.readLoc .hbStatus) = some 0x00000700 := by decide +kernel

/-! ## The port and the numerics -/

/-- V-M1 to V-M3, for NROM = 8: TW[1] is (c, -c) with the c of V-N24. -/
theorem test_read_twiddle :
    idle.readLoc (.tw 1 false false) = 0x667F3BCD ∧ idle.readLoc (.tw 1 true true) = 0xBFE6A09E := by decide +kernel

/-- V-M7, V-M8, V-M10, V-M11 (with two channels), V-M13. -/
theorem test_unmapped :
    locate t0 0x300000 = none ∧ locate t0 0x000002 = none ∧ locate t0 0x0100C0 = none ∧ locate t0 0x010200 = none ∧
      locate t0 0x000014 = none := by decide +kernel

/-- V-M14. -/
theorem test_binary32_high_word : locate { t0 with fmt := .binary32 } 0x100004 = none := by decide +kernel

/-- V-M5: a write to FFT_STATUS is a BusError. -/
theorem test_write_status : idle.perform ⟨.bits32, 0x000004, .write 1⟩ = idle.respond .busError := by decide +kernel

/-- V-N2, V-N15, V-N16. -/
theorem test_numerics :
    cmul ⟨.binary64, ⟨.fft, 0, []⟩⟩ ⟨0x8000000000000000, 0x8000000000000000⟩ ⟨0x3FF0000000000000, 0⟩ = ⟨0, 0x8000000000000000⟩ ∧
      cexp .binary64 0xBFD0000000000000 0 = ⟨0x3FE8EBEF9EAC820B, 0⟩ ∧
      cexp .binary64 0xBFC0000000000000 0x8000000000000000 = ⟨0x3FEC3D6A24ED8222, 0x8000000000000000⟩ := by decide +kernel

/-- e^1100 sin 2^-1074, worked out from 40_numerics.md R124 with 60-digit decimals, and an overflow. -/
theorem test_cexp_large_exponent :
    (cexp .binary64 0x4091300000000000 1).im = 0x5FFF39217A737144 ∧
      (cexp .binary64 0x412E848000000000 1).im = 0x7FF0000000000000 := by decide +kernel

/-- V-N22, the real part of TW[1] for NROM = 32768. -/
theorem test_twiddle_32768 : (twiddle .binary64 15 1).re = 0x3FEFFFFFF621619C := by decide +kernel

/-! ## Witnesses: states and operands that meet the hypotheses of the statements, clause by clause -/

/-- An FFT command in flight on 8 elements, while a read of FFT_IN waits for it and the HB unit has the next turn. -/
def heldRead : Access := ⟨.bits32, 0x100000, .read⟩

/-- See `heldRead`. -/
def inFlight : State :=
  { (withFft 8 [⟨num 1, 0⟩]).accept 0x12 .fft with
    port := { pending := some heldRead, response := none }
    schedule := [.hb] }

/-- An HB.CONSTRUCT in flight. -/
def constructing : State := (withHb 0x40F3880000000000 2).accept 0x21 .hb

theorem t0_legal : t0.Legal := by decide +kernel

theorem inFlight_captured : inFlight.Captured where
  fft j h := by cases h; exact ⟨rfl, rfl⟩
  hb j h := by cases h

theorem witness_EncodedCommandsDecode :
    (Instr.hbProcessC 255).WellFormed ∧ (Instr.hbProcessC 0).WellFormed ∧ Instr.fftInverse.WellFormed ∧
      UnitId.fft ≠ (Instr.hbProcessC 255).unit := by decide

theorem witness_DecodedWordIsItsEncoding : decode .hb 0x0000FF23 = .ok (.hbProcessR 255) := by decide

theorem witness_AcceptedWordIsDecoded :
    fieldRsv 0x00010011 ≠ 0 ∧ (fieldRsv 0x00000011 = 0 ∧ fieldCh 0x00000011 = 0 ∧ fieldOpc 0x00000011 = 0x11) ∧
      (fieldRsv 0x00000012 = 0 ∧ fieldCh 0x00000012 = 0 ∧ fieldOpc 0x00000012 = 0x12) ∧
      (fieldRsv 0x00000013 = 0 ∧ fieldCh 0x00000013 = 0 ∧ fieldOpc 0x00000013 = 0x13) ∧
      (fieldRsv 0x00000021 = 0 ∧ fieldCh 0x00000021 = 0 ∧ fieldOpc 0x00000021 = 0x21) ∧
      (fieldRsv 0x00000022 = 0 ∧ fieldCh 0x00000022 = 0 ∧ fieldOpc 0x00000022 = 0x22) ∧
      (fieldRsv 0x0000FF23 = 0 ∧ fieldOpc 0x0000FF23 = 0x23) ∧ (fieldRsv 0x00000024 = 0 ∧ fieldOpc 0x00000024 = 0x24) ∧
      ¬ (fieldOpc 0x00000111 ∈ [0x11, 0x12, 0x13] ∧ fieldCh 0x00000111 = 0) ∧
      (¬ (fieldOpc 0x00000020 ∈ [0x21, 0x22] ∧ fieldCh 0x00000020 = 0) ∧ fieldOpc 0x00000020 ∉ [0x23, 0x24]) ∧
      (constructed 0 0).channelsLegal ∧ (constructed 0 0).hb.channels ≠ 0 ∧
      (constructed 0 0).build.maxChannels ≤ (fieldCh 0x00000224).toNat := by
  unfold State.channelsLegal
  decide

theorem witness_IllegalCommandHasNoEffect :
    idle.busy .fft = false ∧ decode .fft 0x00000021 = .error .wrongUnit ∧
      idle.busy .hb = false ∧ decode .hb 0x80000023 = .error .reservedNonzero := by decide

theorem witness_StepRunsDecodedCommand :
    constructing.nextAgent = unitAgent .hb ∧ constructing.running .hb = some 0x00000021 ∧
      decode .hb 0x00000021 = .ok .hbConstruct := by decide +kernel

theorem witness_PowerOnResetAborts :
    t0.Legal ∧ ({ inFlight with schedule := [.powerOn] } : State).nextAgent = .powerOn := ⟨t0_legal, rfl⟩

theorem witness_EveryStepKeepsInvariant : inFlight.Inv ∧ ∃ t, step inFlight = .next t := by
  refine ⟨⟨t0_legal, .inl rfl, by unfold State.channelsLegal; decide +kernel,
    by unfold State.tablesLegal; decide +kernel, ?_, ?_, inFlight_captured, ?_⟩, _, rfl⟩
  · constructor <;> decide +kernel
  · constructor <;> decide +kernel
  · intro a h; cases h; exact ⟨.fftIn 0 false false, by decide +kernel, rfl⟩

/-- The smallest and the largest size of NROM = 8. -/
theorem witness_sizes :
    (PowerOfTwo (withFft 8 []).fftArg.toNat ∧ (withFft 8 []).fftArg.toNat ≤ (withFft 8 []).build.nrom) ∧
      (withFft 1 []).fftArg.toNat = 2 ^ 0 ∧ 2 ^ 0 ≤ (withFft 1 []).build.nrom ∧
      (withFft 8 []).fftArg.toNat = 2 ^ 3 ∧ 2 ^ 3 ≤ (withFft 8 []).build.nrom :=
  ⟨⟨⟨3, by decide +kernel⟩, by decide +kernel⟩, by decide +kernel⟩

theorem witness_FftSizeErrorsHaveNoEffect :
    Instr.fftInverse.unit = .fft ∧ ¬ PowerOfTwo (withFft 0 []).fftArg.toNat ∧
      PowerOfTwo (withFft 16 []).fftArg.toNat ∧ (withFft 16 []).build.nrom < (withFft 16 []).fftArg.toNat := by
  refine ⟨rfl, ?_, ⟨4, by decide +kernel⟩, by decide +kernel⟩
  rintro ⟨j, h⟩
  have : 0 < 2 ^ j := Nat.pos_of_ne_zero (by positivity)
  have h0 : (withFft 0 []).fftArg.toNat = 0 := by decide +kernel
  omega

theorem witness_TransformReadsInputBuffer : inFlight.Captured ∧ inFlight.fftArg = 8 := ⟨inFlight_captured, by decide +kernel⟩

theorem witness_TransformIsRecursive : (List.replicate 4 czero).length = 2 ^ (0 + 2) := by decide

theorem witness_TwiddleIndexIsInRom :
    idle.build.Legal ∧ 2 ≤ 3 ∧ 2 ^ 3 ≤ idle.build.nrom ∧ 3 < 2 ^ 3 / 2 ∧ idle.build.fmt = .binary64 :=
  ⟨t0_legal, by decide, by decide +kernel, by decide, rfl⟩

theorem witness_SizeOneIsIdentity :
    ∃ s : State, s.Captured ∧ s.fftArg = 1 := by
  refine ⟨withFft 1 [], ⟨(fun j h => by cases h), (fun j h => by cases h)⟩, by decide +kernel⟩

theorem witness_SmallTransformsHaveNoDirection :
    (withFft 1 []).fftArg = 1 ∧ (withFft 2 []).fftArg = 2 := by decide +kernel

theorem witness_TwiddleExactEntries : 4 ≤ t0.nrom := by decide +kernel

/-- The least and the greatest index of NROM = 8. -/
theorem witness_TwiddleIsCorrectlyRounded :
    (0 < 1 ∧ 3 < t0.nrom / 2 ∧ 4 * 1 ≠ t0.nrom ∧ 4 * 3 ≠ t0.nrom) ∧ 128 ∈ precisions ∧
      twiddleAt t0.fmt t0.log2Nrom 1 false 128 = some 0x3FE6A09E667F3BCD ∧
      (twiddleAt t0.fmt t0.log2Nrom 3 true 128).isSome = true := by decide +kernel

theorem witness_ConstructBuildsTables :
    t0.Legal ∧ (isFinite .binary64 (withHb 0x40F3880000000000 2).hb.operands.srate = true ∧
      flt .binary64 fzero (withHb 0x40F3880000000000 2).hb.operands.srate = true ∧
      (withHb 0x40F3880000000000 2).hb.operands.nchan ≠ 0 ∧
      (withHb 0x40F3880000000000 2).hb.operands.nchan.toNat ≤ t0.maxChannels) := ⟨t0_legal, by decide +kernel⟩

/-- Infinity and -0; zero channels and one too many. -/
theorem witness_ConstructErrorsHaveNoEffect :
    isFinite .binary64 (withHb 0x7FF0000000000000 1).hb.operands.srate = false ∧
      flt .binary64 fzero (withHb 0x8000000000000000 1).hb.operands.srate = false ∧
      (isFinite .binary64 (withHb (num 1) 0).hb.operands.srate = true ∧
        flt .binary64 fzero (withHb (num 1) 0).hb.operands.srate = true ∧ (withHb (num 1) 0).hb.operands.nchan = 0) ∧
      t0.maxChannels < (withHb (num 1) 3).hb.operands.nchan.toNat := by decide +kernel

/-- 48000, and the smallest subnormal, where the quotient overflows (V-H1). -/
theorem witness_FrequencyFactorIsClamped :
    isFinite .binary64 0x40E7700000000000 = true ∧ isPositive .binary64 0x40E7700000000000 = true ∧
      isFinite .binary64 0x0000000000000001 = true ∧ isPositive .binary64 0x0000000000000001 = true ∧
      isFinite .binary64 (fdiv ⟨.binary64, ⟨.hb, 0, []⟩⟩ (ffRef .binary64) 0x0000000000000001) = false := by decide +kernel

theorem witness_ResetZeroesEverySection : (constructed 0 0).build.Legal := t0_legal

theorem witness_ProcessSample : 1 < (constructed 0 0).hb.channels.toNat := by decide

theorem witness_ProcessErrorsHaveNoEffect :
    idle.hb.channels = 0 ∧ (constructed 0 0).hb.channels ≠ 0 ∧ (constructed 0 0).hb.channels.toNat ≤ 2 := by decide

theorem witness_HbOperandsAreTheRegisters : constructing.Captured where
  fft j h := by cases h
  hb j h := by cases h; exact ⟨rfl, rfl⟩

/-- Two states that differ in section 0 and agree on section 11. -/
theorem witness_SectionsAreParallel :
    ∃ s s' : State, 11 < order ∧ s'.build = s.build ∧ s'.hb.serial = s.hb.serial ∧ s'.section 0 11 = s.section 0 11 ∧
      s'.entry .spole 11 = s.entry .spole 11 ∧ s'.entry .scoeff 11 = s.entry .scoeff 11 ∧
      s'.section 0 0 ≠ s.section 0 0 := by
  refine ⟨constructed (num 1) 0, { constructed (num 1) 0 with
    hb := { (constructed (num 1) 0).hb with state := Memory.setCplx .binary64 [] 0x010000 ⟨num 1, num 2⟩ } },
    by decide, by decide +kernel, by decide +kernel, by decide +kernel, by decide +kernel, by decide +kernel,
    by decide +kernel⟩

theorem witness_ZeroSampleKeepsZeroChannel :
    1 < (constructed 0x8000000000000000 0).hb.channels.toNat ∧
      (∀ i, i < order → bothFinite .binary64 ((constructed 0x8000000000000000 0).entry .spole i) ∧
        bothFinite .binary64 ((constructed 0x8000000000000000 0).entry .scoeff i) ∧
        bothZero .binary64 ((constructed 0x8000000000000000 0).section 1 i)) ∧
      isZero .binary64 (constructed 0x8000000000000000 0).hb.operands.xre = true ∧
      bothZero .binary64 ⟨(constructed 0x8000000000000000 0).hb.operands.xre, (constructed 0x8000000000000000 0).hb.operands.xim⟩ := by
  refine ⟨by decide, ?_, by decide +kernel, by constructor <;> decide +kernel⟩
  intro i hi
  have h : ∀ j : Fin 12, (isFinite .binary64 ((constructed 0x8000000000000000 0).entry .spole j).re = true ∧
      isFinite .binary64 ((constructed 0x8000000000000000 0).entry .spole j).im = true) ∧
      (isFinite .binary64 ((constructed 0x8000000000000000 0).entry .scoeff j).re = true ∧
        isFinite .binary64 ((constructed 0x8000000000000000 0).entry .scoeff j).im = true) ∧
      isZero .binary64 ((constructed 0x8000000000000000 0).section 1 j).re = true ∧
      isZero .binary64 ((constructed 0x8000000000000000 0).section 1 j).im = true := by decide +kernel
  exact h ⟨i, hi⟩

theorem witness_OnlyConstructWritesConstruction :
    (∃ t, step constructing = .next t ∧ constructing.nextAgent ≠ .powerOn ∧ ¬ SameConstruction constructing t) ∧
      (Instr.hbProcessR 0).unit = .hb ∧ Instr.hbProcessR 0 ≠ .hbConstruct := by
  refine ⟨⟨_, rfl, by decide, fun h => ?_⟩, rfl, by decide⟩
  have hc := h.channels
  revert hc
  decide +kernel

/-- e^-1/4, and both parts of CEXP(-1/4, 1/4) (V-N15, V-N19). -/
theorem witness_CexpIsCorrectlyRounded :
    isFinite .binary64 0xBFD0000000000000 = true ∧ isFinite .binary64 0x3FD0000000000000 = true ∧
      isZero .binary64 0x3FD0000000000000 = false ∧ isZero .binary64 0x8000000000000000 = true ∧ 128 ∈ precisions ∧
      rexpAt .binary64 0xBFD0000000000000 128 = some 0x3FE8EBEF9EAC820B ∧
      cexpAt .binary64 0xBFD0000000000000 0x3FD0000000000000 false 128 = some 0x3FE8259968BF75F8 ∧
      cexpAt .binary64 0xBFD0000000000000 0x3FD0000000000000 true 128 = some 0x3FC8A9AF8B50A267 := by decide +kernel

/-- Every reason for a BusError, at the edges of the map, and the last mapped words. -/
theorem witness_BusErrorHasNoEffect :
    Width.bits16 ≠ .bits32 ∧ (0x000002 : BitVec 22).toNat % 4 ≠ 0 ∧ locate t0 (0x200080 : BitVec 22).toNat = none ∧
      (locate t0 (0x00000C : BitVec 22).toNat = some .fftMaxSize ∧ Loc.fftMaxSize.writable = false) ∧
      locate t0 (0x20007C : BitVec 22).toNat = some (.fftOut 7 true true) ∧
      locate t0 (0x10007C : BitVec 22).toNat = some (.fftIn 7 true true) ∧ (Loc.fftIn 7 true true).writable = true := by
  decide +kernel

theorem witness_WritesStoreAndReadsDoNot :
    idle.build.Legal ∧ (Loc.fftIn 7 true true).mapped idle.build ∧ (Loc.fftIn 7 true true).writable = true ∧
      idle.busy (Loc.fftIn 7 true true).unit = false ∧ (Loc.hbSlot .xim true).mapped idle.build ∧
      (Loc.hbSlot .xim true).writable = true ∧ Loc.fftCmd.mapped idle.build ∧ Loc.fftCmd.writable = true ∧
      (Loc.fftOut 7 true true).mapped idle.build :=
  ⟨t0_legal, ⟨by decide +kernel, fun _ => rfl⟩, rfl, rfl, fun _ => rfl, rfl, trivial, rfl, by decide +kernel, fun _ => rfl⟩

theorem witness_CommandWriteIsAccepted :
    idle.busy .fft = false ∧ inFlight.busy .fft = true ∧
      (({ inFlight with port := { pending := some (commandWrite .fft 0x12), response := none } } : State).port.pending =
        some (commandWrite .fft 0x12)) ∧
      (({ idle with port := { pending := some (commandWrite .hb 0x22), response := none } } : State).port.pending =
        some (commandWrite .hb 0x22)) := by decide +kernel

theorem witness_AccessToBusyUnitIsHeld :
    target inFlight.build ⟨.bits8, 0x100000, .read⟩ = none ∧
      target inFlight.build heldRead = some (.fftIn 0 false false) ∧ Loc.isStatus (.fftIn 0 false false) = false ∧
      inFlight.busy (Loc.unit (.fftIn 0 false false)) = true ∧ inFlight.port.pending = some heldRead ∧
      ({ idle with script := [.access heldRead] } : State).port.pending = none ∧
      idle.busy (Loc.unit (.fftIn 0 false false)) = false := by decide +kernel

theorem witness_StatusReadIsNeverHeld : inFlight.port.pending = some heldRead ∧ inFlight.holds heldRead = true := by
  decide +kernel

/-- The largest NROM and MAX_CHANNELS, in both formats. -/
theorem witness_ParamsShowTheBuild :
    ({ t0 with log2Nrom := 16, maxChannels := 256 } : Build).Legal ∧
      ({ t0 with fmt := .binary32, log2Nrom := 0, maxChannels := 1, coeff := List.replicate 12 czero, directGain := fzero } :
        Build).Legal := by decide +kernel

theorem witness_UnitsAreIndependent :
    (∃ t, inFlight.unitMove .fft = .next t) ∧ (∃ t, constructing.unitMove .hb = .next t) ∧
      ∃ s s' t t' : State, s'.fft = s.fft ∧ s'.build = s.build ∧ s'.epoch = s.epoch ∧ s'.hb ≠ s.hb ∧
        s.unitMove .fft = .next t ∧ s'.unitMove .fft = .next t' :=
  ⟨⟨_, rfl⟩, ⟨_, rfl⟩, inFlight, { inFlight with hb := (constructed 0 0).hb }, _, _, rfl, rfl, rfl, by decide +kernel, rfl, rfl⟩

theorem witness_BusyUnitIsFrozen :
    (∃ t, step inFlight = .next t) ∧ inFlight.nextAgent ≠ .powerOn ∧ inFlight.busy .fft = true ∧ inFlight.nextAgent ≠ .fft ∧
      constructing.busy .hb = true ∧ ({ constructing with schedule := [.host] } : State).nextAgent ≠ .hb :=
  ⟨⟨_, rfl⟩, by decide, by decide, by decide, by decide, by decide⟩

/-- A write to HB_NCHAN between the acceptance and the completion of an FFT command. -/
theorem witness_CommandRunsAsAtItsAcceptance :
    ∃ s m t : State, runsWithout [.fft, .powerOn] 1 (s.accept 0x12 .fft) m ∧ m.nextAgent = .fft ∧ step m = .next t ∧
      m.hb.nchan = 2 := by
  refine ⟨{ withFft 8 [⟨num 1, 0⟩] with
    script := [.access ⟨.bits32, 0x000108, .write 2⟩], schedule := [.host] }, _, _, ⟨by decide, _, rfl, rfl⟩, ?_, rfl, ?_⟩
  · decide +kernel
  · decide +kernel

theorem witness_CommandsAndHoldsEnd :
    Agent.powerOn ∉ inFlight.schedule ∧ inFlight.running .fft = some 0x12 ∧ inFlight.port.pending = some heldRead ∧
      Agent.powerOn ∉ constructing.schedule ∧ constructing.running .hb = some 0x21 := by decide

theorem witness_MnemonicIssuesItsCommand :
    (Instr.hbProcessR 255).WellFormed ∧
      ({ idle with script := Stmt.expand .binary64 (.command (.hbProcessR 255)) ++ [] } : State).nextAgent = .host ∧
      idle.port.pending = none ∧ idle.busy (Instr.hbProcessR 255).unit = false := by decide

theorem witness_PollReadsUntilIdle :
    ({ constructing with schedule := [.host], script := Stmt.expand .binary64 (.poll .hb) ++ [] } : State).nextAgent = .host ∧
      constructing.port.pending = none ∧ constructing.busy .hb = true := by decide

/-- An idle block whose host is to write -2.0 and one unit in the last place to a value slot. -/
def writing (slot : Loc) : State :=
  { idle with script := Stmt.expand .binary64 (.wf slot.offset 0xC000000000000001) ++ [.poll .hb] }

/-- HB_XRE, and the last slot of FFT_IN. -/
theorem witness_ValueWriteFillsSlot :
    fitsFormat .binary64 0xC000000000000001 = true ∧
      ((writing (.hbSlot .xre false)).build.Legal ∧ (writing (.hbSlot .xre false)).schedule = [] ∧
        (writing (.hbSlot .xre false)).quiet ∧ Loc.writable (.hbSlot .xre false) = true) ∧
      (writing (.fftIn 7 true false)).build.Legal ∧ (writing (.fftIn 7 true false)).schedule = [] ∧
        (writing (.fftIn 7 true false)).quiet ∧ 7 < (writing (.fftIn 7 true false)).build.nrom :=
  ⟨by decide +kernel, ⟨t0_legal, rfl, ⟨rfl, rfl, rfl⟩, rfl⟩, t0_legal, rfl, ⟨rfl, rfl, rfl⟩, by decide +kernel⟩

/-- 1 + 1, 1 - 0 and 1 × 1 and 1 / 1. -/
theorem witness_ArithmeticRoundsToNearest :
    isFinite .binary64 0x3FF0000000000000 = true ∧ fitsFormat .binary64 0x3FF0000000000000 = true ∧
      isFinite .binary64 0 = true ∧ fitsFormat .binary64 0 = true ∧
      realValue .binary64 0x3FF0000000000000 + realValue .binary64 0 ≠ 0 ∧
      realValue .binary64 0x3FF0000000000000 - realValue .binary64 0 ≠ 0 ∧
      realValue .binary64 0x3FF0000000000000 * realValue .binary64 0x3FF0000000000000 ≠ 0 := by
  have h1 : realValue .binary64 0x3FF0000000000000 ≠ 0 := by
    rw [Ne, realValue_eq_zero]; decide +kernel
  have h0 : realValue .binary64 0 = 0 := by
    rw [realValue_eq_zero]; decide +kernel
  refine ⟨by decide +kernel, by decide +kernel, by decide +kernel, by decide +kernel, ?_, ?_, mul_ne_zero h1 h1⟩
  · rw [h0, add_zero]; exact h1
  · rw [h0, sub_zero]; exact h1

/-- A NaN, two infinities of either sign, an infinity and a zero, two zeros. -/
theorem witness_NanResults :
    isNaN .binary64 0x7FF0000000000001 = true ∧ isInf .binary64 0x7FF0000000000000 = true ∧
      isInf .binary64 0xFFF0000000000000 = true ∧ fitsFormat .binary64 0xFFF0000000000000 = true ∧
      signBit .binary64 0x7FF0000000000000 ≠ signBit .binary64 0xFFF0000000000000 ∧
      isZero .binary64 0x8000000000000000 = true ∧ isZero .binary32 0x80000000 = true := by decide +kernel

/-- 1 and -1, zeros, infinities: the operands of every clause. -/
theorem witness_SignedZerosAndInfinities :
    (isNaN .binary64 0x3FF0000000000000 = false ∧ fitsFormat .binary64 0x3FF0000000000000 = true ∧
      isFinite .binary64 0x3FF0000000000000 = true ∧ isZero .binary64 0x3FF0000000000000 = false) ∧
    (signBit .binary64 0x3FF0000000000000 ≠ signBit .binary64 (fneg .binary64 0x3FF0000000000000) ∧
      realValue .binary64 0x3FF0000000000000 + realValue .binary64 (fneg .binary64 0x3FF0000000000000) = 0) ∧
    isZero .binary64 0x8000000000000000 = true ∧ isInf .binary64 0xFFF0000000000000 = true ∧
    isNaN .binary64 (fmul ⟨.binary64, ⟨.fft, 0, []⟩⟩ 0x3FF0000000000000 0x8000000000000000) = false ∧
    isNaN .binary64 (fdiv ⟨.binary64, ⟨.fft, 0, []⟩⟩ 0x3FF0000000000000 0x8000000000000000) = false := by
  refine ⟨by decide +kernel, ⟨by decide +kernel, ?_⟩, by decide +kernel, by decide +kernel, by decide +kernel, by decide +kernel⟩
  rw [realValue_fneg _ _ (by decide +kernel), add_neg_cancel]

theorem witness_SignFlipIsExact : fitsFormat .binary32 0xFFFFFFFF = true ∧ (63 : Nat) < 64 := by decide

theorem witness_ComparisonsAreOrdered :
    isNaN .binary64 0xFFF0000000000001 = true ∧ isFinite .binary64 0x8000000000000000 = true ∧
      isInf .binary64 0x7FF0000000000000 = true ∧ isNaN .binary64 0x7FF0000000000000 = false := by decide +kernel

/-- The smallest subnormal. -/
theorem witness_SubnormalsAreKept :
    isFinite .binary64 1 = true ∧ fitsFormat .binary64 1 = true ∧ isZero .binary64 1 = false ∧
      isFinite .binary32 0x80000001 = true ∧ fitsFormat .binary32 0x80000001 = true := by decide +kernel

end Sys2Proof.Tests
end

section
/-! Settled: the two units are independent of each other (00_scope.md R3). -/

namespace Sys2Proof.Machine

/-- One new FFT unit serves every state that agrees on the FFT unit, the build and the power-on count: the turn puts it in
place of the old one and keeps the rest of that state. -/
theorem unitMove_fft_eq_of_agree (s : State) : ∃ u : FftUnit, ∀ s' t' : State,
    s'.fft = s.fft → s'.build = s.build → s'.epoch = s.epoch → s'.unitMove .fft = .next t' → t' = { s' with fft := u } := by
  obtain ⟨u, -, -, -, -, hmove⟩ := unitMove_fft_spec s.build s.fft s.epoch
  refine ⟨u, ?_⟩
  rintro ⟨b, f, h, p, sc, sch, e⟩ t' rfl rfl rfl ht
  exact (Host.Outcome.next.inj ((hmove h p sc sch).symm.trans ht)).symm

/-- One new HB unit serves every state that agrees on the HB unit, the build and the power-on count: the turn puts it in
place of the old one and keeps the rest of that state. -/
theorem unitMove_hb_eq_of_agree (s : State) : ∃ u : HbUnit, ∀ s' t' : State,
    s'.hb = s.hb → s'.build = s.build → s'.epoch = s.epoch → s'.unitMove .hb = .next t' → t' = { s' with hb := u } := by
  obtain ⟨u, -, -, -, hmove⟩ := unitMove_hb_spec s.build s.hb s.epoch
  refine ⟨u, ?_⟩
  rintro ⟨b, f, g, p, sc, sch, e⟩ t' rfl rfl rfl ht
  exact (Host.Outcome.next.inj ((hmove f p sc sch).symm.trans ht)).symm

/-- Settles O45: each unit's turn replaces that unit alone, by one that the unit, the build and the power-on count fix. -/
theorem unitsAreIndependent : Obligations.UnitsAreIndependent := by
  refine ⟨fun s t h => ?fftWrites, fun s t h => ?hbWrites, fun s s' t t' hu hb he h h' => ?fftReads,
    fun s s' t t' hu hb he h h' => ?hbReads⟩
  case fftWrites =>
    obtain ⟨u, hnew⟩ := unitMove_fft_eq_of_agree s
    obtain rfl := hnew s t rfl rfl rfl h
    exact ⟨rfl, rfl, rfl, rfl, rfl, rfl⟩
  case hbWrites =>
    obtain ⟨u, hnew⟩ := unitMove_hb_eq_of_agree s
    obtain rfl := hnew s t rfl rfl rfl h
    exact ⟨rfl, rfl, rfl, rfl, rfl, rfl⟩
  case fftReads =>
    obtain ⟨u, hnew⟩ := unitMove_fft_eq_of_agree s
    rw [hnew s t rfl rfl rfl h, hnew s' t' hu hb he h']
  case hbReads =>
    obtain ⟨u, hnew⟩ := unitMove_hb_eq_of_agree s
    rw [hnew s t rfl rfl rfl h, hnew s' t' hu hb he h']

end Sys2Proof.Machine
end

section
/-! Settled: the layout of STATUS (10_state.md R25). -/

namespace Sys2Proof.Machine

/-- Every result code fits the four bits of the ECODE field (60_exceptions.md R211). -/
theorem ECode.code_lt_two_pow_four (e : ECode) : e.code < 2 ^ 4 := by
  cases e <;> decide

/-- STATUS splits at bit 8: BUSY, read as 0 or 1, is the low byte and ECODE stands above it. -/
theorem getLsbD_statusWord (busy : Bool) (e : ECode) {i : Nat} (hi : i < 32) :
    (statusWord busy e).getLsbD i = if i < 8 then busy.toNat.testBit i else e.code.testBit (i - 8) := by
  have hbusy : (if busy then 1 else 0) = busy.toNat := by cases busy <;> rfl
  have hbyte : busy.toNat < 2 ^ 8 := busy.toNat_lt.trans (by decide)
  rw [statusWord, hbusy, BitVec.getLsbD_ofNat, decide_eq_true hi, Bool.true_and, Nat.mul_comm,
    Nat.testBit_two_pow_mul_add _ hbyte]

/-- Settles O43: below bit 8 STATUS is BUSY alone, and a result code, being below 16, leaves the bits above 11 clear. -/
theorem statusLayout : Obligations.StatusLayout := by
  intro busy e i hi
  rw [getLsbD_statusWord busy e hi]
  rcases Nat.lt_or_ge i 8 with hlow | hhigh
  · rw [if_pos hlow, if_neg (by omega : ¬(8 ≤ i ∧ i ≤ 11)), Nat.testBit_bool_toNat]
    by_cases hbusy : i = 0 <;> simp [hbusy]
  · rw [if_neg (by omega : ¬i < 8), if_neg (by omega : ¬i = 0)]
    by_cases hfield : i ≤ 11
    · rw [if_pos ⟨hhigh, hfield⟩]
    · have hcode : e.code < 2 ^ (i - 8) :=
        e.code_lt_two_pow_four.trans_le (Nat.pow_le_pow_right (by decide) (by omega))
      rw [if_neg (fun h => hfield h.2), Nat.testBit_lt_two_pow hcode]

end Sys2Proof.Machine
end

section
/-! Settled: what a BusError leaves, and what a read and a write through the port do (20_memory.md R61, R67, R68). -/

namespace Sys2Proof.Machine

/-! ## Accesses that the port refuses -/

/-- The reasons of 20_memory.md R61 and R67: the width, the alignment, the map, and the access rights. -/
theorem target_eq_none_of_refused {b : Build} {a : Access}
    (h : a.width ≠ .bits32 ∨ a.off.toNat % 4 ≠ 0 ∨ locate b a.off.toNat = none ∨
      ∃ l v, locate b a.off.toNat = some l ∧ l.writable = false ∧ a.kind = .write v) : target b a = none := by
  rw [Option.eq_none_iff_forall_ne_some]
  intro l hl
  obtain ⟨hwidth, hloc, hrights⟩ := target_eq_some.1 hl
  rcases h with hbad | hbad | hbad | ⟨l', v, hloc', hro, hkind⟩
  · exact hbad hwidth
  · exact hbad (locate_some hloc).2.2
  · simp [hbad] at hloc
  · obtain rfl : l' = l := Option.some.inj (hloc'.symm.trans hloc)
    simp [hkind, hro] at hrights

/-- A response to the host shows in no byte of the block. -/
@[simp] theorem State.respond_byteAt (s : State) (r : Response) (x : Nat) : (s.respond r).byteAt x = s.byteAt x :=
  byteAt_congr rfl fun l _ _ _ => s.respond_readLoc r l

/-- An access that reaches a word is answered with data or done. -/
theorem State.perform_response_ne_busError {s : State} {a : Access} {l : Loc} (h : target s.build a = some l) :
    (s.perform a).port.response ≠ some .busError := by
  rcases s.perform_cases a with ⟨hnone, -⟩ | ⟨_, -, -, hread⟩ | ⟨_, _, -, -, hwrite⟩
  · simp [h] at hnone
  · simp [hread]
  · simp [hwrite]

/-- Settles O38: each listed reason leaves the access without a target, so that the port answers it and does nothing else;
an access with a target is performed. -/
theorem busErrorHasNoEffect : Obligations.BusErrorHasNoEffect := by
  refine fun s a => ⟨fun hrefused => ?refused, fun l hwidth hloc hrights => ?performed⟩
  case refused =>
    have htarget := target_eq_none_of_refused hrefused
    rw [s.perform_busError htarget]
    exact ⟨rfl, by simp [State.holds, htarget], rfl, rfl, s.respond_byteAt _⟩
  case performed => exact State.perform_response_ne_busError (target_eq_some.2 ⟨hwidth, hloc, hrights⟩)

/-! ## The words of a value (20_memory.md R64) -/

theorem wordOf_replaceWord_same {b : Build} {high : Bool} (hexists : wordExists b high) (v : F) (w : Word) :
    wordOf (replaceWord b.fmt v high w) high = w := by
  cases high with
  | true =>
    rw [hexists rfl]
    exact highWord_append w (lowWord v)
  | false => cases b.fmt <;> exact lowWord_append _ w

theorem wordOf_replaceWord_other {b : Build} {high high' : Bool} (hexists : wordExists b high)
    (hexists' : wordExists b high') (hne : high' ≠ high) (v : F) (w : Word) :
    wordOf (replaceWord b.fmt v high w) high' = wordOf v high' := by
  cases high with
  | true =>
    obtain rfl : high' = false := by simpa using hne
    rw [hexists rfl]
    exact lowWord_append w (lowWord v)
  | false =>
    obtain rfl : high' = true := by simpa using hne
    rw [hexists' rfl]
    exact highWord_append (highWord v) w

/-! ## The word stored, and the words kept -/

@[simp] theorem State.writeLoc_cmdLoc (s : State) (u : UnitId) (w : Word) : s.writeLoc (cmdLoc u) w = s.accept w u := by
  cases u <;> rfl

/-- A write to a value slot is one to HB_SRATE, HB_PGAIN, HB_XRE or HB_XIM (10_state.md R32). -/
theorem HbUnit.writeSlot_eq_inputs (u : HbUnit) (fmt : Format) (r : HbSlot) (high : Bool) (w : Word) :
    ∃ sr pg xr xi, u.writeSlot fmt r high w = { u with srate := sr, pgain := pg, xre := xr, xim := xi } := by
  cases r <;> exact ⟨_, _, _, _, rfl⟩

/-- The value slots after a write to a word of slot `r`. -/
theorem State.slot_writeLoc (s : State) (r r' : HbSlot) (high : Bool) (w : Word) :
    (s.writeLoc (.hbSlot r high) w).slot r' =
      if r' = r ∧ (Loc.hbSlot r high).writable = true then replaceWord s.build.fmt (s.slot r) high w else s.slot r' := by
  cases r <;> cases r' <;> rfl

theorem State.readLoc_writeLoc_same {s : State} {l : Loc} (hm : l.mapped s.build) (hw : l.writable = true) (w : Word) :
    (s.writeLoc l w).readLoc l = w := by
  cases l with
  | fftCmd => rfl
  | fftArg => rfl
  | hbCmd => rfl
  | hbNchan => rfl
  | hbSlot r high =>
    rw [State.readLoc, State.slot_writeLoc, if_pos ⟨rfl, hw⟩]
    exact wordOf_replaceWord_same hm _ _
  | fftIn k imag high => exact Memory.word_setWord_same _ _ _ _
  | _ => cases hw

/-- The acceptance of a command shows in its unit's CMD and STATUS only (30_encoding.md R93). -/
theorem State.readLoc_accept_other (s : State) {u : UnitId} {l : Loc} (hcmd : l ≠ cmdLoc u) (hstatus : l ≠ statusLoc u)
    (w : Word) : (s.accept w u).readLoc l = s.readLoc l := by
  cases u with
  | fft =>
    cases l with
    | fftCmd => exact absurd rfl hcmd
    | fftStatus => exact absurd rfl hstatus
    | _ => rfl
  | hb =>
    cases l with
    | hbCmd => exact absurd rfl hcmd
    | hbStatus => exact absurd rfl hstatus
    | _ => rfl

theorem State.readLoc_writeLoc_hbSlot_other {s : State} {r : HbSlot} {high : Bool} {l : Loc}
    (hm : wordExists s.build high) (hm' : l.mapped s.build) (hne : l ≠ .hbSlot r high) (w : Word) :
    (s.writeLoc (.hbSlot r high) w).readLoc l = s.readLoc l := by
  cases l with
  | hbSlot r' high' =>
    rw [State.readLoc, State.slot_writeLoc]
    split
    case isTrue hslot =>
      obtain ⟨rfl, -⟩ := hslot
      exact wordOf_replaceWord_other hm hm' (fun hhigh => hne (hhigh ▸ rfl)) _ _
    case isFalse => rfl
  | _ =>
    obtain ⟨sr, pg, xr, xi, hinputs⟩ := s.hb.writeSlot_eq_inputs s.build.fmt r high w
    rw [State.writeLoc, hinputs]
    rfl

/-- Two words of FFT_IN overlap only if they are one word. -/
theorem State.readLoc_writeLoc_fftIn_other {s : State} (hb : s.build.Legal) {k : Nat} {imag high : Bool} {l : Loc}
    (hm : (Loc.fftIn k imag high).mapped s.build) (hm' : l.mapped s.build) (hne : l ≠ .fftIn k imag high) (w : Word) :
    (s.writeLoc (.fftIn k imag high) w).readLoc l = s.readLoc l := by
  cases l with
  | fftIn k' imag' high' =>
    have haligned := (Loc.offset_lt hb hm).2
    have haligned' := (Loc.offset_lt hb hm').2
    have hoffsets := mt (Loc.offset_injective hb hm' hm) hne
    exact Memory.word_setWord_other _ _ _ _ _ (by omega)
  | _ => rfl

/-- A write changes no other listed word, the STATUS of a unit whose command it issues apart (20_memory.md R68). -/
theorem State.readLoc_writeLoc_other {s : State} (hb : s.build.Legal) {l l' : Loc} (hm : l.mapped s.build)
    (hm' : l'.mapped s.build) (hne : l' ≠ l) (hstatus : ∀ u, l = cmdLoc u → l' ≠ statusLoc u) (w : Word) :
    (s.writeLoc l w).readLoc l' = s.readLoc l' := by
  cases l with
  | fftCmd => exact s.readLoc_accept_other (u := .fft) hne (hstatus .fft rfl) w
  | hbCmd => exact s.readLoc_accept_other (u := .hb) hne (hstatus .hb rfl) w
  | fftArg =>
    cases l' with
    | fftArg => exact absurd rfl hne
    | _ => rfl
  | hbNchan =>
    cases l' with
    | hbNchan => exact absurd rfl hne
    | _ => rfl
  | hbSlot r high => exact State.readLoc_writeLoc_hbSlot_other hm hm' hne w
  | fftIn k imag high => exact State.readLoc_writeLoc_fftIn_other hb hm hm' hne w
  | _ => rfl

/-- Settles O39: a listed word is the target of the access at its offset, and a write there is `State.writeLoc`. -/
theorem writesStoreAndReadsDoNot : Obligations.WritesStoreAndReadsDoNot := by
  intro s l hlegal hm
  refine ⟨s.perform_read (target_of_mapped hlegal hm _ (.inl rfl)) rfl, fun hw _ v =>
    ⟨_, s.perform_write (target_of_mapped hlegal hm _ (.inr hw)) rfl, ?stored, ?issued, ?kept⟩⟩
  case stored => rw [State.respond_readLoc, State.readLoc_writeLoc_same hm hw]
  case issued =>
    intro u
    rcases eq_or_ne l (cmdLoc u) with rfl | hne
    · exact .inr (by rw [State.writeLoc_cmdLoc])
    · exact .inl (by cases u <;> exact hne)
  case kept =>
    intro l' hm' hne hfft hhb
    rw [State.respond_readLoc]
    refine State.readLoc_writeLoc_other hlegal hm hm' hne (fun u hcmd => ?_) v
    cases u with
    | fft => exact hfft hcmd
    | hb => exact hhb hcmd

end Sys2Proof.Machine
end

section
/-! Settled: the command word; its encoder and its decoder agree, and an accepted word runs the command whose fields it
has (30_encoding.md R90, R92, R94). -/

namespace Sys2Proof

/-! ## The fields of a command -/

/-- The opcode map takes the fields of a well-formed command back to it. -/
theorem decodeOpcode_fields {i : Instr} (h : i.WellFormed) : decodeOpcode i.opc i.chField = .ok i := by
  have channel : ∀ {ch : Nat}, ch ≤ 255 → (BitVec.ofNat 8 ch).toNat = ch := fun hch =>
    Nat.mod_eq_of_lt (Nat.lt_succ_of_le hch)
  cases i with
  | hbProcessR ch => exact congrArg (fun c => Except.ok (Instr.hbProcessR c)) (channel (of_decide_eq_true h))
  | hbProcessC ch => exact congrArg (fun c => Except.ok (Instr.hbProcessC c)) (channel (of_decide_eq_true h))
  | _ => rfl

/-- A value of the field CH is the encoding of the channel it holds. -/
theorem channelField_eq (ch : BitVec 8) : ch = BitVec.ofNat 8 ch.toNat := by
  rw [BitVec.ofNat_toNat, BitVec.setWidth_eq]

/-- An assembler accepts every channel that the field CH can hold (30_encoding.md R97). -/
theorem channelField_wellFormed (ch : BitVec 8) : decide (ch.toNat ≤ 255) = true :=
  decide_eq_true (Nat.le_of_lt_succ ch.isLt)

/-- What the opcode map names has the fields it was named by. -/
theorem fields_of_decodeOpcode {opc ch : BitVec 8} {i : Instr} (h : decodeOpcode opc ch = .ok i) :
    opc = i.opc ∧ ch = i.chField ∧ i.WellFormed := by
  unfold decodeOpcode at h
  split_ifs at h with h11 h12 h13 h21 h22 h23 h24
  case pos | pos | pos | pos | pos =>
    obtain ⟨hch, rfl⟩ := noChannel_ok.1 h
    exact ⟨‹_›, hch, rfl⟩
  case pos | pos =>
    obtain rfl := Except.ok.inj h
    exact ⟨‹_›, channelField_eq ch, channelField_wellFormed ch⟩

/-- A word decodes at a unit exactly if its fields are those of a well-formed command of that unit. -/
theorem decode_ok_iff_fields {u : UnitId} {w : Word} {i : Instr} :
    decode u w = .ok i ↔
      fieldRsv w = 0 ∧ fieldOpc w = i.opc ∧ fieldCh w = i.chField ∧ i.unit = u ∧ i.WellFormed := by
  rw [decode_ok]
  constructor
  · rintro ⟨hrsv, hmap, hunit⟩
    obtain ⟨hopc, hch, hwf⟩ := fields_of_decodeOpcode hmap
    exact ⟨hrsv, hopc, hch, hunit, hwf⟩
  · rintro ⟨hrsv, hopc, hch, hunit, hwf⟩
    exact ⟨hrsv, by rw [hopc, hch, decodeOpcode_fields hwf], hunit⟩

/-! ## The word of a command -/

/-- A word decodes at a unit exactly if it is the encoding of a well-formed command of that unit. -/
theorem decode_ok_iff_encode {u : UnitId} {w : Word} {i : Instr} :
    decode u w = .ok i ↔ w = encode i ∧ i.unit = u ∧ i.WellFormed := by
  rw [decode_ok_iff_fields]
  constructor
  · rintro ⟨hrsv, hopc, hch, hunit, hwf⟩
    refine ⟨?_, hunit, hwf⟩
    rw [← fields_append w, hrsv, hopc, hch, encode]
  · rintro ⟨rfl, hunit, hwf⟩
    exact ⟨fieldRsv_encode i, fieldOpc_encode i, fieldCh_encode i, hunit, hwf⟩

/-- The other unit knows the opcode of a command, and refuses it for the unit (30_encoding.md R95). -/
theorem decode_encode_of_ne_unit {u : UnitId} {i : Instr} (hwf : i.WellFormed) (hu : i.unit ≠ u) :
    decode u (encode i) = .error .wrongUnit := by
  rw [decode, if_pos (fieldRsv_encode i), fieldOpc_encode, fieldCh_encode, decodeOpcode_fields hwf]
  exact if_neg hu

/-- The word of a command names the command's unit (30_encoding.md R90). -/
theorem wordUnit_encode (i : Instr) : wordUnit (encode i) = i.unit := by
  cases i with
  | fftConfigure => exact Laws.TableMatch.fftConfigure.2
  | fftForward => exact Laws.TableMatch.fftForward.2
  | fftInverse => exact Laws.TableMatch.fftInverse.2
  | hbConstruct => exact Laws.TableMatch.hbConstruct.2
  | hbReset => exact Laws.TableMatch.hbReset.2
  | hbProcessR ch => exact (Laws.TableMatch.hbProcessR ch).2
  | hbProcessC ch => exact (Laws.TableMatch.hbProcessC ch).2

/-- The opcode table numbers the bits of a word as the word does. -/
theorem tableWord_toNat (w : Word) : tableWord 32 w.toNat = w := by
  rw [tableWord, Nat.mod_eq_of_lt w.isLt, BitVec.ofNat_toNat, BitVec.setWidth_eq]

/-- Settles O1: the encoding has the fields of the command, which the opcode map takes back, at the unit it names. -/
theorem encodedCommandsDecode : Obligations.EncodedCommandsDecode := by
  intro i hwf
  have hdecode : decode i.unit (encode i) = .ok i := decode_ok_iff_encode.2 ⟨rfl, rfl, hwf⟩
  refine ⟨hdecode, ?table, fun u hu => decode_encode_of_ne_unit hwf hu.symm⟩
  case table => rw [decodeTableWord, tableWord_toNat, wordUnit_encode, hdecode]

/-- Settles O2: the fields of the word are those of the command it decodes to, and a word is its fields. -/
theorem decodedWordIsItsEncoding : Obligations.DecodedWordIsItsEncoding :=
  fun _ _ _ h => decode_ok_iff_encode.1 h

/-- Settles O6: each of the words is the encoding of its command. -/
theorem sampleWordsDecode : Obligations.SampleWordsDecode := by
  have decodes : ∀ {u : UnitId} {w : Word} (i : Instr), w = encode i → i.unit = u → i.WellFormed →
      decode u w = .ok i := fun _ hw hu hwf => decode_ok_iff_encode.2 ⟨hw, hu, hwf⟩
  exact ⟨decodes .fftConfigure (by decide) rfl rfl, decodes .fftForward (by decide) rfl rfl,
    decodes .fftInverse (by decide) rfl rfl, decodes .hbConstruct (by decide) rfl rfl,
    decodes .hbReset (by decide) rfl rfl, decodes (.hbProcessR 5) (by decide) rfl rfl,
    decodes (.hbProcessC 255) (by decide) rfl rfl⟩

/-! ## The commands of each unit -/

/-- The commands of the FFT unit, by their fields (30_encoding.md R92). -/
theorem Instr.fields_of_unit_fft {i : Instr} (h : i.unit = .fft) : i.opc ∈ [0x11, 0x12, 0x13] ∧ i.chField = 0 := by
  cases i with
  | fftConfigure | fftForward | fftInverse => exact ⟨by decide, rfl⟩
  | _ => cases h

/-- The commands of the HB unit, by their fields (30_encoding.md R92). -/
theorem Instr.fields_of_unit_hb {i : Instr} (h : i.unit = .hb) :
    (i.opc ∈ [0x21, 0x22] ∧ i.chField = 0) ∨ i.opc ∈ [0x23, 0x24] := by
  cases i with
  | hbConstruct | hbReset => exact .inl ⟨by decide, rfl⟩
  | hbProcessR ch => exact .inr (show 0x23 ∈ [0x23, 0x24] by decide)
  | hbProcessC ch => exact .inr (show 0x24 ∈ [0x23, 0x24] by decide)
  | _ => cases h

end Sys2Proof

namespace Sys2Proof.Machine

/-! ## An accepted word -/

/-- A word with the fields of a command runs it at its unit. -/
theorem State.executeWord_eq_exec (s : State) {v : Word} (i : Instr) (hrsv : fieldRsv v = 0) (hopc : fieldOpc v = i.opc)
    (hch : fieldCh v = i.chField) (hwf : i.WellFormed) : s.executeWord i.unit v = exec i s := by
  rw [State.executeWord, decode_ok_iff_fields.2 ⟨hrsv, hopc, hch, rfl, hwf⟩]

/-- A word that is no command of the unit ends with ILLEGAL_CMD (30_encoding.md R95). -/
theorem State.executeWord_illegal (s : State) {u : UnitId} {v : Word} (h : ∀ i, decode u v ≠ .ok i) :
    s.executeWord u v = .next (s.cmdError .illegalCmd u) := by
  unfold State.executeWord
  split
  next i hi => exact absurd hi (h i)
  next => rfl

theorem State.executeWord_processR (s : State) {v : Word} (hrsv : fieldRsv v = 0) (hopc : fieldOpc v = 0x23) :
    s.executeWord .hb v = exec (.hbProcessR (fieldCh v).toNat) s :=
  s.executeWord_eq_exec (.hbProcessR _) hrsv hopc (channelField_eq _) (channelField_wellFormed _)

theorem State.executeWord_processC (s : State) {v : Word} (hrsv : fieldRsv v = 0) (hopc : fieldOpc v = 0x24) :
    s.executeWord .hb v = exec (.hbProcessC (fieldCh v).toNat) s :=
  s.executeWord_eq_exec (.hbProcessC _) hrsv hopc (channelField_eq _) (channelField_wellFormed _)

/-- The words of both PROCESS commands run one, on the channel in the field CH. -/
theorem State.executeWord_process (s : State) {v : Word} (hrsv : fieldRsv v = 0) (hopc : fieldOpc v ∈ [0x23, 0x24]) :
    ∃ x, s.executeWord .hb v = .next (hbProcess x (fieldCh v).toNat s) := by
  rcases List.mem_pair.1 hopc with hR | hC
  · exact ⟨s.realSample, s.executeWord_processR hrsv hR⟩
  · exact ⟨s.complexSample, s.executeWord_processC hrsv hC⟩

/-- A constructed unit refuses a channel that it does not have (42_hilbert.md R177). -/
theorem hbProcess_absentChannel {s : State} (x : Sample) {ch : Nat} (hconstructed : s.hb.channels ≠ 0)
    (habsent : s.hb.channels.toNat ≤ ch) : hbProcess x ch s = s.cmdError .hbChannel .hb := by
  rw [hbProcess, processError_channel _ _ hconstructed habsent]

/-- Settles O3: a word runs the command whose fields it has; every command has RSV = 0 and the fields that R94 lists for
its unit, so that every other word is illegal. -/
theorem acceptedWordIsDecoded : Obligations.AcceptedWordIsDecoded := by
  intro s v
  refine ⟨fun hrsv u => ?reserved, fun hrsv hch => ?noChannel,
    fun hrsv => ⟨s.executeWord_processR hrsv, s.executeWord_processC hrsv⟩, fun hfields => ?otherFft,
    fun hfields hopc => ?otherHb, fun hrsv hopc hlegal hconstructed hch => ?absentChannel⟩
  case reserved => exact s.executeWord_illegal fun i hi => hrsv (decode_ok_iff_fields.1 hi).1
  case noChannel =>
    exact ⟨fun hopc => s.executeWord_eq_exec .fftConfigure hrsv hopc hch rfl,
      fun hopc => s.executeWord_eq_exec .fftForward hrsv hopc hch rfl,
      fun hopc => s.executeWord_eq_exec .fftInverse hrsv hopc hch rfl,
      fun hopc => s.executeWord_eq_exec .hbConstruct hrsv hopc hch rfl,
      fun hopc => s.executeWord_eq_exec .hbReset hrsv hopc hch rfl⟩
  case otherFft =>
    refine s.executeWord_illegal fun i hi => hfields ?_
    obtain ⟨-, hopc, hch, hunit, -⟩ := decode_ok_iff_fields.1 hi
    rw [hopc, hch]
    exact Instr.fields_of_unit_fft hunit
  case otherHb =>
    refine s.executeWord_illegal fun i hi => ?_
    obtain ⟨-, hopc', hch, hunit, -⟩ := decode_ok_iff_fields.1 hi
    rw [hopc'] at hfields hopc
    rw [hch] at hfields
    exact (Instr.fields_of_unit_hb hunit).elim hfields hopc
  case absentChannel =>
    obtain ⟨x, hx⟩ := s.executeWord_process hrsv hopc
    rw [hx, hbProcess_absentChannel x hconstructed (Nat.le_trans hlegal hch)]
    exact ⟨_, rfl, s.cmdError_hb_spec .hbChannel⟩

end Sys2Proof.Machine
end

section
/-! Settled: what the acceptance of a command takes and shows, and the operands that a waiting command reads
(30_encoding.md R91, R93). -/

namespace Sys2Proof.Machine

/-! ## Operands -/

/-- The operands of a command in flight, or of an idle unit, are what the registers hold. -/
theorem State.Captured.fft_operands {s : State} (h : s.Captured) : s.fft.operands = s.fft.capture := by
  unfold FftUnit.operands
  split
  next j hj => exact (h.fft j hj).2
  next => rfl

/-- The operands of a command in flight, or of an idle unit, are what the registers hold. -/
theorem State.Captured.hb_operands {s : State} (h : s.Captured) : s.hb.operands = s.hb.capture := by
  unfold HbUnit.operands
  split
  next j hj => exact (h.hb j hj).2
  next => rfl

/-- Settles O16: the captured FFT_IN is the buffer itself, and the input lists its elements in order. -/
theorem transformReadsInputBuffer : Obligations.TransformReadsInputBuffer := by
  intro s hcaptured
  have hoperands := hcaptured.fft_operands
  refine ⟨by rw [State.fftArg, hoperands, FftUnit.capture], fun n =>
    ⟨Memory.cplxs_length _ _ _ _ _, fun k hk => ?element⟩⟩
  case element => rw [State.fftInput, Memory.cplxs_get _ _ _ _ _ _ hk, hoperands, FftUnit.capture, State.fftIn]

/-- Settles O31: the captured operands are the registers, named in `HbUnit.capture`. -/
theorem hbOperandsAreTheRegisters : Obligations.HbOperandsAreTheRegisters :=
  fun _ hcaptured => hcaptured.hb_operands

/-! ## Acceptance -/

section
variable (s : State) (w : Word) (u : UnitId)

@[simp] theorem State.accept_cmdWord : (s.accept w u).cmdWord u = w := by cases u <;> rfl
@[simp] theorem State.accept_busy : (s.accept w u).busy u = true := by cases u <;> rfl
@[simp] theorem State.accept_running : (s.accept w u).running u = some w := by cases u <;> rfl

theorem State.accept_fft_operands :
    (s.accept w u).fft.operands = if u = .fft then s.fft.capture else s.fft.operands := by cases u <;> rfl

theorem State.accept_hb_operands :
    (s.accept w u).hb.operands = if u = .hb then s.hb.capture else s.hb.operands := by cases u <;> rfl

/-- A command write is held exactly while its unit is busy (70_reset_and_hazards.md R250). -/
theorem State.holds_commandWrite : s.holds (commandWrite u w) = s.busy u := by
  rw [State.holds_eq (target_commandWrite s.build u w), cmdLoc_unit, cmdLoc_isStatus, Bool.not_false, Bool.and_true]

end

/-- A host whose outstanding access is held waits. -/
theorem State.hostMove_of_held {s : State} {a : Access} (hpending : s.port.pending = some a)
    (hheld : s.holds a = true) : s.hostMove = s := by
  simp only [State.hostMove, hpending, hheld, if_true]

/-- A host whose outstanding access is no longer held performs it. -/
theorem State.hostMove_of_released {s : State} {a : Access} (hpending : s.port.pending = some a)
    (hreleased : s.holds a = false) :
    s.hostMove = State.perform { s with port := { s.port with pending := none } } a := by
  simp [State.hostMove, hpending, hreleased]

/-- Settles O40: a command write is held while the unit is busy; at an idle unit, at once or later, it is performed as
the acceptance of its word. -/
theorem commandWriteIsAccepted : Obligations.CommandWriteIsAccepted := by
  intro s u v
  have hholds := s.holds_commandWrite v u
  refine ⟨fun hidle => ?atOnce, fun hbusy => ⟨hholds.trans hbusy, fun hpending => ?waits⟩,
    fun hidle hpending => ?later⟩
  case atOnce =>
    exact ⟨hholds.trans hidle, s.perform_commandWrite u v, s.accept_cmdWord v u, s.accept_busy v u,
      s.accept_running v u, s.accept_fft_operands v u, s.accept_hb_operands v u⟩
  case waits => exact State.hostMove_of_held hpending (hholds.trans hbusy)
  case later => rw [State.hostMove_of_released hpending (hholds.trans hidle), State.perform_commandWrite]

end Sys2Proof.Machine
end

section
/-! Settled: sign flips, comparisons and the complex primitives (40_numerics.md R117, R118, R120 to R122). -/

namespace Sys2Proof.Machine

/-! ## Sign flips -/

theorem getLsbD_fneg (fmt : Format) (a : F) (i : Nat) :
    (fneg fmt a).getLsbD i = if i = fmt.width - 1 then !a.getLsbD i else a.getLsbD i := by
  have hw : fmt.width - 1 < 64 := by cases fmt <;> decide
  rw [fneg, BitVec.getLsbD_xor, BitVec.getLsbD_twoPow, decide_eq_true hw, Bool.true_and]
  by_cases hsign : i = fmt.width - 1
  · rw [if_pos hsign, decide_eq_true hsign.symm, Bool.xor_true]
  · rw [if_neg hsign, decide_eq_false (Ne.symm hsign), Bool.xor_false]

/-- Settles O56: `fneg` is an exclusive or with the sign bit's power of two. -/
theorem signFlipIsExact : Obligations.SignFlipIsExact := by
  refine fun fmt a z => ⟨fun i _ => getLsbD_fneg fmt a i, fun hfits => ?value, rfl⟩
  case value => exact ⟨fits_fneg fmt a hfits, magBits_fneg fmt a hfits, signBit_fneg fmt a hfits⟩

/-! ## Comparisons -/

theorem isNaN_eq_false_iff (fmt : Format) (a : F) : isNaN fmt a = false ↔ magBits fmt a ≤ infBits fmt := by
  rw [isNaN, decide_eq_false_iff_not, Nat.not_lt]

theorem isNaN_of_isFinite {fmt : Format} {a : F} (h : isFinite fmt a = true) : isNaN fmt a = false :=
  (isNaN_eq_false_iff fmt a).2 ((isFinite_iff fmt a).1 h).le

theorem isNaN_of_isInf {fmt : Format} {a : F} (h : isInf fmt a = true) : isNaN fmt a = false :=
  (isNaN_eq_false_iff fmt a).2 ((isInf_iff fmt a).1 h).le

/-- Finite means neither an infinity nor a NaN (40_numerics.md R118). -/
theorem isFinite_iff_not_isInf_not_isNaN (fmt : Format) (a : F) :
    isFinite fmt a = true ↔ isInf fmt a = false ∧ isNaN fmt a = false := by
  rw [isFinite_iff, isNaN_eq_false_iff, isInf, decide_eq_false_iff_not]
  omega

theorem flt_of_isNaN {fmt : Format} {a b : F} (h : isNaN fmt a = true ∨ isNaN fmt b = true) : flt fmt a b = false := by
  rcases h with ha | hb
  · rw [flt, ha, Bool.not_true, Bool.false_and, Bool.false_and]
  · rw [flt, hb, Bool.not_true, Bool.and_false, Bool.false_and]

/-- Between values that are no NaN the comparison is the order of their keys. -/
theorem flt_eq_decide {fmt : Format} {a b : F} (ha : isNaN fmt a = false) (hb : isNaN fmt b = false) :
    flt fmt a b = decide (orderKey fmt a < orderKey fmt b) := by
  rw [flt, ha, hb, Bool.not_false, Bool.true_and, Bool.true_and]

/-- An infinity lies at an end of the order. -/
theorem orderKey_of_isInf {fmt : Format} {a : F} (h : isInf fmt a = true) :
    orderKey fmt a = if signBit fmt a = true then -(infBits fmt : Int) else infBits fmt := by
  rw [orderKey, (isInf_iff fmt a).1 h]

/-- Of the values that are no NaN, only -∞ is not above the lower end of the order. -/
theorem decide_neg_infBits_lt_orderKey {fmt : Format} {a : F} (h : isNaN fmt a = false) :
    decide (-(infBits fmt : Int) < orderKey fmt a) = !(isInf fmt a && signBit fmt a) := by
  have hle := (isNaN_eq_false_iff fmt a).1 h
  have hpos := infBits_pos fmt
  rw [orderKey, isInf]
  cases signBit fmt a with
  | true => rw [Bool.and_true, ← decide_not, decide_eq_decide, if_pos rfl]; omega
  | false => rw [Bool.and_false, Bool.not_false, decide_eq_true_iff, if_neg Bool.false_ne_true]; omega

/-- Of the values that are no NaN, only +∞ is not below the upper end of the order. -/
theorem decide_orderKey_lt_infBits {fmt : Format} {a : F} (h : isNaN fmt a = false) :
    decide (orderKey fmt a < infBits fmt) = !(isInf fmt a && !signBit fmt a) := by
  have hle := (isNaN_eq_false_iff fmt a).1 h
  have hpos := infBits_pos fmt
  rw [orderKey, isInf]
  cases signBit fmt a with
  | true => rw [Bool.not_true, Bool.and_false, Bool.not_false, decide_eq_true_iff, if_pos rfl]; omega
  | false => rw [Bool.not_false, Bool.and_true, ← decide_not, decide_eq_decide, if_neg Bool.false_ne_true]; omega

/-- No key lies outside the two ends of the order. -/
theorem orderKey_mem_Icc {fmt : Format} {a : F} (h : isNaN fmt a = false) :
    orderKey fmt a ∈ Set.Icc (-(infBits fmt : Int)) (infBits fmt) := by
  have hle := (isNaN_eq_false_iff fmt a).1 h
  rw [orderKey, Set.mem_Icc]
  split <;> omega

/-- +∞ is below nothing, and -∞ is below everything but itself (40_numerics.md R118). -/
theorem flt_of_isInf_left {fmt : Format} {a b : F} (ha : isInf fmt a = true) (hb : isNaN fmt b = false) :
    flt fmt a b = (signBit fmt a && !(isInf fmt b && signBit fmt b)) := by
  rw [flt_eq_decide (isNaN_of_isInf ha) hb, orderKey_of_isInf ha]
  cases signBit fmt a with
  | true => rw [if_pos rfl, Bool.true_and, decide_neg_infBits_lt_orderKey hb]
  | false => exact decide_eq_false (not_lt.2 (orderKey_mem_Icc hb).2)

/-- Nothing is below -∞, and everything but +∞ itself is below +∞ (40_numerics.md R118). -/
theorem flt_of_isInf_right {fmt : Format} {a b : F} (hb : isInf fmt b = true) (ha : isNaN fmt a = false) :
    flt fmt a b = (!signBit fmt b && !(isInf fmt a && !signBit fmt a)) := by
  rw [flt_eq_decide ha (isNaN_of_isInf hb), orderKey_of_isInf hb]
  cases signBit fmt b with
  | true => exact decide_eq_false (not_lt.2 (orderKey_mem_Icc ha).1)
  | false => rw [if_neg Bool.false_ne_true, decide_orderKey_lt_infBits ha, Bool.not_false, Bool.true_and]

/-- Settles O57: the keys order the finite values as their real values, and the infinities are the ends of that order. -/
theorem comparisonsAreOrdered : Obligations.ComparisonsAreOrdered := by
  refine fun fmt a b => ⟨flt_of_isNaN, fun ha hb => ?finite, flt_of_isInf_left, flt_of_isInf_right,
    isFinite_iff_not_isInf_not_isNaN fmt a, rfl⟩
  case finite =>
    rw [flt_eq_decide (isNaN_of_isFinite ha) (isNaN_of_isFinite hb), decide_eq_true_iff, realValue_lt_iff]

/-! ## Signed zeros, one and infinity -/

theorem fzero_eq_makeF (fmt : Format) : fzero = makeF fmt false 0 := rfl

theorem fneg_makeF (fmt : Format) (s : Bool) (m : Nat) (h : m < 2 ^ (fmt.width - 1)) :
    fneg fmt (makeF fmt s m) = makeF fmt (!s) m := by
  rw [fneg_eq fmt _ (fits_makeF fmt s m h), signBit_makeF fmt s m h, magBits_makeF fmt s m h]

@[simp] theorem fneg_makeF_zero (fmt : Format) (s : Bool) : fneg fmt (makeF fmt s 0) = makeF fmt (!s) 0 :=
  fneg_makeF fmt s 0 (by positivity)

@[simp] theorem signBit_makeF_zero (fmt : Format) (s : Bool) : signBit fmt (makeF fmt s 0) = s :=
  signBit_makeF fmt s 0 (by positivity)

theorem signBit_fone (fmt : Format) : signBit fmt (fone fmt) = false := signBit_makeF _ _ _ (roundUnits_lt _ _ _)

theorem isFinite_fone (fmt : Format) : isFinite fmt (fone fmt) = true := by
  cases fmt with
  | binary32 => decide +kernel
  | binary64 => decide +kernel

/-- A sum of zeros is -0 where both are, and +0 otherwise (40_numerics.md R114). -/
theorem fadd_zeros (c : Fp) (s t : Bool) :
    fadd c (makeF c.fmt s 0) (makeF c.fmt t 0) = makeF c.fmt (s && t) 0 := by
  have hzero := isZero_makeF_zero c.fmt
  have hunits := fun r => (magUnits_eq_zero c.fmt _).2 (hzero r)
  rw [fadd_finite _ _ _ (finite_of_zero _ _ (hzero s)) (finite_of_zero _ _ (hzero t)), hunits, hunits,
    signBit_makeF_zero, signBit_makeF_zero, addFinite]
  by_cases heq : s = t
  · rw [if_pos heq, ← heq, Bool.and_self, roundUnits_zero _ _ Nat.one_pos]
  · obtain rfl : t = !s := Bool.eq_not.2 (Ne.symm heq)
    rw [if_neg heq, if_pos rfl, Bool.and_not_self, fzero_eq_makeF c.fmt]

/-- A zero times a finite value of positive sign is that zero (40_numerics.md R114). -/
theorem fmul_zero_left (c : Fp) (s : Bool) (b : F) (hb : isFinite c.fmt b = true) (hsign : signBit c.fmt b = false) :
    fmul c (makeF c.fmt s 0) b = makeF c.fmt s 0 := by
  have hzero := isZero_makeF_zero c.fmt s
  rw [fmul_zero c _ _ (finite_of_zero _ _ hzero) hb (.inl hzero), signBit_makeF_zero, hsign, Bool.bne_false]

/-- An infinity times a zero is a NaN (40_numerics.md R114). -/
theorem fmul_inf_zero (c : Fp) (a b : F) (ha : isInf c.fmt a = true) (hb : isZero c.fmt b = true) :
    fmul c a b = drawNaN c := by
  rw [fmul, classify_inf _ _ ha, classify_fin _ _ (finite_of_zero _ _ hb)]
  exact if_pos ((magUnits_eq_zero _ _).2 hb)

/-! ## The complex product's corner cases (40_numerics.md R121) -/

/-- The real part is -0 - -0, which is +0, and the imaginary part -0 + -0, which is -0. -/
theorem cmul_negZero_one (c : Fp) :
    cmul c ⟨fneg c.fmt fzero, fneg c.fmt fzero⟩ ⟨fone c.fmt, fzero⟩ = ⟨fzero, fneg c.fmt fzero⟩ := by
  have hneg : fneg c.fmt fzero = makeF c.fmt true 0 := fneg_makeF_zero c.fmt false
  have hone : ∀ n, fmul (c.at n) (makeF c.fmt true 0) (fone c.fmt) = makeF c.fmt true 0 := fun n =>
    fmul_zero_left (c.at n) true _ (isFinite_fone c.fmt) (signBit_fone c.fmt)
  have hzero : ∀ n, fmul (c.at n) (makeF c.fmt true 0) fzero = makeF c.fmt true 0 := fun n =>
    fmul_zero_left (c.at n) true _ (finite_of_zero c.fmt _ (isZero_makeF_zero c.fmt false))
      (signBit_makeF_zero c.fmt false)
  rw [cmul, hneg, hone, hzero, hzero, hone, fsub, Fp.at_fmt, fneg_makeF_zero]
  exact congrArg₂ Cplx.mk (fadd_zeros (c.at 0) true false) (fadd_zeros (c.at 3) true true)

/-- The imaginary part is a sum with the NaN that ∞ times +0 gives. -/
theorem isNaN_cmul_inf_one (c : Fp) :
    isNaN c.fmt (cmul c ⟨makeF c.fmt false (infBits c.fmt), fzero⟩ ⟨fone c.fmt, fzero⟩).im = true := by
  have hinf : isInf c.fmt (makeF c.fmt false (infBits c.fmt)) = true :=
    (isInf_iff _ _).2 (magBits_makeF _ _ _ (infBits_lt _))
  have hzero : isZero c.fmt fzero = true := isZero_makeF_zero c.fmt false
  rw [cmul, fmul_inf_zero (c.at 4) _ _ hinf hzero, fadd_nan_left (c.at 3) _ _ (isNaN_drawNaN (c.at 4))]
  exact isNaN_drawNaN (c.at 3)

/-- Settles O59: the primitives are these operations by definition; the corner cases follow from the rows of R114. -/
theorem complexPrimitives : Obligations.ComplexPrimitives :=
  fun c _ _ _ => ⟨rfl, rfl, rfl, rfl, cmul_negZero_one c, isNaN_cmul_inf_one c⟩

end Sys2Proof.Machine
end

section
/-! Settled: the recursion of the transform (41_fft.md R144, R145, R149, R150), the size 1 (R149), and that the configured
capacity has no part in a result (R147). -/

namespace Sys2Proof.Machine

/-! ## The recursion -/

theorem evens_length_of_two_pow_succ {x : List Cplx} {j : Nat} (h : x.length = 2 ^ (j + 1)) :
    (evens x).length = 2 ^ j := by
  rw [evens_length, h, pow_succ]
  omega

theorem odds_length_of_two_pow_succ {x : List Cplx} {j : Nat} (h : x.length = 2 ^ (j + 1)) :
    (odds x).length = 2 ^ j := by
  rw [odds_length, h, pow_succ]
  omega

/-- The two outputs of butterfly `i`: from `E[i]` and `O[i]`, elements `i` and `i + n/2`, with one product. -/
theorem fftRec_butterfly {c : Fp} {b : Build} {dir : Direction} {j i : Nat} {x : List Cplx} {e o : Cplx}
    (hx : x.length = 2 ^ (j + 2)) (he : (fftRec (c.at 1) b dir (j + 1) (evens x))[i]? = some e)
    (ho : (fftRec (c.at 2) b dir (j + 1) (odds x))[i]? = some o) :
    (fftRec c b dir (j + 2) x)[i]? = some (cadd (((c.at 0).at i).at 1) e
      (cmul (((c.at 0).at i).at 0) o (twid b dir (2 ^ (j + 2)) i))) ∧
    (fftRec c b dir (j + 2) x)[i + 2 ^ (j + 1)]? = some (csub (((c.at 0).at i).at 2) e
      (cmul (((c.at 0).at i).at 0) o (twid b dir (2 ^ (j + 2)) i))) := by
  have hpair := butterflies_getElem? (c.at 0) (twid b dir (2 ^ (j + 2))) 0 i _ _ e o he ho
  rw [Nat.zero_add] at hpair
  have hhigh := joinHalves_high _ _ _ hpair
  rw [butterflies_length, fftRec_length _ _ _ _ _ (evens_length_of_two_pow_succ hx),
    fftRec_length _ _ _ _ _ (odds_length_of_two_pow_succ hx), Nat.min_self] at hhigh
  rw [fftRec]
  exact ⟨joinHalves_low _ _ _ hpair, hhigh⟩

/-- Settles O17: the halves are `evens` and `odds` of the list; both outputs of butterfly `i` are read off the joined halves. -/
theorem transformIsRecursive : Obligations.TransformIsRecursive := by
  refine fun c b dir => ⟨fun _ => rfl, fun _ _ => rfl, fun j x hx => ?recursion⟩
  have hevens := evens_length_of_two_pow_succ hx
  have hodds := odds_length_of_two_pow_succ hx
  refine ⟨evens x, odds x, hevens, hodds, fun i _ => ⟨evens_getElem? x i, odds_getElem? x i⟩,
    fftRec_length c b dir _ x hx, fun i hi => ?butterfly⟩
  have he := List.getElem?_eq_getElem ((fftRec_length (c.at 1) b dir _ _ hevens).symm ▸ hi)
  have ho := List.getElem?_eq_getElem ((fftRec_length (c.at 2) b dir _ _ hodds).symm ▸ hi)
  exact ⟨_, _, he, ho, fftRec_butterfly hx he ho⟩

/-! ## What a command leaves in FFT_OUT and ECODE -/

section
variable (dir : Direction) (s : State)

theorem fftConfigure_ecode : (fftConfigure s).fft.ecode = (fftSizeError s.build s.fftArg).getD .ok := by
  unfold fftConfigure
  split <;> simp [*]

theorem fftConfigure_outBuf : (fftConfigure s).fft.outBuf = s.fft.outBuf := by
  unfold fftConfigure
  split <;> simp

theorem fftTransform_ecode : (fftTransform dir s).fft.ecode = (fftSizeError s.build s.fftArg).getD .ok := by
  unfold fftTransform
  split <;> simp [*]

/-- A refused transform leaves FFT_OUT; a performed one stores its output over the first elements. -/
theorem fftTransform_outBuf : (fftTransform dir s).fft.outBuf =
    if fftSizeError s.build s.fftArg = none then
      Memory.setCplxs s.build.fmt s.fft.outBuf fftOutBase (s.transformOutput dir)
    else s.fft.outBuf := by
  unfold fftTransform
  split <;> simp [*]

@[simp] theorem fftTransform_build : (fftTransform dir s).build = s.build := by
  unfold fftTransform
  split <;> simp

@[simp] theorem fftTransform_epoch : (fftTransform dir s).epoch = s.epoch := by
  unfold fftTransform
  split <;> simp

end

/-! ## Size 1 -/

/-- Size 1 is legal in every build: 1 is a power of two, and no ROM is smaller. -/
theorem fftSizeError_one (b : Build) : fftSizeError b 1 = none :=
  fftSizeError_none b 1 ⟨0, rfl⟩ Nat.one_le_two_pow

/-- The only element of a transform of size 1 is FFT_IN[0]. -/
theorem State.transformOutput_of_size_one {s : State} (dir : Direction) (hcaptured : s.Captured) (hsize : s.fftArg = 1) :
    s.transformOutput dir = [s.fftIn 0] := by
  have hinput : s.fftInput 1 = [s.fftIn 0] := by
    rw [State.fftInput, hcaptured.fft_operands]
    rfl
  rw [State.transformOutput, hsize, show (1 : Word).toNat = 2 ^ 0 from rfl, Nat.log2_two_pow, pow_zero, hinput]
  rfl

/-- A transform of size 1, in either direction. -/
theorem fftTransform_fftOut_of_size_one {s : State} (dir : Direction) (hcaptured : s.Captured) (hsize : s.fftArg = 1) :
    (fftTransform dir s).fftOut 0 = s.fftIn 0 := by
  have hfits : Cplx.Fits s.build.fmt (s.fftIn 0) := Memory.cplx_fits _ _ _ _
  obtain ⟨hre, him⟩ := hfits
  rw [State.fftOut, fftTransform_build, fftTransform_epoch, fftTransform_outBuf, hsize, if_pos (fftSizeError_one _),
    State.transformOutput_of_size_one dir hcaptured hsize]
  exact Memory.cplx_setCplxs_same _ _ [s.fftIn 0] _ _ 0 Nat.one_pos hre him

/-- Settles O19: the one stored element is FFT_IN[0], which no operation has touched. -/
theorem sizeOneIsIdentity : Obligations.SizeOneIsIdentity := by
  rintro s i (rfl | rfl) hcaptured hsize
  case inl => exact ⟨_, rfl, fftTransform_fftOut_of_size_one .fwd hcaptured hsize⟩
  case inr => exact ⟨_, rfl, fftTransform_fftOut_of_size_one .inv hcaptured hsize⟩

/-! ## The configured capacity (10_state.md R26) -/

section
variable (s : State) (m : Word)

/-- The state with another FFT_MAXSIZE. -/
def State.withMaxSize : State := { s with fft := { s.fft with maxSize := m } }

theorem State.withMaxSize_build : (s.withMaxSize m).build = s.build := rfl
theorem State.withMaxSize_outBuf : (s.withMaxSize m).fft.outBuf = s.fft.outBuf := rfl
theorem State.withMaxSize_fftArg : (s.withMaxSize m).fftArg = s.fftArg := rfl
theorem State.withMaxSize_transformOutput (dir : Direction) :
    (s.withMaxSize m).transformOutput dir = s.transformOutput dir := rfl

/-- What a transform stores, and its code, are of its operands and the build. -/
theorem fftTransform_withMaxSize (dir : Direction) :
    (fftTransform dir (s.withMaxSize m)).fft.outBuf = (fftTransform dir s).fft.outBuf ∧
      (fftTransform dir (s.withMaxSize m)).fft.ecode = (fftTransform dir s).fft.ecode := by
  refine ⟨?outBuf, ?ecode⟩
  case outBuf =>
    rw [fftTransform_outBuf, State.withMaxSize_build, State.withMaxSize_outBuf, State.withMaxSize_fftArg,
      State.withMaxSize_transformOutput, fftTransform_outBuf]
  case ecode => rw [fftTransform_ecode, State.withMaxSize_build, State.withMaxSize_fftArg, fftTransform_ecode]

theorem fftConfigure_withMaxSize :
    (fftConfigure (s.withMaxSize m)).fft.outBuf = (fftConfigure s).fft.outBuf ∧
      (fftConfigure (s.withMaxSize m)).fft.ecode = (fftConfigure s).fft.ecode := by
  refine ⟨?outBuf, ?ecode⟩
  case outBuf => rw [fftConfigure_outBuf, State.withMaxSize_outBuf, fftConfigure_outBuf]
  case ecode => rw [fftConfigure_ecode, State.withMaxSize_build, State.withMaxSize_fftArg, fftConfigure_ecode]

end

/-- Settles O21: neither the size check nor the transform reads FFT_MAXSIZE, command by command. -/
theorem capacityChangesNoResult : Obligations.CapacityChangesNoResult := by
  intro s m i hunit
  cases i with
  | fftConfigure => exact ⟨_, _, rfl, rfl, fftConfigure_withMaxSize s m⟩
  | fftForward => exact ⟨_, _, rfl, rfl, fftTransform_withMaxSize s m .fwd⟩
  | fftInverse => exact ⟨_, _, rfl, rfl, fftTransform_withMaxSize s m .inv⟩
  | hbConstruct | hbReset | hbProcessR | hbProcessC => cases hunit

end Sys2Proof.Machine
end

section
/-! Settled: the frequency factor (42_hilbert.md R171). -/

namespace Sys2Proof.Machine

/-! ## The order of positive values -/

theorem orderKey_fzero (fmt : Format) : orderKey fmt fzero = 0 := by
  rw [fzero_eq_makeF fmt, orderKey_makeF _ _ _ (by positivity), if_neg Bool.false_ne_true, Nat.cast_zero]

theorem isNaN_fzero (fmt : Format) : isNaN fmt fzero = false := isNaN_makeF fmt false 0 (Nat.zero_le _)

/-- The positive values are those that are no NaN, have a clear sign bit and are no zero (40_numerics.md R118). -/
theorem isPositive_iff (fmt : Format) (a : F) :
    isPositive fmt a = true ↔ isNaN fmt a = false ∧ signBit fmt a = false ∧ 0 < magBits fmt a := by
  rw [isPositive, flt_iff, orderKey_fzero, isNaN_fzero, orderKey]
  cases signBit fmt a with
  | true => simp
  | false => simp

/-- The comparison is asymmetric; in particular nothing is below itself. -/
theorem flt_asymm {fmt : Format} {a b : F} (h : flt fmt a b = true) : flt fmt b a = false := by
  obtain ⟨-, -, hlt⟩ := (flt_iff fmt a b).1 h
  exact Bool.eq_false_iff.2 fun hba => lt_asymm hlt ((flt_iff fmt b a).1 hba).2.2

theorem flt_self (fmt : Format) (a : F) : flt fmt a a = false :=
  Bool.eq_false_iff.2 fun h => lt_irrefl _ ((flt_iff fmt a a).1 h).2.2

/-- What lies between 0 and a finite value is finite. -/
theorem isFinite_of_isPositive_of_flt {fmt : Format} {a b : F} (ha : isPositive fmt a = true)
    (hb : isFinite fmt b = true) (hlt : flt fmt a b = true) : isFinite fmt a = true := by
  obtain ⟨-, hsign, -⟩ := (isPositive_iff fmt a).1 ha
  obtain ⟨-, -, hkey⟩ := (flt_iff fmt a b).1 hlt
  rw [isFinite_iff] at hb ⊢
  rw [orderKey, orderKey, hsign, if_neg Bool.false_ne_true] at hkey
  split at hkey <;> omega

/-- A positive value that is not finite is +∞, which is below nothing. -/
theorem flt_of_isPositive_of_not_isFinite {fmt : Format} {a b : F} (ha : isPositive fmt a = true)
    (hinf : isFinite fmt a = false) (hb : isNaN fmt b = false) : flt fmt a b = false := by
  obtain ⟨hnan, hsign, -⟩ := (isPositive_iff fmt a).1 ha
  have hisInf : isInf fmt a = true := by
    rcases class_cases fmt a with h | h | h
    · exact absurd (hnan.symm.trans h) Bool.false_ne_true
    · exact absurd (hinf.symm.trans h) Bool.false_ne_true
    · exact h
  rw [flt_of_isInf_left hisInf hb, hsign, Bool.false_and]

/-- The two answers of FMIN (40_numerics.md R125). -/
theorem fmin_cases (fmt : Format) (a b : F) :
    (flt fmt a b = true ∧ fmin fmt a b = a) ∨ (flt fmt a b = false ∧ fmin fmt a b = b) := by
  cases h : flt fmt a b with
  | true => exact .inl ⟨rfl, if_pos h⟩
  | false => exact .inr ⟨rfl, if_neg (Bool.eq_false_iff.1 h)⟩

/-! ## The constants FF_CLAMP and FF_REF (40_numerics.md R119) -/

theorem isFinite_ffClamp (fmt : Format) : isFinite fmt (ffClamp fmt) = true := by
  cases fmt with
  | binary32 => decide +kernel
  | binary64 => decide +kernel

theorem isPositive_ffClamp (fmt : Format) : isPositive fmt (ffClamp fmt) = true := by
  cases fmt with
  | binary32 => decide +kernel
  | binary64 => decide +kernel

theorem isFinite_ffRef (fmt : Format) : isFinite fmt (ffRef fmt) = true := by
  cases fmt with
  | binary32 => decide +kernel
  | binary64 => decide +kernel

theorem signBit_ffRef (fmt : Format) : signBit fmt (ffRef fmt) = false := signBit_makeF _ _ _ (roundUnits_lt _ _ _)

/-- FF_REF is so large that its quotient with the first magnitude past the finite ones is still a unit or more. -/
theorem unitsOf_infBits_le_ffRef (fmt : Format) :
    unitsOf fmt (infBits fmt) ≤ magUnits fmt (ffRef fmt) <<< fmt.unit := by
  rw [unitsOf_infBits]
  cases fmt with
  | binary32 => decide +kernel
  | binary64 => decide +kernel

/-! ## The quotient -/

/-- What is one unit or more does not round to zero. -/
theorem roundUnits_pos (fmt : Format) {num den : Nat} (hden : 0 < den) (h : den ≤ num) : 0 < roundUnits fmt num den := by
  have hquot : 0 < num / den := Nat.div_pos h hden
  have hfree : 0 < roundFree fmt num den := by
    rw [roundFree]
    rcases Nat.eq_zero_or_pos (Nat.log2 (num / den) - fmt.fracBits) with hshift | hshift
    · have hround : num / den ≤ roundDiv num den := by
        rw [roundDiv]
        split <;> omega
      rw [hshift, Nat.shiftLeft_zero]
      omega
    · have hexp := Nat.mul_pos hshift (frac_pos fmt)
      omega
  exact lt_min hfree (infBits_pos fmt)

/-- FF_REF over a finite positive sample rate is positive: it does not underflow, though it may be +∞. -/
theorem isPositive_fdiv_ffRef (c : Fp) {sr : F} (hfin : isFinite c.fmt sr = true) (hpos : isPositive c.fmt sr = true) :
    isPositive c.fmt (fdiv c (ffRef c.fmt) sr) = true := by
  obtain ⟨-, hsign, hmag⟩ := (isPositive_iff c.fmt sr).1 hpos
  have hzero : isZero c.fmt sr = false := decide_eq_false hmag.ne'
  have hunits : 0 < magUnits c.fmt sr :=
    Nat.pos_of_ne_zero fun h => Bool.eq_false_iff.1 hzero ((magUnits_eq_zero _ _).1 h)
  have hle : magUnits c.fmt sr ≤ magUnits c.fmt (ffRef c.fmt) <<< c.fmt.unit :=
    ((unitsOf_strictMono c.fmt).monotone ((isFinite_iff _ _).1 hfin).le).trans (unitsOf_infBits_le_ffRef c.fmt)
  rw [fdiv_finite c _ _ (isFinite_ffRef c.fmt) hfin hzero, signBit_ffRef, hsign, Bool.bne_false, isPositive_iff,
    signBit_makeF _ _ _ (roundUnits_lt _ _ _), magBits_makeF _ _ _ (roundUnits_lt _ _ _)]
  exact ⟨isNaN_makeF _ _ _ (roundUnits_le _ _ _), rfl, roundUnits_pos _ hunits hle⟩

/-- Settles O26: the quotient is positive, so that it lies between 0 and FF_CLAMP where FMIN answers it; where it
overflows it is +∞, which FMIN never answers. -/
theorem frequencyFactorIsClamped : Obligations.FrequencyFactorIsClamped := by
  refine fun c sr => ⟨rfl, fun hfin hpos => ?_⟩
  have hquot := isPositive_fdiv_ffRef c hfin hpos
  have hclamp := isFinite_ffClamp c.fmt
  rw [ffact]
  rcases fmin_cases c.fmt (fdiv c (ffRef c.fmt) sr) (ffClamp c.fmt) with ⟨hlt, hmin⟩ | ⟨-, hmin⟩
  · have hfinite := isFinite_of_isPositive_of_flt hquot hclamp hlt
    rw [hmin]
    exact ⟨hfinite, hquot, flt_asymm hlt, fun hinf => absurd (hinf.symm.trans hfinite) Bool.false_ne_true⟩
  · rw [hmin]
    exact ⟨hclamp, isPositive_ffClamp c.fmt, flt_self _ _, fun _ => rfl⟩

end Sys2Proof.Machine
end

section
/-! Settled: the sections of a channel, each from its own state alone (42_hilbert.md R179), and zero from zero (R180). -/

namespace Sys2Proof.Machine

/-- Settles O32: the new state of section `i` is a function of its own state, its two entries and the sample, at places
that the build and the count of completed commands name. -/
theorem sectionsAreParallel : Obligations.SectionsAreParallel := by
  intro s s' ch i x hi hbuild hserial hsection hspole hscoeff
  have hsite : s'.hbFp = s.hbFp := by rw [State.hbFp, State.hbFp, hbuild, hserial]
  rw [s'.sections_getElem? x ch i hi, s.sections_getElem? x ch i hi, hsite, hsection, hspole, hscoeff]

/-! ## Zeros -/

theorem isZero_fmul (c : Fp) {a b : F} (ha : isZero c.fmt a = true) (hb : isFinite c.fmt b = true) :
    isZero c.fmt (fmul c a b) = true := by
  rw [fmul_zero c a b (finite_of_zero _ _ ha) hb (.inl ha)]
  exact isZero_makeF_zero _ _

theorem bothZero_cadd (c : Fp) {a b : Cplx} (ha : bothZero c.fmt a) (hb : bothZero c.fmt b) :
    bothZero c.fmt (cadd c a b) := by
  obtain ⟨hare, haim⟩ := ha
  obtain ⟨hbre, hbim⟩ := hb
  exact ⟨isZero_fadd (c.at 0) _ _ hare hbre, isZero_fadd (c.at 1) _ _ haim hbim⟩

theorem bothZero_cscale (c : Fp) {x : F} {z : Cplx} (hx : isZero c.fmt x = true) (hz : bothFinite c.fmt z) :
    bothZero c.fmt (cscale c x z) := by
  obtain ⟨hre, him⟩ := hz
  exact ⟨isZero_fmul (c.at 0) hx hre, isZero_fmul (c.at 1) hx him⟩

/-- All four products are zeros, and so are their sums. -/
theorem bothZero_cmul (c : Fp) {a b : Cplx} (ha : bothZero c.fmt a) (hb : bothFinite c.fmt b) :
    bothZero c.fmt (cmul c a b) := by
  obtain ⟨hare, haim⟩ := ha
  obtain ⟨hbre, hbim⟩ := hb
  exact ⟨isZero_fsub (c.at 0) _ _ (isZero_fmul (c.at 1) hare hbre) (isZero_fmul (c.at 2) haim hbim)
      (fits_fmul (c.at 2) _ _),
    isZero_fadd (c.at 3) _ _ (isZero_fmul (c.at 4) hare hbim) (isZero_fmul (c.at 5) haim hbre)⟩

/-- A sample whose every part is a zero of either sign. -/
def Sample.IsZero (fmt : Format) : Sample → Prop
  | .real v => isZero fmt v = true
  | .complex z => bothZero fmt z

/-- Zero times a finite pole plus a zero input term. -/
theorem bothZero_sectionAfter {fmt : Format} {a b : Fp} (ha : a.fmt = fmt) (hb : b.fmt = fmt) {x : Sample}
    {old p k : Cplx} (hx : x.IsZero fmt) (hold : bothZero fmt old) (hp : bothFinite fmt p) (hk : bothFinite fmt k) :
    bothZero fmt (sectionAfter a b x old p k) := by
  subst ha
  have hproduct : bothZero a.fmt (cmul (a.at 1) old p) := bothZero_cmul (a.at 1) hold hp
  rw [← hb] at hx hk
  refine bothZero_cadd (a.at 0) hproduct ?_
  rw [Fp.at_fmt, ← hb]
  cases x with
  | real v => exact bothZero_cscale b hx hk
  | complex z => exact bothZero_cmul b hx hk

/-! ## The sections after a PROCESS command -/

/-- A PROCESS command that its check refuses (42_hilbert.md R177). -/
theorem hbProcess_of_error {s : State} (x : Sample) {ch : Nat} {e : ECode}
    (h : processError s.hb.channels ch = some e) : hbProcess x ch s = s.cmdError e .hb := by
  rw [hbProcess, h]

/-- A PROCESS command that its check accepts (42_hilbert.md R177, R178). -/
theorem hbProcess_of_no_error {s : State} (x : Sample) {ch : Nat} (h : processError s.hb.channels ch = none) :
    hbProcess x ch s = s.completeHb
      { s.hb with
        state := Memory.setCplxs s.build.fmt s.hb.state (channelBase ch) (s.sections x ch)
        yre := (s.output x ch).re
        yim := (s.output x ch).im } := by
  rw [hbProcess, h]

/-- A PROCESS command stores the new sections of its channel (42_hilbert.md R177). -/
theorem hbProcess_section {s : State} (x : Sample) {ch i : Nat} (hch : ch < s.hb.channels.toNat) (hi : i < order) :
    (hbProcess x ch s).section ch i =
      sectionAfter (((s.hbFp.at 0).at 0).at i) (((s.hbFp.at 0).at 1).at i) x (s.section ch i) (s.entry .spole i)
        (s.entry .scoeff i) := by
  rw [hbProcess_of_no_error x (processError_none _ _ hch)]
  exact s.section_stored x ch i _ (s.sections_getElem? x ch i hi)

/-- Settles O33: each stored section is a zero times a finite pole, plus a zero input term. -/
theorem zeroSampleKeepsZeroChannel : Obligations.ZeroSampleKeepsZeroChannel := by
  intro s ch hch hchannel
  have hkept : ∀ x : Sample, x.IsZero s.build.fmt →
      ∀ i, i < order → bothZero s.build.fmt ((hbProcess x ch s).section ch i) := by
    intro x hx i hi
    obtain ⟨hspole, hscoeff, hsection⟩ := hchannel i hi
    rw [hbProcess_section x hch hi]
    have hsite : ∀ j, (((s.hbFp.at 0).at j).at i).fmt = s.build.fmt := fun _ => rfl
    exact bothZero_sectionAfter (hsite 0) (hsite 1) hx hsection hspole hscoeff
  exact ⟨fun hx => ⟨_, rfl, hkept s.realSample hx⟩, fun hx => ⟨_, rfl, hkept s.complexSample hx⟩⟩

end Sys2Proof.Machine
end

section
/-! Settled: only HB.CONSTRUCT writes the construction, and HB_SRATE and HB_PGAIN act only through it (42_hilbert.md R182). -/

namespace Sys2Proof.Machine

/-! ## The construction is kept -/

theorem SameConstruction.of_hb_eq {s t : State} (h : t.hb = s.hb) : SameConstruction s t := by
  constructor <;> rw [h]

theorem SameConstruction.symm {s t : State} (h : SameConstruction s t) : SameConstruction t s :=
  ⟨h.channels.symm, h.ffactor.symm, h.sdirect.symm, h.scoeff.symm, h.spole.symm⟩

theorem SameConstruction.trans {r s t : State} (h : SameConstruction r s) (k : SameConstruction s t) :
    SameConstruction r t :=
  ⟨k.channels.trans h.channels, k.ffactor.trans h.ffactor, k.sdirect.trans h.sdirect, k.scoeff.trans h.scoeff,
    k.spole.trans h.spole⟩

/-- No word of the construction is writable: a write to the HB unit is an acceptance, or stores an operand. -/
theorem State.writeLoc_construction (s : State) (l : Loc) (w : Word) : SameConstruction s (s.writeLoc l w) := by
  cases l with
  | hbCmd => exact ⟨rfl, rfl, rfl, rfl, rfl⟩
  | hbNchan => exact ⟨rfl, rfl, rfl, rfl, rfl⟩
  | hbSlot r high =>
    obtain ⟨sr, pg, xr, xi, hslot⟩ := s.hb.writeSlot_eq_inputs s.build.fmt r high w
    rw [State.writeLoc, hslot]
    exact ⟨rfl, rfl, rfl, rfl, rfl⟩
  | _ => exact .of_hb_eq rfl

theorem State.perform_construction (s : State) (a : Access) : SameConstruction s (s.perform a) := by
  rcases s.perform_cases a with ⟨-, h⟩ | ⟨l, -, -, h⟩ | ⟨l, v, -, -, h⟩
  · rw [h]; exact .of_hb_eq rfl
  · rw [h]; exact .of_hb_eq rfl
  · rw [h]; exact (s.writeLoc_construction l v).trans (.of_hb_eq rfl)

theorem State.hostMove_construction (s : State) : SameConstruction s s.hostMove := by
  rcases s.hostMove_cases with h | ⟨a, rest, -, -, -, h⟩ | ⟨a, sc, -, h⟩
  · rw [h]; exact .of_hb_eq rfl
  · rw [h]; exact .of_hb_eq rfl
  · rw [h]; exact (SameConstruction.of_hb_eq (by rfl)).trans (State.perform_construction _ a)

theorem hbProcess_construction (x : Sample) (ch : Nat) (s : State) : SameConstruction s (hbProcess x ch s) := by
  cases h : processError s.hb.channels ch with
  | some e => rw [hbProcess_of_error x h]; exact ⟨rfl, rfl, rfl, rfl, rfl⟩
  | none => rw [hbProcess_of_no_error x h]; exact ⟨rfl, rfl, rfl, rfl, rfl⟩

theorem exec_hb_construction {i : Instr} (hunit : i.unit = .hb) (hother : i ≠ .hbConstruct) {s t : State}
    (h : exec i s = .next t) : SameConstruction s t := by
  cases i with
  | hbConstruct => exact absurd rfl hother
  | hbReset => cases h; exact ⟨rfl, rfl, rfl, rfl, rfl⟩
  | hbProcessR ch => cases h; exact hbProcess_construction _ ch s
  | hbProcessC ch => cases h; exact hbProcess_construction _ ch s
  | fftConfigure | fftForward | fftInverse => cases hunit

/-- Everything the HB unit's turn can do: nothing while idle, else run its command or refuse its word. -/
theorem State.unitMove_hb_cases {s t : State} (h : s.unitMove .hb = .next t) :
    (s.running .hb = none ∧ t = s) ∨
    ∃ w, s.running .hb = some w ∧
      ((∃ i, decode .hb w = .ok i ∧ exec i s = .next t) ∨ t = s.cmdError .illegalCmd .hb) := by
  rw [State.unitMove] at h
  cases hrun : s.running .hb with
  | none =>
    rw [hrun] at h
    exact .inl ⟨rfl, (Host.Outcome.next.inj h).symm⟩
  | some w =>
    rw [hrun] at h
    refine .inr ⟨w, rfl, ?_⟩
    change s.executeWord .hb w = .next t at h
    rw [State.executeWord] at h
    cases hdec : decode .hb w with
    | ok i => rw [hdec] at h; exact .inl ⟨i, rfl, h⟩
    | error e => rw [hdec] at h; exact .inr (Host.Outcome.next.inj h).symm

/-- A turn of the HB unit that changes the construction completes HB.CONSTRUCT. -/
theorem State.unitMove_hb_construction {s t : State} (h : s.unitMove .hb = .next t) :
    SameConstruction s t ∨ ∃ w, s.running .hb = some w ∧ decode .hb w = .ok .hbConstruct := by
  rcases s.unitMove_hb_cases h with ⟨-, rfl⟩ | ⟨w, hrun, ⟨i, hdec, hexec⟩ | rfl⟩
  · exact .inl (.of_hb_eq rfl)
  · by_cases hi : i = .hbConstruct
    · exact .inr ⟨w, hrun, hi ▸ hdec⟩
    · exact .inl (exec_hb_construction (decode_unit hdec) hi hexec)
  · exact .inl (s.cmdError_hb_spec .illegalCmd).construction

theorem State.unitMove_fft_construction {s t : State} (h : s.unitMove .fft = .next t) : SameConstruction s t := by
  obtain ⟨u, hnew⟩ := unitMove_fft_eq_of_agree s
  rw [hnew s t rfl rfl rfl h]
  exact .of_hb_eq rfl

/-- A step other than a power-on reset that changes the construction is a completion of HB.CONSTRUCT. -/
theorem step_construction {s t : State} (h : step s = .next t) (hreset : s.nextAgent ≠ .powerOn)
    (hchanged : ¬ SameConstruction s t) :
    s.nextAgent = .hb ∧ ∃ w, s.running .hb = some w ∧ decode .hb w = .ok .hbConstruct := by
  have hturn : ¬ SameConstruction s.useTurn t := fun hsame =>
    hchanged ((SameConstruction.of_hb_eq s.useTurn_hb).trans hsame)
  rcases step_cases h with ⟨-, rfl⟩ | ⟨-, hmove⟩ | ⟨hagent, hmove⟩ | ⟨hagent, -⟩
  · exact absurd s.useTurn.hostMove_construction hturn
  · exact absurd (State.unitMove_fft_construction hmove) hturn
  · exact ⟨hagent, (State.unitMove_hb_construction hmove).resolve_left hturn⟩
  · exact absurd hagent hreset

/-! ## The sample rate and the passband gain -/

/-- What an HB command computes agrees: the sections, the output, ECODE and the construction. -/
structure SameHbResults (t t' : State) : Prop where
  state : t'.hb.state = t.hb.state
  yre : t'.hb.yre = t.hb.yre
  yim : t'.hb.yim = t.hb.yim
  ecode : t'.hb.ecode = t.hb.ecode
  construction : SameConstruction t t'

section
variable (s : State) (sr pg : F) (w : Word)

/-- The state with another HB_SRATE and HB_PGAIN. -/
def State.withRates : State := { s with hb := { s.hb with srate := sr, pgain := pg } }

theorem State.withRates_accept_construction :
    SameConstruction (s.accept w .hb) ((s.withRates sr pg).accept w .hb) := ⟨rfl, rfl, rfl, rfl, rfl⟩

/-- The new sections and the output are of the sample, the channel's sections and the construction. -/
theorem State.withRates_accept_sections (x : Sample) (ch : Nat) :
    ((s.withRates sr pg).accept w .hb).sections x ch = (s.accept w .hb).sections x ch := rfl

theorem State.withRates_accept_output (x : Sample) (ch : Nat) :
    ((s.withRates sr pg).accept w .hb).output x ch = (s.accept w .hb).output x ch := rfl

/-- Neither the check nor the computation of a PROCESS command reads the two registers. -/
theorem hbProcess_withRates (x : Sample) (ch : Nat) :
    SameHbResults (hbProcess x ch (s.accept w .hb)) (hbProcess x ch ((s.withRates sr pg).accept w .hb)) := by
  have hconstruction := ((hbProcess_construction x ch (s.accept w .hb)).symm.trans
    (s.withRates_accept_construction sr pg w)).trans (hbProcess_construction x ch ((s.withRates sr pg).accept w .hb))
  cases h : processError s.hb.channels ch with
  | some e =>
    rw [hbProcess_of_error (s := s.accept w .hb) x h, hbProcess_of_error (s := (s.withRates sr pg).accept w .hb) x h]
      at hconstruction ⊢
    exact ⟨rfl, rfl, rfl, rfl, hconstruction⟩
  | none =>
    rw [hbProcess_of_no_error (s := s.accept w .hb) x h,
      hbProcess_of_no_error (s := (s.withRates sr pg).accept w .hb) x h,
      State.withRates_accept_sections, State.withRates_accept_output] at hconstruction ⊢
    exact ⟨rfl, rfl, rfl, rfl, hconstruction⟩

theorem exec_hb_withRates {i : Instr} (hunit : i.unit = .hb) (hother : i ≠ .hbConstruct) :
    ∃ t t', exec i (s.accept w .hb) = .next t ∧ exec i ((s.withRates sr pg).accept w .hb) = .next t' ∧
      SameHbResults t t' := by
  cases i with
  | hbConstruct => exact absurd rfl hother
  | hbReset => exact ⟨_, _, rfl, rfl, rfl, rfl, rfl, rfl, ⟨rfl, rfl, rfl, rfl, rfl⟩⟩
  | hbProcessR ch => exact ⟨_, _, rfl, rfl, hbProcess_withRates s sr pg w _ ch⟩
  | hbProcessC ch => exact ⟨_, _, rfl, rfl, hbProcess_withRates s sr pg w _ ch⟩
  | fftConfigure | fftForward | fftInverse => cases hunit

end

/-- Settles O35: no other agent's move writes the construction, nor does another HB command; and no other HB command
reads HB_SRATE or HB_PGAIN. -/
theorem onlyConstructWritesConstruction : Obligations.OnlyConstructWritesConstruction := by
  refine ⟨fun s t => step_construction, fun s sr pg w i hunit hother => ?rates⟩
  case rates =>
    obtain ⟨t, t', ht, ht', hsame⟩ := exec_hb_withRates s sr pg w hunit hother
    exact ⟨t, t', ht, ht', hsame.state, hsame.yre, hsame.yim, hsame.ecode, hsame.construction⟩

end Sys2Proof.Machine
end

section
/-! Settled: an illegal command word (60_exceptions.md R212). -/

namespace Sys2Proof.Machine

/-- The turn of a busy unit executes the word that it accepted (20_memory.md R73). -/
theorem State.unitMove_of_running {s : State} {u : UnitId} {w : Word} (h : s.running u = some w) :
    s.unitMove u = s.executeWord u w := by
  rw [State.unitMove, h]

/-- A command error leaves every CMD register, that of the other unit too (60_exceptions.md R213). -/
@[simp] theorem State.cmdError_cmdWord (s : State) (e : ECode) (v u : UnitId) :
    (s.cmdError e v).cmdWord u = s.cmdWord u := by
  cases v <;> cases u <;> rfl

/-- The completion of an illegal word that a unit accepted is CmdError(1) and nothing more. -/
theorem State.unitMove_accept_illegal (s : State) {u : UnitId} {v : Word} {e : DecodeError}
    (h : decode u v = .error e) :
    (s.accept v u).unitMove u = .next ((s.accept v u).cmdError .illegalCmd u) := by
  have hillegal : ∀ i, decode u v ≠ .ok i := fun i hi => by simp [h] at hi
  rw [State.unitMove_of_running (s.accept_running v u), State.executeWord_illegal _ hillegal]

/-- Settles O4: the write is accepted before the word is decoded; the turn then ends as a command error, whose frame is
`State.cmdError_spec`. -/
theorem illegalCommandHasNoEffect : Obligations.IllegalCommandHasNoEffect := by
  intro s u v e _ hillegal
  refine ⟨s.perform_commandWrite u v, s.accept_cmdWord v u, s.accept_busy v u, _,
    s.unitMove_accept_illegal hillegal, (s.accept v u).cmdError_spec u .illegalCmd, ?readBack⟩
  case readBack => rw [State.cmdError_cmdWord, State.accept_cmdWord]

end Sys2Proof.Machine
end

section
/-! Settled: an access to a busy unit's region waits, and a read of STATUS does not (70_reset_and_hazards.md R250, R251). -/

namespace Sys2Proof.Machine

/-! ## Accesses to a busy unit -/

/-- A BusError is never held (20_memory.md R67). -/
theorem State.holds_of_busError {s : State} {a : Access} (h : target s.build a = none) : s.holds a = false := by
  simp only [State.holds, h]

/-- An access to any word but a STATUS is held exactly while the unit of that word is busy. -/
theorem State.holds_of_not_isStatus {s : State} {a : Access} {l : Loc} (h : target s.build a = some l)
    (hstatus : l.isStatus = false) : s.holds a = s.busy l.unit := by
  rw [State.holds_eq h, hstatus, Bool.not_false, Bool.and_true]

/-- A host without an outstanding access that issues one that is held leaves it outstanding. -/
theorem State.hostMove_of_issued_held {s : State} {a : Access} {rest : List HostOp}
    (hpending : s.port.pending = none) (hscript : s.script = .access a :: rest) (hheld : s.holds a = true) :
    s.hostMove = { s with script := rest, port := { s.port with pending := some a } } := by
  simp only [State.hostMove, hpending, hscript, hheld, if_true]

/-- Settles O41: such an access is held exactly while its unit is busy, and the host's turn has one law for each of issuing
a held access, waiting with it and performing it once released. -/
theorem accessToBusyUnitIsHeld : Obligations.AccessToBusyUnitIsHeld := by
  refine fun s a => ⟨State.holds_of_busError, fun l htarget hstatus => ?held⟩
  have hholds := State.holds_of_not_isStatus htarget hstatus
  refine ⟨fun hbusy rest hpending hscript => ?issued, fun hbusy hpending => ?waits, fun hidle hpending => ?released⟩
  case issued => exact State.hostMove_of_issued_held hpending hscript (hholds.trans hbusy)
  case waits => exact State.hostMove_of_held hpending (hholds.trans hbusy)
  case released => exact State.hostMove_of_released hpending (hholds.trans hidle)

/-! ## Reads of STATUS -/

theorem State.holds_statusRead (s : State) (u : UnitId) : s.holds (statusRead u) = false := by
  rw [State.holds_eq (target_statusRead s.build u), statusLoc_isStatus, Bool.not_true, Bool.and_false]

/-- The result code of the last command of a unit. -/
def State.lastCode (s : State) : UnitId → ECode
  | .fft => s.fft.ecode
  | .hb => s.hb.ecode

theorem State.status_eq_statusWord (s : State) (u : UnitId) : s.status u = statusWord (s.busy u) (s.lastCode u) := by
  cases u <;> rfl

/-- BUSY stands in bit 0 of STATUS (10_state.md R25). -/
theorem getLsbD_zero_statusWord (busy : Bool) (e : ECode) : (statusWord busy e).getLsbD 0 = busy := by
  rw [statusLayout busy e 0 (by decide), if_pos rfl]

/-- ECODE stands in bits 11 to 8 of STATUS (10_state.md R25). -/
theorem toNat_codeField_statusWord (busy : Bool) (e : ECode) :
    ((statusWord busy e).extractLsb' 8 4).toNat = e.code := by
  have hfield : (statusWord busy e).extractLsb' 8 4 = BitVec.ofNat 4 e.code := by
    apply BitVec.eq_of_getLsbD_eq
    intro i hi
    rw [BitVec.getLsbD_extractLsb', getLsbD_statusWord busy e (by omega), if_neg (by omega : ¬8 + i < 8),
      Nat.add_sub_cancel_left, BitVec.getLsbD_ofNat]
  rw [hfield, BitVec.toNat_ofNat, Nat.mod_eq_of_lt e.code_lt_two_pow_four]

/-- Settles O42: the target of the read is a STATUS, which nothing holds, and its word carries BUSY and ECODE in their
fields; a host whose earlier access is held stays at that access. -/
theorem statusReadIsNeverHeld : Obligations.StatusReadIsNeverHeld := by
  intro s u
  refine ⟨s.holds_statusRead u, s.perform_statusRead u, ?busyBit, ?codeField,
    fun a hpending hheld => State.hostMove_of_held hpending hheld⟩
  case busyBit => rw [State.status_eq_statusWord, getLsbD_zero_statusWord]
  case codeField =>
    rw [State.status_eq_statusWord, toNat_codeField_statusWord]
    cases u <;> rfl

end Sys2Proof.Machine
end

section
/-! Settled: the values of the reset state (70_reset_and_hazards.md R242). -/

namespace Sys2Proof.Machine

/-! ## The build of the machine (00_scope.md R7) -/

theorem smallestBuild_legal : smallestBuild.Legal := by decide

/-- The build under study is legal, whichever build the platform's designer chose. -/
theorem build_legal : build.Legal := by
  unfold build
  split
  · assumption
  · exact smallestBuild_legal

/-! ## Units after a power-on reset -/

section
variable {s : State} {m n : Nat}

/-- An idle unit without an error reads 0 at its STATUS (10_state.md R25). -/
theorem statusWord_idle_ok : statusWord false .ok = 0 := rfl

/-- Each row is a field of one of the two units, or of the build. -/
theorem State.registersReset_of_powerOn (hfft : s.fft = powerOnFft m) (hhb : s.hb = powerOnHb s.build.fmt n) :
    s.RegistersReset := by
  obtain ⟨b, f, h, p, script, schedule, epoch⟩ := s
  obtain rfl : f = powerOnFft m := hfft
  obtain rfl : h = powerOnHb b.fmt n := hhb
  constructor
  case fftStatus => exact statusWord_idle_ok
  case hbStatus => exact statusWord_idle_ok
  all_goals rfl

/-- The channels of a legal build lie in the window of STATE, where an array that lists nothing reads 0; every other row is
a field of the HB unit or of the build. -/
theorem State.valuesReset_of_powerOn (hlegal : s.build.Legal) (hhb : s.hb = powerOnHb s.build.fmt n) :
    s.ValuesReset := by
  obtain ⟨b, f, h, p, script, schedule, epoch⟩ := s
  obtain rfl : h = powerOnHb b.fmt n := hhb
  constructor
  case scoeff => exact fun i hi => List.getElem?_replicate_of_lt hi
  case spole => exact fun i hi => List.getElem?_replicate_of_lt hi
  case channels =>
    intro c i hc hi
    have hchannels := (Build.legal_bounds hlegal).2.1
    exact section_nil b.fmt epoch c i (hc.trans_le hchannels) hi
  case tw => exact fun _ _ _ => rfl
  all_goals rfl

/-- In a legal build the values of R242 are those of any state whose units and port are as a power-on reset leaves them. -/
theorem State.powerOnValues_of_powerOn (hlegal : s.build.Legal) (hfft : s.fft = powerOnFft m)
    (hhb : s.hb = powerOnHb s.build.fmt n) (hport : s.port = powerOnPort) : s.PowerOnValues where
  registers := State.registersReset_of_powerOn hfft hhb
  values := State.valuesReset_of_powerOn hlegal hhb
  fftIdle := by rw [State.busy, hfft]; rfl
  hbIdle := by rw [State.busy, hhb]; rfl
  port := by rw [hport]; rfl

end

/-- Settles O7: the reset state is made of the power-on units and port, over a legal build. -/
theorem resetStateHasResetValues : Obligations.ResetStateHasResetValues :=
  State.powerOnValues_of_powerOn build_legal rfl rfl rfl

end Sys2Proof.Machine
end

section
/-! One equation for each answer of a command's check: refused, it is a command error; accepted, it completes. -/

namespace Sys2Proof.Machine

section
variable {s : State} {e : ECode}

theorem fftConfigure_of_error (h : fftSizeError s.build s.fftArg = some e) : fftConfigure s = s.cmdError e .fft := by
  rw [fftConfigure, h]

theorem fftConfigure_of_no_error (h : fftSizeError s.build s.fftArg = none) :
    fftConfigure s = s.completeFft { s.fft with maxSize := s.fftArg } := by
  rw [fftConfigure, h]

theorem fftTransform_of_error (dir : Direction) (h : fftSizeError s.build s.fftArg = some e) :
    fftTransform dir s = s.cmdError e .fft := by
  rw [fftTransform, h]

theorem fftTransform_of_no_error (dir : Direction) (h : fftSizeError s.build s.fftArg = none) :
    fftTransform dir s = s.completeFft
      ({ s.fft with maxSize := grownMaxSize s.fft.maxSize s.fftArg }.storeOutput s.build.fmt
        (s.transformOutput dir)) := by
  rw [fftTransform, h]

theorem hbConstruct_of_error (h : constructError s.build s.hb.operands.srate s.hb.operands.nchan = some e) :
    hbConstruct s = s.cmdError e .hb := by
  rw [hbConstruct, h]

theorem hbConstruct_of_no_error (h : constructError s.build s.hb.operands.srate s.hb.operands.nchan = none) :
    hbConstruct s = s.completeHb
      (s.hb.construct s.build s.hbFp s.hb.operands.srate s.hb.operands.pgain s.hb.operands.nchan) := by
  rw [hbConstruct, h]

end

end Sys2Proof.Machine
end

section
/-! Settled: the invariant holds at reset and every step keeps it (10_state.md, 70_reset_and_hazards.md J1). It falls
apart into what the build and one unit alone say, and the outstanding access. -/

namespace Sys2Proof.Machine

/-! ## The parts of the invariant -/

/-- What the invariant says of the FFT unit. -/
structure State.FftInv (s : State) : Prop where
  maxSize : s.maxSizeLegal
  inBuf : Memory.wf s.fft.inBuf = true
  outBuf : Memory.wf s.fft.outBuf = true
  captured : ∀ j, s.fft.job = some j → j.word = s.fft.cmd ∧ j.operands = s.fft.capture

/-- What the invariant says of the HB unit. -/
structure State.HbInv (s : State) : Prop where
  channels : s.channelsLegal
  tables : s.tablesLegal
  values : s.ValuesFit
  state : Memory.wf s.hb.state = true
  captured : ∀ j, s.hb.job = some j → j.word = s.hb.cmd ∧ j.operands = s.hb.capture

/-- The invariant is that of the build, of each unit and of the outstanding access. -/
theorem State.inv_iff {s : State} : s.Inv ↔ s.build.Legal ∧ s.FftInv ∧ s.HbInv ∧ s.pendingLegal := by
  constructor
  · rintro ⟨hbuild, hmax, hchannels, htables, hvalues, ⟨hin, hout, hstate⟩, ⟨hfft, hhb⟩, hpending⟩
    exact ⟨hbuild, ⟨hmax, hin, hout, hfft⟩, ⟨hchannels, htables, hvalues, hstate, hhb⟩, hpending⟩
  · rintro ⟨hbuild, ⟨hmax, hin, hout, hfft⟩, ⟨hchannels, htables, hvalues, hstate, hhb⟩, hpending⟩
    exact ⟨hbuild, hmax, hchannels, htables, hvalues, ⟨hin, hout, hstate⟩, ⟨hfft, hhb⟩, hpending⟩

section
variable {s t : State}

theorem State.ValuesFit.of_eq (h : s.ValuesFit) (hbuild : t.build = s.build) (hhb : t.hb = s.hb) : t.ValuesFit := by
  obtain ⟨srate, pgain, xre, xim, yre, yim, ffactor, sdirect, scoeff, spole⟩ := h
  rw [← hbuild, ← hhb] at srate pgain xre xim yre yim ffactor sdirect scoeff spole
  exact ⟨srate, pgain, xre, xim, yre, yim, ffactor, sdirect, scoeff, spole⟩

theorem State.FftInv.of_eq (h : s.FftInv) (hbuild : t.build = s.build) (hfft : t.fft = s.fft) : t.FftInv := by
  obtain ⟨hmax, hin, hout, hcaptured⟩ := h
  rw [State.maxSizeLegal, ← hbuild, ← hfft] at hmax
  rw [← hfft] at hin hout hcaptured
  exact ⟨hmax, hin, hout, hcaptured⟩

theorem State.HbInv.of_eq (h : s.HbInv) (hbuild : t.build = s.build) (hhb : t.hb = s.hb) : t.HbInv := by
  obtain ⟨hchannels, htables, hvalues, hstate, hcaptured⟩ := h
  rw [State.channelsLegal, ← hbuild, ← hhb] at hchannels
  rw [State.tablesLegal, ← hhb] at htables
  rw [← hhb] at hstate hcaptured
  exact ⟨hchannels, htables, hvalues.of_eq hbuild hhb, hstate, hcaptured⟩

theorem State.pendingLegal.of_eq (h : s.pendingLegal) (hbuild : t.build = s.build)
    (hpending : t.port.pending = s.port.pending) : t.pendingLegal := by
  rw [State.pendingLegal, ← hbuild, ← hpending] at h
  exact h

/-- What only the response, the script, the schedule or the power-on count tells apart meets the invariant together. -/
theorem State.Inv.of_eq (h : s.Inv) (hbuild : t.build = s.build) (hfft : t.fft = s.fft) (hhb : t.hb = s.hb)
    (hpending : t.pendingLegal) : t.Inv := by
  obtain ⟨hlegal, hfftInv, hhbInv, -⟩ := State.inv_iff.1 h
  exact State.inv_iff.2 ⟨hbuild ▸ hlegal, hfftInv.of_eq hbuild hfft, hhbInv.of_eq hbuild hhb, hpending⟩

/-! ## Power-on reset -/

theorem Cplx.Fits.fitsCplx {fmt : Format} {z : Cplx} (h : Cplx.Fits fmt z) : fitsCplx fmt z = true := by
  rw [Machine.fitsCplx, h.re, h.im, Bool.and_self]

theorem fitsCplx_of_mem_replicate {fmt : Format} {n : Nat} {z : Cplx} (h : z ∈ List.replicate n czero) :
    fitsCplx fmt z = true := by
  rw [List.eq_of_mem_replicate h]
  exact (fits_czero fmt).fitsCplx

theorem State.fftInv_of_powerOn {m : Nat} (hfft : s.fft = powerOnFft m) : s.FftInv := by
  constructor
  case maxSize => exact .inl (by rw [hfft]; rfl)
  case captured => intro j hj; simp [hfft, powerOnFft] at hj
  all_goals rw [hfft]; exact Memory.wf_nil

theorem State.hbInv_of_powerOn {n : Nat} (hhb : s.hb = powerOnHb s.build.fmt n) : s.HbInv := by
  constructor
  case channels => rw [State.channelsLegal, hhb]; exact Nat.zero_le _
  case tables => rw [State.tablesLegal, hhb]; exact ⟨List.length_replicate, List.length_replicate⟩
  case values =>
    constructor
    case pgain => rw [hhb]; exact fits_fone _
    case scoeff => rw [hhb]; exact fun _ => fitsCplx_of_mem_replicate
    case spole => rw [hhb]; exact fun _ => fitsCplx_of_mem_replicate
    all_goals rw [hhb]; exact fits_zero _
  case state => rw [hhb]; exact Memory.wf_nil
  case captured => intro j hj; simp [hhb, powerOnHb] at hj

/-- A legal build with its units and its port as a power-on reset leaves them meets the invariant. -/
theorem State.inv_of_powerOn {m n : Nat} (hlegal : s.build.Legal) (hfft : s.fft = powerOnFft m)
    (hhb : s.hb = powerOnHb s.build.fmt n) (hport : s.port = powerOnPort) : s.Inv :=
  State.inv_iff.2 ⟨hlegal, State.fftInv_of_powerOn hfft, State.hbInv_of_powerOn hhb,
    fun a ha => by simp [hport, powerOnPort] at ha⟩

/-! ## The FFT unit's commands -/

/-- A completion keeps FFT_IN and ends the command in flight; what is left to say is FFT_MAXSIZE and FFT_OUT. -/
theorem State.FftInv.of_completed (h : s.FftInv) (hin : t.fft.inBuf = s.fft.inBuf) (hjob : t.fft.job = none)
    (hmax : t.maxSizeLegal) (hout : Memory.wf t.fft.outBuf = true) : t.FftInv :=
  ⟨hmax, hin ▸ h.inBuf, hout, fun j hj => by simp [hjob] at hj⟩

theorem State.FftInv.cmdError (h : s.FftInv) (e : ECode) : (s.cmdError e .fft).FftInv :=
  h.of_completed rfl rfl h.maxSize h.outBuf

/-- An operand that passes the size check is a legal FFT_MAXSIZE (41_fft.md R140). -/
theorem legal_of_fftSizeError_none {b : Build} {n : Word} (h : fftSizeError b n = none) :
    isPow2 n.toNat = true ∧ fitsRom b n.toNat = true := by
  unfold fftSizeError at h
  split at h
  case isTrue hpow =>
    split at h
    case isTrue hfits => exact ⟨hpow, hfits⟩
    case isFalse => cases h
  case isFalse => cases h

theorem fftConfigure_fftInv (h : s.FftInv) : (fftConfigure s).FftInv := by
  cases hsize : fftSizeError s.build s.fftArg with
  | some e => rw [fftConfigure_of_error hsize]; exact h.cmdError e
  | none =>
    rw [fftConfigure_of_no_error hsize]
    exact h.of_completed rfl rfl (.inr (legal_of_fftSizeError_none hsize)) h.outBuf

theorem fftTransform_fftInv (dir : Direction) (h : s.FftInv) : (fftTransform dir s).FftInv := by
  cases hsize : fftSizeError s.build s.fftArg with
  | some e => rw [fftTransform_of_error dir hsize]; exact h.cmdError e
  | none =>
    rw [fftTransform_of_no_error dir hsize]
    refine h.of_completed rfl rfl ?maxSize (Memory.wf_setCplxs _ _ _ _ h.outBuf)
    rw [State.maxSizeLegal, State.completeFft_fft, FftUnit.complete_maxSize, FftUnit.storeOutput_maxSize, grownMaxSize]
    split
    · exact .inr (legal_of_fftSizeError_none hsize)
    · exact h.maxSize

theorem exec_fftInv {i : Instr} (hunit : i.unit = .fft) (h : s.FftInv) (hexec : exec i s = .next t) : t.FftInv := by
  cases i with
  | fftConfigure => cases hexec; exact fftConfigure_fftInv h
  | fftForward => cases hexec; exact fftTransform_fftInv .fwd h
  | fftInverse => cases hexec; exact fftTransform_fftInv .inv h
  | hbConstruct | hbReset | hbProcessR | hbProcessC => cases hunit

/-! ## The HB unit's commands -/

theorem fitsCplx_of_mem_perSection {fmt : Format} {f : Nat → Cplx} (h : ∀ i, Cplx.Fits fmt (f i)) :
    ∀ z ∈ perSection f, fitsCplx fmt z = true := by
  intro z hz
  obtain ⟨i, -, rfl⟩ := mem_perSection hz
  exact (h i).fitsCplx

/-- A unit that has ended its command holds none. -/
theorem HbUnit.complete_captured (u : HbUnit) (e : ECode) :
    ∀ j, (u.complete e).job = some j → j.word = (u.complete e).cmd ∧ j.operands = (u.complete e).capture :=
  fun _ hj => by cases hj

/-- A completion that keeps the operand registers and the construction; what is left to say is the output and STATE. -/
theorem State.HbInv.of_frame (h : s.HbInv) (hframe : HbFrame s t) (hconstruction : SameConstruction s t)
    (hjob : t.hb.job = none) (hout : Cplx.Fits s.build.fmt ⟨t.hb.yre, t.hb.yim⟩)
    (hstate : Memory.wf t.hb.state = true) : t.HbInv := by
  obtain ⟨hchannels, htables, ⟨srate, pgain, xre, xim, -, -, ffactor, sdirect, scoeff, spole⟩, -, -⟩ := h
  obtain ⟨yre, yim⟩ := hout
  obtain ⟨-, -, hsrate, hpgain, hxre, hxim, -, ⟨hbuild, -, -, -, -⟩⟩ := hframe
  obtain ⟨hcount, hffactor, hsdirect, hscoeff, hspole⟩ := hconstruction
  rw [State.channelsLegal, ← hbuild, ← hcount] at hchannels
  rw [State.tablesLegal, ← hscoeff, ← hspole] at htables
  rw [← hbuild] at srate pgain xre xim yre yim ffactor sdirect scoeff spole
  exact ⟨hchannels, htables, ⟨hsrate ▸ srate, hpgain ▸ pgain, hxre ▸ xre, hxim ▸ xim, yre, yim, hffactor ▸ ffactor,
    hsdirect ▸ sdirect, hscoeff ▸ scoeff, hspole ▸ spole⟩, hstate, fun j hj => by simp [hjob] at hj⟩

theorem State.HbInv.cmdError (h : s.HbInv) (e : ECode) : (s.cmdError e .hb).HbInv :=
  h.of_frame (s.cmdError_hb_spec e).frame (s.cmdError_hb_spec e).construction rfl ⟨h.values.yre, h.values.yim⟩ h.state

/-- A channel count that passes the check is one of the build (42_hilbert.md R172). -/
theorem nchan_le_of_constructError_none {b : Build} {sr : F} {nc : Word} (h : constructError b sr nc = none) :
    nc.toNat ≤ b.maxChannels := by
  unfold constructError at h
  split at h
  case isTrue =>
    split at h
    case isTrue => cases h
    case isFalse hcount => exact Nat.not_lt.1 fun hlt => hcount (.inr hlt)
  case isFalse => cases h

theorem hbConstruct_hbInv (h : s.HbInv) : (hbConstruct s).HbInv := by
  cases hcheck : constructError s.build s.hb.operands.srate s.hb.operands.nchan with
  | some e => rw [hbConstruct_of_error hcheck]; exact h.cmdError e
  | none =>
    rw [hbConstruct_of_no_error hcheck]
    obtain ⟨-, -, ⟨srate, pgain, xre, xim, yre, yim, -, -, -, -⟩, -, -⟩ := h
    refine ⟨nchan_le_of_constructError_none hcheck, ⟨perSection_length _, perSection_length _⟩,
      ⟨srate, pgain, xre, xim, yre, yim, ffact_fits (s.hbFp.at 0) _, fits_fmul ((s.hbFp.at 3).at 0) _ _,
        fitsCplx_of_mem_perSection fun i => scaledCoeff_fits ((s.hbFp.at 1).at i) _ _ _,
        fitsCplx_of_mem_perSection fun i => scaledPole_fits ((s.hbFp.at 2).at i) _ _⟩,
      Memory.wf_nil, HbUnit.complete_captured _ _⟩

/-- HB.RESET leaves all but STATE and HB_STATUS. -/
theorem hbReset_hbFrame (s : State) : HbFrame s (hbReset s) :=
  ⟨rfl, rfl, rfl, rfl, rfl, rfl, rfl, rfl, rfl, rfl, rfl, rfl⟩

theorem hbReset_hbInv (h : s.HbInv) : (hbReset s).HbInv :=
  h.of_frame (hbReset_hbFrame s) ⟨rfl, rfl, rfl, rfl, rfl⟩ rfl ⟨h.values.yre, h.values.yim⟩ Memory.wf_nil

/-- A PROCESS command leaves the operand registers, the FFT unit and the platform. -/
theorem hbProcess_hbFrame (x : Sample) (ch : Nat) (s : State) : HbFrame s (hbProcess x ch s) := by
  cases h : processError s.hb.channels ch with
  | some e => rw [hbProcess_of_error x h]; exact (s.cmdError_hb_spec e).frame
  | none =>
    rw [hbProcess_of_no_error x h]
    exact ⟨rfl, rfl, rfl, rfl, rfl, rfl, rfl, rfl, rfl, rfl, rfl, rfl⟩

theorem hbProcess_hbInv (x : Sample) (ch : Nat) (h : s.HbInv) : (hbProcess x ch s).HbInv := by
  cases hcheck : processError s.hb.channels ch with
  | some e => rw [hbProcess_of_error x hcheck]; exact h.cmdError e
  | none =>
    have hout := s.output_fits x ch
    refine h.of_frame (hbProcess_hbFrame x ch s) (hbProcess_construction x ch s) ?job ?output ?state
    all_goals rw [hbProcess_of_no_error x hcheck]
    case job => rfl
    case output =>
      generalize s.output x ch = y at hout ⊢
      exact hout
    case state => exact Memory.wf_setCplxs _ _ _ _ h.state

theorem exec_hbInv {i : Instr} (hunit : i.unit = .hb) (h : s.HbInv) (hexec : exec i s = .next t) : t.HbInv := by
  cases i with
  | hbConstruct => cases hexec; exact hbConstruct_hbInv h
  | hbReset => cases hexec; exact hbReset_hbInv h
  | hbProcessR ch => cases hexec; exact hbProcess_hbInv _ ch h
  | hbProcessC ch => cases hexec; exact hbProcess_hbInv _ ch h
  | fftConfigure | fftForward | fftInverse => cases hunit

/-! ## A unit's turn -/

/-- Everything the turn of a unit can do: nothing while idle, else run its command or refuse its word. -/
theorem State.unitMove_cases {u : UnitId} (h : s.unitMove u = .next t) :
    t = s ∨ (∃ i : Instr, i.unit = u ∧ exec i s = .next t) ∨ t = s.cmdError .illegalCmd u := by
  rw [State.unitMove] at h
  split at h
  next w _ =>
    change s.executeWord u w = .next t at h
    rw [State.executeWord] at h
    split at h
    next i hdec => exact .inr (.inl ⟨i, decode_unit hdec, h⟩)
    next => exact .inr (.inr (Host.Outcome.next.inj h).symm)
  next => exact .inl (Host.Outcome.next.inj h).symm

/-- The FFT unit's turn: its own part is kept by each of its commands, the rest by its frame. -/
theorem State.Inv.unitMove_fft (h : s.Inv) (hmove : s.unitMove .fft = .next t) : t.Inv := by
  obtain ⟨hhb, hplatform⟩ := unitsAreIndependent.1 s t hmove
  obtain ⟨hlegal, hfftInv, hhbInv, hpending⟩ := State.inv_iff.1 h
  refine State.inv_iff.2 ⟨hplatform.build ▸ hlegal, ?fft, hhbInv.of_eq hplatform.build hhb,
    hpending.of_eq hplatform.build (by rw [hplatform.port])⟩
  rcases State.unitMove_cases hmove with rfl | ⟨i, hunit, hexec⟩ | rfl
  · exact hfftInv
  · exact exec_fftInv hunit hfftInv hexec
  · exact hfftInv.cmdError _

/-- The HB unit's turn. -/
theorem State.Inv.unitMove_hb (h : s.Inv) (hmove : s.unitMove .hb = .next t) : t.Inv := by
  obtain ⟨hfft, hplatform⟩ := unitsAreIndependent.2.1 s t hmove
  obtain ⟨hlegal, hfftInv, hhbInv, hpending⟩ := State.inv_iff.1 h
  refine State.inv_iff.2 ⟨hplatform.build ▸ hlegal, hfftInv.of_eq hplatform.build hfft, ?hb,
    hpending.of_eq hplatform.build (by rw [hplatform.port])⟩
  rcases State.unitMove_cases hmove with rfl | ⟨i, hunit, hexec⟩ | rfl
  · exact hhbInv
  · exact exec_hbInv hunit hhbInv hexec
  · exact hhbInv.cmdError _

/-! ## The host's turn -/

theorem FftUnit.job_eq_none {u : FftUnit} (h : u.busy = false) : u.job = none :=
  Option.isNone_iff_eq_none.1 (Option.isSome_eq_false_iff.1 h)

theorem HbUnit.job_eq_none {u : HbUnit} (h : u.busy = false) : u.job = none :=
  Option.isNone_iff_eq_none.1 (Option.isSome_eq_false_iff.1 h)

theorem fits_replaceWord (fmt : Format) {v : F} (high : Bool) (w : Word) :
    fitsFormat fmt (replaceWord fmt v high w) = true := by
  cases fmt with
  | binary32 =>
    rw [fitsFormat_iff, replaceWord]
    exact (toNat_zero_append w).trans_lt w.isLt
  | binary64 => exact (fitsFormat_iff _ _).2 (BitVec.isLt _)

/-- A write to a word of the FFT unit takes the command with its operands, or finds no command in flight. -/
theorem State.FftInv.writeLoc (h : s.FftInv) {l : Loc} (hunit : l.unit = .fft) (hidle : s.fft.busy = false) (w : Word) :
    (s.writeLoc l w).FftInv := by
  have hjob := FftUnit.job_eq_none hidle
  obtain ⟨hmax, hin, hout, hcaptured⟩ := h
  cases l with
  | fftCmd => exact ⟨hmax, hin, hout, fun j hj => by cases hj; exact ⟨rfl, rfl⟩⟩
  | fftArg => exact ⟨hmax, hin, hout, fun j hj => by simp [State.writeLoc, hjob] at hj⟩
  | fftIn k imag high =>
    exact ⟨hmax, Memory.wf_setWord _ _ _ hin, hout, fun j hj => by simp [State.writeLoc, hjob] at hj⟩
  | fftStatus | fftMaxSize | fftParams | tw | fftOut => exact ⟨hmax, hin, hout, hcaptured⟩
  | _ => cases hunit

theorem State.ValuesFit.writeSlot (h : s.ValuesFit) (r : HbSlot) (high : Bool) (w : Word) :
    (s.writeLoc (.hbSlot r high) w).ValuesFit := by
  obtain ⟨srate, pgain, xre, xim, yre, yim, ffactor, sdirect, scoeff, spole⟩ := h
  have hnew : ∀ v, fitsFormat s.build.fmt (replaceWord s.build.fmt v high w) = true := fun v =>
    fits_replaceWord s.build.fmt high w
  cases r with
  | srate => exact ⟨hnew _, pgain, xre, xim, yre, yim, ffactor, sdirect, scoeff, spole⟩
  | pgain => exact ⟨srate, hnew _, xre, xim, yre, yim, ffactor, sdirect, scoeff, spole⟩
  | xre => exact ⟨srate, pgain, hnew _, xim, yre, yim, ffactor, sdirect, scoeff, spole⟩
  | xim => exact ⟨srate, pgain, xre, hnew _, yre, yim, ffactor, sdirect, scoeff, spole⟩
  | _ => exact ⟨srate, pgain, xre, xim, yre, yim, ffactor, sdirect, scoeff, spole⟩

/-- A write to a word of the HB unit, likewise. -/
theorem State.HbInv.writeLoc (h : s.HbInv) {l : Loc} (hunit : l.unit = .hb) (hidle : s.hb.busy = false) (w : Word) :
    (s.writeLoc l w).HbInv := by
  have hjob := HbUnit.job_eq_none hidle
  obtain ⟨hchannels, htables, hvalues, hstate, hcaptured⟩ := h
  cases l with
  | hbCmd =>
    obtain ⟨srate, pgain, xre, xim, yre, yim, ffactor, sdirect, scoeff, spole⟩ := hvalues
    exact ⟨hchannels, htables, ⟨srate, pgain, xre, xim, yre, yim, ffactor, sdirect, scoeff, spole⟩, hstate,
      fun j hj => by cases hj; exact ⟨rfl, rfl⟩⟩
  | hbNchan =>
    obtain ⟨srate, pgain, xre, xim, yre, yim, ffactor, sdirect, scoeff, spole⟩ := hvalues
    exact ⟨hchannels, htables, ⟨srate, pgain, xre, xim, yre, yim, ffactor, sdirect, scoeff, spole⟩, hstate,
      fun j hj => by simp [State.writeLoc, hjob] at hj⟩
  | hbSlot r high =>
    have hvalues' := hvalues.writeSlot r high w
    obtain ⟨sr, pg, xr, xi, hslot⟩ := s.hb.writeSlot_eq_inputs s.build.fmt r high w
    rw [State.writeLoc, hslot] at hvalues' ⊢
    exact ⟨hchannels, htables, hvalues', hstate, fun j hj => by simp [hjob] at hj⟩
  | hbStatus | hbParams | hbChannels | table | channel => exact ⟨hchannels, htables, hvalues, hstate, hcaptured⟩
  | _ => cases hunit

/-- A write to a word of an idle unit keeps the invariant. -/
theorem State.Inv.writeLoc (h : s.Inv) {l : Loc} (hidle : s.busy l.unit = false) (w : Word) : (s.writeLoc l w).Inv := by
  obtain ⟨hlegal, hfftInv, hhbInv, hpending⟩ := State.inv_iff.1 h
  have hbuild := s.writeLoc_build l w
  have hpending' := hpending.of_eq hbuild (by rw [State.writeLoc_port])
  cases hunit : l.unit with
  | fft =>
    rw [hunit] at hidle
    exact State.inv_iff.2 ⟨hbuild ▸ hlegal, hfftInv.writeLoc hunit hidle w,
      hhbInv.of_eq hbuild (s.writeLoc_hb_of_fft l w hunit), hpending'⟩
  | hb =>
    rw [hunit] at hidle
    exact State.inv_iff.2 ⟨hbuild ▸ hlegal, hfftInv.of_eq hbuild (s.writeLoc_fft_of_hb l w hunit),
      hhbInv.writeLoc hunit hidle w, hpending'⟩

theorem State.Inv.respond (h : s.Inv) (r : Response) : (s.respond r).Inv :=
  h.of_eq rfl rfl rfl (h.pending.of_eq rfl rfl)

theorem Loc.isStatus_of_writable {l : Loc} (h : l.writable = true) : l.isStatus = false := by
  cases l with
  | fftStatus | hbStatus => cases h
  | _ => rfl

/-- An access that is not held finds the unit that it writes to idle. -/
theorem State.Inv.perform (h : s.Inv) {a : Access} (hfree : s.holds a = false) : (s.perform a).Inv := by
  rcases s.perform_cases a with ⟨-, hp⟩ | ⟨l, -, -, hp⟩ | ⟨l, v, htarget, hkind, hp⟩
  · rw [hp]; exact h.respond _
  · rw [hp]; exact h.respond _
  · rw [hp]
    obtain ⟨-, -, hrights⟩ := target_eq_some.1 htarget
    have hwritable : l.writable = true := hrights.resolve_left (by simp [hkind])
    rw [State.holds_of_not_isStatus htarget (Loc.isStatus_of_writable hwritable)] at hfree
    exact (h.writeLoc hfree v).respond _

/-- An access that is held reaches a word other than a STATUS. -/
theorem State.target_of_holds {a : Access} (h : s.holds a = true) :
    ∃ l, target s.build a = some l ∧ l.isStatus = false := by
  cases htarget : target s.build a with
  | none => simp [State.holds_of_busError htarget] at h
  | some l =>
    rw [State.holds_eq htarget, Bool.and_eq_true, Bool.not_eq_true'] at h
    exact ⟨l, rfl, h.2⟩

theorem State.Inv.hostMove (h : s.Inv) : s.hostMove.Inv := by
  rcases s.hostMove_cases with hm | ⟨a, rest, -, -, hheld, hm⟩ | ⟨a, sc, hfree, hm⟩
  · rwa [hm]
  · rw [hm]
    refine h.of_eq rfl rfl rfl fun a' ha' => ?_
    obtain rfl := Option.some.inj ha'
    exact State.target_of_holds hheld
  · rw [hm]
    have hreleased : State.Inv { s with script := sc, port := { s.port with pending := none } } :=
      h.of_eq rfl rfl rfl fun _ ha' => by cases ha'
    exact hreleased.perform hfree

end

/-! ## Steps -/

/-- Settles O9: the reset state is made of the power-on units and port, over a legal build. -/
theorem resetStateMeetsInvariant : Obligations.ResetStateMeetsInvariant :=
  State.inv_of_powerOn build_legal rfl rfl rfl

/-- Settles O10, by the agent that moves: each unit keeps its own part and touches no other, the host writes only to
idle units, and a power-on reset starts afresh. -/
theorem everyStepKeepsInvariant : Obligations.EveryStepKeepsInvariant := by
  intro s t h hstep
  have hturn : s.useTurn.Inv := h.of_eq rfl rfl rfl (h.pending.of_eq rfl rfl)
  rcases step_cases hstep with ⟨-, rfl⟩ | ⟨-, hmove⟩ | ⟨-, hmove⟩ | ⟨-, rfl⟩
  · exact hturn.hostMove
  · exact hturn.unitMove_fft hmove
  · exact hturn.unitMove_hb hmove
  · exact State.inv_of_powerOn h.build rfl rfl rfl

/-- A power-on reset's turn, whatever runs or waits. -/
theorem step_of_powerOn {s : State} (h : s.nextAgent = .powerOn) : step s = .next s.useTurn.powerOnReset := by
  rw [step, h, State.agentMove]

/-- Settles O8: the reset puts the power-on units and port into the state, whose build stays. -/
theorem powerOnResetAborts : Obligations.PowerOnResetAborts :=
  fun _ hlegal hagent => ⟨_, step_of_powerOn hagent, State.powerOnValues_of_powerOn hlegal rfl rfl rfl, rfl, rfl⟩

/-- Each unit's turn has an outcome, which is a next state. -/
theorem State.unitMove_next (s : State) (u : UnitId) : ∃ t, s.unitMove u = .next t := by
  obtain ⟨b, f, h, p, sc, sch, e⟩ := s
  cases u with
  | fft =>
    obtain ⟨u, -, -, -, -, hmove⟩ := unitMove_fft_spec b f e
    exact ⟨_, hmove h p sc sch⟩
  | hb =>
    obtain ⟨u, -, -, -, hmove⟩ := unitMove_hb_spec b h e
    exact ⟨_, hmove f p sc sch⟩

/-- Settles O11: neither the host's move nor a reset can stop, and a unit's turn never does. -/
theorem noStepStops : Obligations.NoStepStops := by
  intro s
  unfold step
  cases s.nextAgent with
  | host => exact ⟨_, rfl⟩
  | fft => exact s.useTurn.unitMove_next .fft
  | hb => exact s.useTurn.unitMove_next .hb
  | powerOn => exact ⟨_, rfl⟩

/-- The step at a unit's turn. -/
theorem step_of_unitAgent {s : State} {u : UnitId} (h : s.nextAgent = unitAgent u) : step s = s.useTurn.unitMove u := by
  rw [step, h]
  cases u <;> rfl

/-- Settles O5: a busy unit's turn executes its word, which is the command it decodes to. -/
theorem stepRunsDecodedCommand : Obligations.StepRunsDecodedCommand := by
  intro s u w i hagent hrun hdec
  rw [step_of_unitAgent hagent, State.unitMove_of_running (s.useTurn_running u ▸ hrun), State.executeWord, hdec]

end Sys2Proof.Machine
end

section
/-! Settled: the FFT unit's commands, their errors and their effects (41_fft.md R141 to R143, R147, R148, R151). -/

namespace Sys2Proof.Machine

/-! ## Errors -/

/-- Each of the three commands makes the size check and raises what it finds. -/
theorem exec_of_fftSizeError {s : State} {i : Instr} {e : ECode} (hunit : i.unit = .fft)
    (h : fftSizeError s.build s.fftArg = some e) : exec i s = .next (s.cmdError e .fft) := by
  cases i with
  | fftConfigure => exact congrArg _ (fftConfigure_of_error h)
  | fftForward => exact congrArg _ (fftTransform_of_error .fwd h)
  | fftInverse => exact congrArg _ (fftTransform_of_error .inv h)
  | hbConstruct | hbReset | hbProcessR | hbProcessC => cases hunit

/-- Settles O13: the check finds FFT_SIZE before FFT_CAPACITY, and an error is a command error and nothing more. -/
theorem fftSizeErrorsHaveNoEffect : Obligations.FftSizeErrorsHaveNoEffect := by
  refine fun s i hunit => ⟨fun hsize => ?size, fun hpow hcapacity => ?capacity⟩
  case size => exact ⟨_, exec_of_fftSizeError hunit (fftSizeError_size _ _ hsize), s.cmdError_fft_spec _⟩
  case capacity =>
    exact ⟨_, exec_of_fftSizeError hunit (fftSizeError_capacity _ _ hpow hcapacity), s.cmdError_fft_spec _⟩

/-! ## FFT.CONFIGURE -/

/-- Settles O12: the completed command differs from the state before in FFT_MAXSIZE and FFT_STATUS only. -/
theorem configureSetsCapacity : Obligations.ConfigureSetsCapacity := by
  intro s hpow hfits
  have hconfigure := fftConfigure_of_no_error (fftSizeError_none s.build s.fftArg hpow hfits)
  have hframe : FftFrame s (s.completeFft { s.fft with maxSize := s.fftArg }) :=
    ⟨rfl, rfl, rfl, rfl, rfl, rfl, rfl, rfl, rfl⟩
  exact ⟨_, congrArg Host.Outcome.next hconfigure, rfl, rfl, rfl, rfl, hframe, fun x hstatus hmax =>
    hframe.byteAt_eq 0 (fun _ _ => rfl) hstatus (.inr hmax) (by simp [inSpan])⟩

/-! ## FFT.FORWARD and FFT.INVERSE -/

/-- The output of a transform of size `2^j` is FFTREC of its input. -/
theorem State.transformOutput_eq {s : State} (dir : Direction) {j : Nat} (hsize : s.fftArg.toNat = 2 ^ j) :
    s.transformOutput dir = fftRec s.fftFp s.build dir j (s.fftInput (2 ^ j)) := by
  rw [State.transformOutput, hsize, Nat.log2_two_pow]

/-- A transform of a legal size: its output stands in the first elements of FFT_OUT, and FFT_MAXSIZE has grown to the
size. -/
theorem fftTransform_effect {s : State} (dir : Direction) {j : Nat} (hsize : s.fftArg.toNat = 2 ^ j)
    (hfits : 2 ^ j ≤ s.build.nrom) : TransformEffect dir j s (fftTransform dir s) := by
  have hlength := s.transformOutput_length dir j hsize
  rw [fftTransform_of_no_error dir (fftSizeError_none _ _ ⟨j, hsize⟩ (hsize ▸ hfits))]
  generalize ht : s.completeFft _ = t
  have hout : t.fft.outBuf = Memory.setCplxs s.build.fmt s.fft.outBuf fftOutBase (s.transformOutput dir) := by
    rw [← ht]; rfl
  have hframe : FftFrame s t := by rw [← ht]; exact ⟨rfl, rfl, rfl, rfl, rfl, rfl, rfl, rfl, rfl⟩
  have hread : ∀ k, t.fftOut k = Memory.cplx s.build.fmt s.epoch
      (Memory.setCplxs s.build.fmt s.fft.outBuf fftOutBase (s.transformOutput dir)) (fftOutBase + 16 * k) := fun k => by
    rw [State.fftOut, hframe.platform.build, hframe.platform.epoch, hout]
  refine ⟨?maxSize, by rw [← ht]; rfl, by rw [← ht]; rfl, fun k hk => ?output, fun k hk => ?stale, hframe,
    fun x hstatus hmax hstored => ?bytes⟩
  case maxSize => rw [← ht]; exact (grownMaxSize_toNat _ _).trans (by rw [hsize])
  case output =>
    rw [← hlength] at hk
    obtain ⟨hre, him⟩ := s.transformOutput_fits dir _ (List.getElem_mem hk)
    rw [hread, Memory.cplx_setCplxs_same _ _ _ _ _ k hk hre him, ← State.transformOutput_eq dir hsize,
      List.getD_eq_getElem _ _ hk]
  case stale => rw [hread, Memory.cplx_setCplxs_other _ _ _ _ _ _ (by rw [hlength]; omega), State.fftOut]
  case bytes =>
    refine hframe.byteAt_eq (2 ^ j) (fun y hy => ?_) hstatus (.inr hmax) hstored
    rw [hout, Memory.word_setCplxs_other _ _ _ _ _ _ (hlength.symm ▸ hy)]

/-- Settles O14: the effect of a transform, in the forward direction. -/
theorem forwardStoresTransform : Obligations.ForwardStoresTransform :=
  fun _ _ hsize hfits => ⟨_, rfl, fftTransform_effect .fwd hsize hfits⟩

/-- Settles O15: the effect of a transform, in the inverse direction. -/
theorem inverseStoresTransform : Obligations.InverseStoresTransform :=
  fun _ _ hsize hfits => ⟨_, rfl, fftTransform_effect .inv hsize hfits⟩

/-- The base cases of FFTREC name no direction (41_fft.md R149, R150). -/
theorem State.transformOutput_of_small {s : State} (h : s.fftArg = 1 ∨ s.fftArg = 2) :
    s.transformOutput .fwd = s.transformOutput .inv := by
  rcases h with hsize | hsize
  · have hpow : s.fftArg.toNat = 2 ^ 0 := by rw [hsize]; rfl
    rw [State.transformOutput_eq .fwd hpow, State.transformOutput_eq .inv hpow, fftRec, fftRec]
  · have hpow : s.fftArg.toNat = 2 ^ 1 := by rw [hsize]; rfl
    rw [State.transformOutput_eq .fwd hpow, State.transformOutput_eq .inv hpow, fftRec, fftRec]

/-- Settles O20: the direction of a transform acts through its output alone. -/
theorem smallTransformsHaveNoDirection : Obligations.SmallTransformsHaveNoDirection := by
  intro s h
  rw [exec, exec, execFftForward, execFftInverse, fftTransform, fftTransform, State.transformOutput_of_small h]

end Sys2Proof.Machine
end

section
/-! Settled: the twiddle ROM, its index and its entries (41_fft.md R146, 40_numerics.md R123). -/

namespace Sys2Proof.Machine

/-! ## The index -/

section
variable {b : Build} {j i : Nat}

/-- A size up to NROM divides it: both are powers of two. -/
theorem Build.nrom_div_mul (h : 2 ^ j ≤ b.nrom) : b.nrom / 2 ^ j * 2 ^ j = b.nrom :=
  Nat.div_mul_cancel (pow_dvd_pow 2 ((Nat.pow_le_pow_iff_right Nat.one_lt_two).1 h))

/-- `i < n/2` puts `i * (NROM/n)` below `NROM/2`. -/
theorem twiddleIndex_lt (hj : 1 ≤ j) (h : 2 ^ j ≤ b.nrom) (hi : i < 2 ^ j / 2) :
    i * (b.nrom / 2 ^ j) < b.nrom / 2 := by
  have hrom := Build.nrom_div_mul h
  have hpos : 0 < b.nrom / 2 ^ j := Nat.div_pos h (by positivity)
  obtain ⟨n, rfl⟩ : ∃ n, j = n + 1 := ⟨j - 1, by omega⟩
  rw [pow_succ, Nat.mul_div_cancel _ Nat.two_pos] at hi
  generalize b.nrom / 2 ^ (n + 1) = ratio at *
  rw [← hrom, pow_succ, ← Nat.mul_assoc, Nat.mul_div_cancel _ Nat.two_pos, Nat.mul_comm]
  exact Nat.mul_lt_mul_of_pos_left hi hpos

end

/-- Settles O18: the entry is listed by the map, which finds its words and reads them. -/
theorem twiddleIndexIsInRom : Obligations.TwiddleIndexIsInRom := by
  intro s j i hlegal hj hfits hi
  have hindex := twiddleIndex_lt (Nat.le_of_succ_le hj) hfits hi
  refine ⟨by rw [Nat.mul_assoc, Build.nrom_div_mul hfits], hindex, rfl, rfl, fun imag high hexists => ⟨?found, ?read⟩⟩
  case found =>
    rw [Nat.add_assoc]
    exact locate_of_mapped (l := .tw _ imag high) hlegal ⟨hindex, hexists⟩
  case read => cases high <;> rfl

/-! ## The entries -/

theorem twiddle_zero (fmt : Format) (l : Nat) : twiddle fmt l 0 = ⟨fone fmt, fzero⟩ := if_pos rfl

theorem twiddle_quarter (fmt : Format) {l k : Nat} (hk : k ≠ 0) (h : 4 * k = 2 ^ l) :
    twiddle fmt l k = ⟨fzero, fneg fmt (fone fmt)⟩ := by
  rw [twiddle, if_neg hk, if_pos h]

theorem twiddle_other (fmt : Format) {l k : Nat} (hk : k ≠ 0) (h : 4 * k ≠ 2 ^ l) :
    twiddle fmt l k = ⟨twiddlePart fmt l k false, twiddlePart fmt l k true⟩ := by
  rw [twiddle, if_neg hk, if_neg h]

/-- Settles O22: the two entries are cases of the definition; 4 divides an NROM of 4 or more. -/
theorem twiddleExactEntries : Obligations.TwiddleExactEntries := by
  refine fun b => ⟨twiddle_zero _ _, fun hrom => twiddle_quarter _ (Nat.div_pos hrom (by decide)).ne' ?quarter⟩
  case quarter =>
    have hdiv := Build.nrom_div_mul (b := b) (j := 2) hrom
    rw [show b.nrom / 4 = b.nrom / 2 ^ 2 from rfl, Nat.mul_comm]
    exact hdiv

/-- The exact value of a part of TW[k] (40_numerics.md R123). -/
noncomputable def exactTwiddle (l k : Nat) : (imag : Bool) → ℝ
  | false => Real.cos (2 * Real.pi * k / 2 ^ l)
  | true => -Real.sin (2 * Real.pi * k / 2 ^ l)

/-- What one precision decides of a part is the correct rounding of its exact value. -/
theorem twiddleAt_roundsTo {fmt : Format} {l k p : Nat} {imag : Bool} {v : F} (h : twiddleAt fmt l k imag p = some v) :
    RoundsTo fmt (exactTwiddle l k imag) v := by
  unfold twiddleAt at h
  split at h
  case h_1 => cases h
  case h_2 c s hbounds =>
    obtain ⟨hcos, hsin⟩ := turnBounds_has _ _ _ c s (reduceTurn_has (p + 16) l k) hbounds
    cases imag with
    | false => exact roundBounds_roundsTo fmt _ c _ v hcos h
    | true => exact roundBounds_roundsTo fmt _ s.neg _ v (Ival.has_neg hsin) h

/-- A decided part of TW[k] is the answer of some precision. -/
theorem twiddlePart_roundsTo {fmt : Format} {l k : Nat} {imag : Bool}
    (h : ∃ p ∈ precisions, (twiddleAt fmt l k imag p).isSome) :
    RoundsTo fmt (exactTwiddle l k imag) (twiddlePart fmt l k imag) := by
  obtain ⟨p, -, hp⟩ := twiddlePart_decided h
  exact twiddleAt_roundsTo hp

/-- Settles O23: away from the exact entries both parts are `twiddlePart`. -/
theorem twiddleIsCorrectlyRounded : Obligations.TwiddleIsCorrectlyRounded := by
  intro b k hpos _ hquarter
  have hrom : (b.nrom : ℝ) = 2 ^ b.log2Nrom := by rw [Build.nrom, Nat.cast_pow, Nat.cast_ofNat]
  rw [twiddleRom, twiddle_other _ hpos.ne' hquarter, hrom]
  dsimp only
  exact ⟨twiddlePart_roundsTo, twiddlePart_roundsTo⟩

end Sys2Proof.Machine
end

section
/-! Settled: the HB unit's commands, their errors and their effects (42_hilbert.md R171 to R178). -/

namespace Sys2Proof.Machine

/-! ## HB.CONSTRUCT -/

/-- Settles O25: the check finds HB_SRATE before HB_NCHAN, and an error is a command error and nothing more. -/
theorem constructErrorsHaveNoEffect : Obligations.ConstructErrorsHaveNoEffect := by
  refine fun s => ⟨fun hrate => ?srate, fun hfinite hpositive hcount => ?nchan⟩
  case srate =>
    exact ⟨_, congrArg Host.Outcome.next (hbConstruct_of_error (constructError_srate _ _ _ hrate)),
      s.cmdError_hb_spec _⟩
  case nchan =>
    exact ⟨_, congrArg Host.Outcome.next (hbConstruct_of_error (constructError_nchan _ _ _ hfinite hpositive hcount)),
      s.cmdError_hb_spec _⟩

/-- An array that lists nothing has every section of a legal build at zero. -/
theorem State.allSectionsZero_of_nil {s : State} (hlegal : s.build.Legal) (h : s.hb.state = []) :
    s.allSectionsZero := by
  intro c i hc hi
  rw [State.section, h]
  exact section_nil _ _ _ _ (hc.trans_le (Build.legal_bounds hlegal).2.1) hi

/-- The words of the sections of `n` channels lie in their window of STATE (20_memory.md R66). -/
theorem Loc.channel_offset_mem {n c i : Nat} (imag high : Bool) (hc : c < n) (hi : i < order) :
    0x010000 ≤ Loc.offset (.channel c i imag high) ∧ Loc.offset (.channel c i imag high) + 4 ≤ 0x010000 + 256 * n := by
  have hword := wordInElement_lt imag high
  have haligned := wordInElement_mod imag high
  simp only [order] at hi
  simp only [Loc.offset]
  omega

/-- HB.CONSTRUCT without an error: each table entry by its formula, every section zero, and the frame. -/
theorem hbConstruct_effect {s : State} (hlegal : s.build.Legal)
    (hcheck : constructError s.build s.hb.operands.srate s.hb.operands.nchan = none) :
    ConstructEffect s.hb.operands.srate s.hb.operands.pgain s.hb.operands.nchan s (hbConstruct s) := by
  rw [hbConstruct_of_no_error hcheck]
  generalize s.hb.operands.srate = sr
  generalize s.hb.operands.pgain = pg
  generalize s.hb.operands.nchan = nc
  generalize ht : s.completeHb _ = t
  have hframe : HbFrame s t := by rw [← ht]; exact ⟨rfl, rfl, rfl, rfl, rfl, rfl, rfl, rfl, rfl, rfl, rfl, rfl⟩
  have hfactor : t.hb.ffactor = ffact (s.hbFp.at 0) sr := by rw [← ht]; rfl
  have hscoeff : t.hb.scoeff = perSection fun i =>
      scaledCoeff ((s.hbFp.at 1).at i) (ffact (s.hbFp.at 0) sr) pg (tableAt s.build.coeff i) := by rw [← ht]; rfl
  have hspole : t.hb.spole = perSection fun i =>
      scaledPole ((s.hbFp.at 2).at i) (ffact (s.hbFp.at 0) sr) (tableAt s.build.pole i) := by rw [← ht]; rfl
  have hsdirect : t.hb.sdirect = scaledDirect (s.hbFp.at 3) s.build.directGain pg (ffact (s.hbFp.at 0) sr) := by
    rw [← ht]; rfl
  have hzero : t.allSectionsZero :=
    State.allSectionsZero_of_nil (hframe.platform.build ▸ hlegal) (by rw [← ht]; rfl)
  refine ⟨hfactor, fun i hi => ?scoeff, fun i hi => ?spole, ?sdirect, hzero, by rw [← ht]; rfl, by rw [← ht]; rfl,
    by rw [← ht]; rfl, by rw [← ht]; rfl, by rw [← ht]; rfl, hframe, fun x h1 h2 h3 h4 h5 => ?bytes⟩
  case scoeff => rw [State.entry, State.table, hscoeff, tableAt_perSection _ i hi, hfactor]; rfl
  case spole => rw [State.entry, State.table, hspole, tableAt_perSection _ i hi, hfactor]; rfl
  case sdirect => rw [hsdirect, hfactor]; rfl
  case bytes =>
    refine hframe.byteAt_eq h1 (.inr h2) (.inl ⟨by rw [← ht]; rfl, by rw [← ht]; rfl⟩) (.inr h3) (.inr h4)
      fun c i imag high hc hi hle hlt => ?_
    obtain ⟨hbelow, habove⟩ := Loc.channel_offset_mem imag high hc hi
    exact absurd ⟨by omega, by omega⟩ h5

/-- Settles O24: a good rate and channel count pass the check. -/
theorem constructBuildsTables : Obligations.ConstructBuildsTables :=
  fun _ hlegal hfinite hpositive hzero hcount => ⟨_, rfl, hbConstruct_effect hlegal
    (constructError_none _ _ _ hfinite hpositive hzero hcount)⟩

/-! ## HB.RESET -/

/-- Settles O27: the command empties the list of STATE and completes. -/
theorem resetZeroesEverySection : Obligations.ResetZeroesEverySection := by
  intro s hlegal
  have hframe := hbReset_hbFrame s
  refine ⟨_, rfl, State.allSectionsZero_of_nil hlegal rfl, rfl, rfl, rfl, rfl, ⟨rfl, rfl, rfl, rfl, rfl⟩, hframe,
    fun x hstatus hwindow => ?bytes⟩
  case bytes =>
    refine hframe.byteAt_eq hstatus (.inl rfl) (.inl ⟨rfl, rfl⟩) (.inl ⟨rfl, rfl⟩) (.inl ⟨rfl, rfl⟩)
      fun c i imag high hc hi hle hlt => ?_
    obtain ⟨hbelow, habove⟩ := Loc.channel_offset_mem imag high hc hi
    exact absurd ⟨by omega, by omega⟩ hwindow

/-! ## The PROCESS commands -/

/-- Settles O30: the check finds HB_NOT_CONSTRUCTED before HB_CHANNEL, and an error is a command error and nothing
more. -/
theorem processErrorsHaveNoEffect : Obligations.ProcessErrorsHaveNoEffect := by
  have raises : ∀ (s : State) (ch : Nat) (i : Instr) (e : ECode), i = .hbProcessR ch ∨ i = .hbProcessC ch →
      processError s.hb.channels ch = some e → ∃ t, exec i s = .next t ∧ HbCommandError e s t := by
    rintro s ch i e (rfl | rfl) hcheck
    · exact ⟨_, congrArg Host.Outcome.next (hbProcess_of_error s.realSample hcheck), s.cmdError_hb_spec e⟩
    · exact ⟨_, congrArg Host.Outcome.next (hbProcess_of_error s.complexSample hcheck), s.cmdError_hb_spec e⟩
  exact fun s ch i hi => ⟨fun hzero => raises s ch i _ hi (hzero ▸ processError_notConstructed ch),
    fun hconstructed habsent => raises s ch i _ hi (processError_channel _ _ hconstructed habsent)⟩

/-- The output of a PROCESS command is the last of its partial sums (42_hilbert.md R176). -/
theorem hbProcess_output {s : State} (x : Sample) {ch : Nat} (hch : ch < s.hb.channels.toNat) :
    (⟨(hbProcess x ch s).hb.yre, (hbProcess x ch s).hb.yim⟩ : Cplx) =
      partialSum (s.hbFp.at 2) (directTerm (s.hbFp.at 1) x s.hb.sdirect) (s.sections x ch) order := by
  have houtput : s.output x ch = _ := sumSections_eq (s.hbFp.at 2) (directTerm (s.hbFp.at 1) x s.hb.sdirect)
    (s.sections x ch)
  rw [State.sections_length] at houtput
  rw [hbProcess_of_no_error x (processError_none _ _ hch), ← houtput]
  generalize s.output x ch = y
  rfl

/-- The results of a PROCESS command without an error. -/
theorem hbProcess_result {s : State} (x : Sample) {ch : Nat} (hch : ch < s.hb.channels.toNat) :
    ProcessResult x ch s (hbProcess x ch s) := by
  refine ⟨fun i hi => hbProcess_section x hch hi, _, ?start, fun i hi => ?next, hbProcess_output x hch⟩
  case start => exact directTerm_eq _ _ _
  case next =>
    rw [partialSum, hbProcess_section x hch hi, tableAt, List.getD_eq_getElem?_getD,
      State.sections_getElem? s x ch i hi, Option.getD_some]

/-- What a PROCESS command without an error stores to STATE, it stores to its own channel. -/
theorem hbProcess_frame {s : State} (x : Sample) {ch : Nat} (hch : ch < s.hb.channels.toNat) :
    ProcessFrame ch s (hbProcess x ch s) := by
  have hconstruction := hbProcess_construction x ch s
  have hframe := hbProcess_hbFrame x ch s
  have hlength := s.sections_length x ch
  rw [hbProcess_of_no_error x (processError_none _ _ hch)] at hconstruction hframe ⊢
  generalize s.output x ch = y at hconstruction hframe ⊢
  generalize s.sections x ch = zs at hconstruction hframe hlength ⊢
  generalize ht : s.completeHb _ = t at hconstruction hframe ⊢
  have hstate : t.hb.state = Memory.setCplxs s.build.fmt s.hb.state (channelBase ch) zs := by rw [← ht]; rfl
  refine ⟨by rw [← ht]; rfl, by rw [← ht]; rfl, hconstruction, hframe, fun c i hc hi => ?others,
    fun x hstatus hout hchannel => ?bytes⟩
  case others =>
    simp only [order] at hi hlength
    rw [State.section, hframe.platform.build, hframe.platform.epoch, hstate,
      Memory.cplx_setCplxs_other _ _ _ _ _ _ (by simp only [channelBase]; omega), State.section]
  case bytes =>
    refine hframe.byteAt_eq hstatus (.inl hconstruction.channels) (.inr hout)
      (.inl ⟨hconstruction.ffactor, hconstruction.sdirect⟩) (.inl ⟨hconstruction.scoeff, hconstruction.spole⟩)
      fun c i imag high hc hi hle hlt => ?_
    have hword := wordInElement_lt imag high
    have haligned := wordInElement_mod imag high
    simp only [inSpan, channelBase, order] at hchannel hi hlength
    rw [hstate, Memory.word_setCplxs_other _ _ _ _ _ _ (by simp only [Loc.offset, channelBase] at *; omega)]

/-- Settles O28: the sample is HB_XRE alone. -/
theorem processRealSample : Obligations.ProcessRealSample :=
  fun s _ hch => ⟨_, rfl, hbProcess_result s.realSample hch, hbProcess_frame s.realSample hch⟩

/-- Settles O29: the sample is HB_XRE and HB_XIM. -/
theorem processComplexSample : Obligations.ProcessComplexSample :=
  fun s _ hch => ⟨_, rfl, hbProcess_result s.complexSample hch, hbProcess_frame s.complexSample hch⟩

/-! ## HB_XIM and a real sample -/

/-- The results of a PROCESS command are of the registers it may write, the construction, and what it computes from the
sample: no other register acts on them. -/
theorem hbProcess_sameResults {s s' : State} {x : Sample} {ch : Nat} (hbuild : s'.build = s.build)
    (hstate : s'.hb.state = s.hb.state) (hyre : s'.hb.yre = s.hb.yre) (hyim : s'.hb.yim = s.hb.yim)
    (hconstruction : SameConstruction s s') (hsections : s'.sections x ch = s.sections x ch)
    (houtput : s'.output x ch = s.output x ch) : SameHbResults (hbProcess x ch s) (hbProcess x ch s') := by
  have hafter := ((hbProcess_construction x ch s).symm.trans hconstruction).trans (hbProcess_construction x ch s')
  have hcheck : processError s'.hb.channels ch = processError s.hb.channels ch := by rw [hconstruction.channels]
  cases h : processError s.hb.channels ch with
  | some e =>
    rw [hbProcess_of_error x h, hbProcess_of_error x (hcheck.trans h)] at hafter ⊢
    exact ⟨hstate, hyre, hyim, rfl, hafter⟩
  | none =>
    rw [hbProcess_of_no_error x h, hbProcess_of_no_error x (hcheck.trans h), hbuild, hstate, hsections, houtput]
      at hafter ⊢
    exact ⟨rfl, rfl, rfl, rfl, hafter⟩

/-- Settles O34: HB.PROCESS.R takes its sample from HB_XRE, and with one sample the results do not depend on HB_XIM. -/
theorem realSampleIgnoresXim : Obligations.RealSampleIgnoresXim := by
  intro s v w ch
  have hsame : SameHbResults (hbProcess (.real s.hb.xre) ch (s.accept w .hb))
      (hbProcess (.real s.hb.xre) ch (State.accept { s with hb := { s.hb with xim := v } } w .hb)) :=
    hbProcess_sameResults rfl rfl rfl rfl ⟨rfl, rfl, rfl, rfl, rfl⟩ rfl rfl
  exact ⟨_, _, rfl, rfl, hsame.state, hsame.yre, hsame.yim, hsame.ecode⟩

end Sys2Proof.Machine
end

section
/-! Settled: the complex exponential (40_numerics.md R124). -/

namespace Sys2Proof.Machine

/-! ## The exact value, from the magnitude and the sign -/

section
variable (fmt : Format) (a : F)

/-- The exact magnitude of a finite value. -/
noncomputable def realMag : ℝ := (magUnits fmt a : ℝ) / 2 ^ fmt.unit

theorem realValue_eq_realMag : realValue fmt a = if signBit fmt a then -realMag fmt a else realMag fmt a := by
  rw [realValue, realMag]
  split <;> ring

theorem cos_realValue : Real.cos (realValue fmt a) = Real.cos (realMag fmt a) := by
  rw [realValue_eq_realMag]
  split
  · exact Real.cos_neg _
  · rfl

theorem sin_realValue :
    Real.sin (realValue fmt a) = if signBit fmt a then -Real.sin (realMag fmt a) else Real.sin (realMag fmt a) := by
  rw [realValue_eq_realMag]
  split
  · exact Real.sin_neg _
  · rfl

end

section
variable {fmt : Format} {a b v : F} {p q : Nat}

/-- What the enclosures decide of `e^a · t`, for `t` between its bounds, is the correct rounding. -/
theorem roundScaled_expBounds_roundsTo {t : Ival} {y : ℝ} (ht : t.Has q y)
    (h : roundScaled fmt q (signBit fmt a) (expBounds q fmt.unit (magUnits fmt a)) t = some v) :
    RoundsTo fmt (Real.exp (realValue fmt a) * y) v := by
  obtain ⟨hlo, hhi⟩ := expBounds_bounds q fmt.unit (magUnits fmt a)
  have hpos : 0 < (expBounds q fmt.unit (magUnits fmt a)).1 := (Nat.two_pow_pos q).trans_le (expBounds_ge _ _ _)
  rw [realValue_eq_realMag]
  exact roundScaled_roundsTo fmt q _ _ t _ y v hlo hhi hpos ht h

/-- What one precision decides of RN(e^a). -/
theorem rexpAt_roundsTo (h : rexpAt fmt a p = some v) : RoundsTo fmt (Real.exp (realValue fmt a)) v := by
  have hone : (⟨2 ^ p, 2 ^ p⟩ : Ival).Has p 1 := by constructor <;> simp
  rw [← mul_one (Real.exp _)]
  exact roundScaled_expBounds_roundsTo hone h

/-- The exact factor of `e^a` in a part of CEXP(a, b): `cos b` or `sin b`. -/
noncomputable def exactTurn (fmt : Format) (b : F) : (imag : Bool) → ℝ
  | false => Real.cos (realValue fmt b)
  | true => Real.sin (realValue fmt b)

/-- What one precision decides of a part of CEXP(a, b). -/
theorem cexpAt_roundsTo {imag : Bool} (h : cexpAt fmt a b imag p = some v) :
    RoundsTo fmt (Real.exp (realValue fmt a) * exactTurn fmt b imag) v := by
  unfold cexpAt at h
  generalize workBits fmt (magUnits fmt b) p = q at h
  dsimp only at h
  split at h
  case h_1 => cases h
  case h_2 c s hbounds =>
    obtain ⟨hcos, hsin⟩ := turnBounds_has _ _ _ c s (reduceAngle_has q fmt.unit (magUnits fmt b)) hbounds
    refine roundScaled_expBounds_roundsTo ?_ h
    cases imag with
    | false => rw [exactTurn, cos_realValue]; exact hcos
    | true =>
      rw [exactTurn, sin_realValue]
      cases signBit fmt b with
      | false => exact hsin
      | true => exact Ival.has_neg hsin

theorem cexp_of_isZero (ha : isFinite fmt a = true) (hb : isFinite fmt b = true) (hzero : isZero fmt b = true) :
    cexp fmt a b = ⟨rexp fmt a, b⟩ := by
  rw [cexp, ha, hb, Bool.and_self, if_pos rfl, if_pos ((isZero_iff _ _).1 hzero)]

theorem cexp_of_not_isZero (ha : isFinite fmt a = true) (hb : isFinite fmt b = true) (hzero : isZero fmt b = false) :
    cexp fmt a b = ⟨cexpPart fmt a b false, cexpPart fmt a b true⟩ := by
  rw [cexp, ha, hb, Bool.and_self, if_pos rfl, if_neg (of_decide_eq_false hzero)]

theorem cexpPart_roundsTo {imag : Bool} (h : ∃ p ∈ precisions, (cexpAt fmt a b imag p).isSome) :
    RoundsTo fmt (Real.exp (realValue fmt a) * exactTurn fmt b imag) (cexpPart fmt a b imag) := by
  obtain ⟨p, -, hp⟩ := cexpPart_decided h
  exact cexpAt_roundsTo hp

end

/-- Settles O36: a decided part is the answer of some precision, whose bounds enclose the exact value. -/
theorem cexpIsCorrectlyRounded : Obligations.CexpIsCorrectlyRounded := by
  refine fun fmt a b ha hb => ⟨fun h => ?exponential, cexp_of_isZero ha hb, fun hzero => ?parts⟩
  case exponential =>
    obtain ⟨p, -, hp⟩ := rexp_decided h
    exact rexpAt_roundsTo hp
  case parts =>
    rw [cexp_of_not_isZero ha hb hzero]
    dsimp only
    exact ⟨cexpPart_roundsTo, cexpPart_roundsTo⟩

end Sys2Proof.Machine
end

section
/-! Settled: the address map (20_memory.md R66) and the two PARAMS registers (10_state.md R23, R31). -/

namespace Sys2Proof.Machine

/-- Settles O37: the map lists the word it finds, and finds the word it lists. -/
theorem addressMapIsExact : Obligations.AddressMapIsExact := by
  intro b x l hlegal
  constructor
  · intro hfound
    obtain ⟨hmapped, hoffset, -⟩ := locate_some hfound
    exact ⟨hmapped, hoffset⟩
  · rintro ⟨hmapped, rfl⟩
    exact locate_of_mapped hlegal hmapped

/-! ## The fields of a word written as a number -/

/-- A field of a word, by the number that the word holds. -/
theorem toNat_extractLsb'_ofNat {n : Nat} (h : n < 2 ^ 32) (start len : Nat) :
    ((BitVec.ofNat 32 n).extractLsb' start len).toNat = n / 2 ^ start % 2 ^ len := by
  rw [BitVec.extractLsb'_toNat, BitVec.toNat_ofNat, Nat.mod_eq_of_lt h, Nat.shiftRight_eq_div_pow]

theorem extractLsb'_ofNat_eq_zero {n : Nat} (h : n < 2 ^ 32) {start len : Nat} (hzero : n / 2 ^ start % 2 ^ len = 0) :
    (BitVec.ofNat 32 n).extractLsb' start len = 0 :=
  BitVec.eq_of_toNat_eq ((toNat_extractLsb'_ofNat h start len).trans hzero)

theorem getLsbD_ofNat_eq_decide {n i : Nat} (hi : i < 32) :
    (BitVec.ofNat 32 n).getLsbD i = decide (n / 2 ^ i % 2 = 1) := by
  rw [BitVec.getLsbD_ofNat, decide_eq_true hi, Bool.true_and, Nat.testBit_eq_decide_div_mod_eq]

/-- The format as it stands in the PARAMS registers: 1 for binary64 (10_state.md R23, R31). -/
def formatBit : Format → Nat
  | .binary32 => 0
  | .binary64 => 1

theorem decide_formatBit (fmt : Format) : decide (formatBit fmt = 1) = decide (fmt = .binary64) := by cases fmt <;> rfl

theorem formatBit_le (fmt : Format) : formatBit fmt ≤ 1 := by cases fmt <;> decide

theorem Build.fftParams_eq (b : Build) : b.fftParams = BitVec.ofNat 32 (b.log2Nrom + 2 ^ 8 * formatBit b.fmt) := by
  rw [Build.fftParams]
  cases b.fmt <;> rfl

theorem Build.hbParams_eq (b : Build) :
    b.hbParams = BitVec.ofNat 32 (b.maxChannels + 12 * 2 ^ 16 + 2 ^ 24 * formatBit b.fmt) := by
  rw [Build.hbParams]
  cases b.fmt <;> rfl

theorem Build.log2Nrom_le {b : Build} (h : b.Legal) : b.log2Nrom ≤ 16 :=
  (Nat.pow_le_pow_iff_right Nat.one_lt_two).1 (Build.legal_bounds h).1

/-- Settles O44: the bounds of a legal build keep each field within its bits. -/
theorem paramsShowTheBuild : Obligations.ParamsShowTheBuild := by
  intro s hlegal
  have hlog := Build.log2Nrom_le hlegal
  have hchannels := (Build.legal_bounds hlegal).2.1
  have hformat := formatBit_le s.build.fmt
  rw [State.readLoc, State.readLoc, Build.fftParams_eq, Build.hbParams_eq, ← decide_formatBit]
  generalize formatBit s.build.fmt = f at hformat ⊢
  have hfft : s.build.log2Nrom + 2 ^ 8 * f < 2 ^ 32 := by omega
  have hhb : s.build.maxChannels + 12 * 2 ^ 16 + 2 ^ 24 * f < 2 ^ 32 := by omega
  rw [toNat_extractLsb'_ofNat hfft, toNat_extractLsb'_ofNat hhb, toNat_extractLsb'_ofNat hhb,
    getLsbD_ofNat_eq_decide (by decide), getLsbD_ofNat_eq_decide (by decide), decide_eq_decide, decide_eq_decide]
  exact ⟨by omega, extractLsb'_ofNat_eq_zero hfft (by omega), by omega, extractLsb'_ofNat_eq_zero hfft (by omega),
    by omega, by omega, by omega, extractLsb'_ofNat_eq_zero hhb (by omega)⟩

end Sys2Proof.Machine
end

section
/-! Settled: how the turns of the units and of the host interleave (20_memory.md R73, R74, 70_reset_and_hazards.md R250,
R252, R260). -/

namespace Sys2Proof.Machine

/-! ## The turns of the two units -/

/-- Settles O46: each unit's turn replaces that unit alone, by one that does not depend on the other. -/
theorem unitCompletionsCommute : Obligations.UnitCompletionsCommute := by
  rintro ⟨b, f, g, p, sc, sch, e⟩
  obtain ⟨f', -, -, -, -, hfft⟩ := unitMove_fft_spec b f e
  obtain ⟨g', -, -, -, hhb⟩ := unitMove_hb_spec b g e
  exact ⟨_, _, _, hfft g p sc sch, hhb f' p sc sch, hhb f p sc sch, hfft g' p sc sch⟩

section
variable {s t : State}

/-- A unit's turn touches nothing of the platform. -/
theorem State.unitMove_platform {u : UnitId} (h : s.unitMove u = .next t) : SamePlatform s t := by
  cases u with
  | fft => exact (unitsAreIndependent.1 s t h).2
  | hb => exact (unitsAreIndependent.2.1 s t h).2

/-- A unit is idle after its turn. -/
theorem State.unitMove_idle {u : UnitId} (h : s.unitMove u = .next t) : t.busy u = false := by
  obtain ⟨b, f, g, p, sc, sch, e⟩ := s
  cases u with
  | fft =>
    obtain ⟨f', -, -, -, hjob, hmove⟩ := unitMove_fft_spec b f e
    rw [← Host.Outcome.next.inj ((hmove g p sc sch).symm.trans h), State.busy, FftUnit.busy, hjob, Option.isSome_none]
  | hb =>
    obtain ⟨g', -, -, hjob, hmove⟩ := unitMove_hb_spec b g e
    rw [← Host.Outcome.next.inj ((hmove f p sc sch).symm.trans h), State.busy, HbUnit.busy, hjob, Option.isSome_none]

/-! ## What the host's turn leaves -/

@[simp] theorem State.hostMove_build : s.hostMove.build = s.build := by
  rcases s.hostMove_cases with h | ⟨_, _, -, -, -, h⟩ | ⟨_, _, -, h⟩ <;> simp [h]
@[simp] theorem State.hostMove_schedule : s.hostMove.schedule = s.schedule := by
  rcases s.hostMove_cases with h | ⟨_, _, -, -, -, h⟩ | ⟨_, _, -, h⟩ <;> simp [h]
@[simp] theorem State.hostMove_epoch : s.hostMove.epoch = s.epoch := by
  rcases s.hostMove_cases with h | ⟨_, _, -, -, -, h⟩ | ⟨_, _, -, h⟩ <;> simp [h]

/-- The host performs no access that a busy FFT unit holds. -/
theorem State.hostMove_fft_of_busy (hbusy : s.busy .fft = true) : s.hostMove.fft = s.fft := by
  rcases s.hostMove_cases with h | ⟨_, _, -, -, -, h⟩ | ⟨a, sc, hfree, h⟩
  · rw [h]
  · rw [h]
  · rw [h]
    exact State.perform_fft_of_busy (s := { s with script := sc, port := { s.port with pending := none } }) hbusy hfree

/-- The host performs no access that a busy HB unit holds. -/
theorem State.hostMove_hb_of_busy (hbusy : s.busy .hb = true) : s.hostMove.hb = s.hb := by
  rcases s.hostMove_cases with h | ⟨_, _, -, -, -, h⟩ | ⟨a, sc, hfree, h⟩
  · rw [h]
  · rw [h]
  · rw [h]
    exact State.perform_hb_of_busy (s := { s with script := sc, port := { s.port with pending := none } }) hbusy hfree

/-! ## What a step leaves -/

/-- A step uses up one turn of the schedule. -/
theorem step_schedule (h : step s = .next t) : t.schedule = s.schedule.tail := by
  rcases step_cases h with ⟨-, rfl⟩ | ⟨-, hmove⟩ | ⟨-, hmove⟩ | ⟨-, rfl⟩
  · rw [State.hostMove_schedule, State.useTurn_schedule]
  · exact (State.unitMove_platform hmove).schedule
  · exact (State.unitMove_platform hmove).schedule
  · rfl

/-- A step other than a power-on reset leaves the build and the count of resets. -/
theorem step_build_epoch (h : step s = .next t) (hreset : s.nextAgent ≠ .powerOn) :
    t.build = s.build ∧ t.epoch = s.epoch := by
  rcases step_cases h with ⟨-, rfl⟩ | ⟨-, hmove⟩ | ⟨-, hmove⟩ | ⟨hagent, -⟩
  · exact ⟨State.hostMove_build, State.hostMove_epoch⟩
  · exact ⟨(State.unitMove_platform hmove).build, (State.unitMove_platform hmove).epoch⟩
  · exact ⟨(State.unitMove_platform hmove).build, (State.unitMove_platform hmove).epoch⟩
  · exact absurd hagent hreset

end

/-- Settles O47: the host writes to no busy unit, and the other unit's turn touches its own alone. -/
theorem busyUnitIsFrozen : Obligations.BusyUnitIsFrozen := by
  intro s t h hreset
  rcases step_cases h with ⟨-, rfl⟩ | ⟨hagent, hmove⟩ | ⟨hagent, hmove⟩ | ⟨hagent, -⟩
  · exact ⟨fun hbusy _ => State.hostMove_fft_of_busy (s := s.useTurn) hbusy,
      fun hbusy _ => State.hostMove_hb_of_busy (s := s.useTurn) hbusy⟩
  · exact ⟨fun _ hother => absurd hagent hother, fun _ _ => (unitsAreIndependent.1 _ t hmove).1⟩
  · exact ⟨fun _ _ => (unitsAreIndependent.2.1 _ t hmove).1, fun _ hother => absurd hagent hother⟩
  · exact absurd hagent hreset

section
variable {s t : State}

/-! ## A busy unit until its turn -/

/-- The registers, buffers, tables and command of a unit are as they were. -/
def SameUnit (u : UnitId) (s t : State) : Prop :=
  match u with
  | .fft => t.fft = s.fft
  | .hb => t.hb = s.hb

theorem SameUnit.refl (u : UnitId) (s : State) : SameUnit u s s := by cases u <;> rfl

theorem SameUnit.trans {u : UnitId} {r s t : State} (h : SameUnit u r s) (k : SameUnit u s t) : SameUnit u r t := by
  cases u with
  | fft => exact Eq.trans k h
  | hb => exact Eq.trans k h

theorem SameUnit.busy_eq {u : UnitId} (h : SameUnit u s t) : t.busy u = s.busy u := by
  cases u with
  | fft => exact congrArg FftUnit.busy h
  | hb => exact congrArg HbUnit.busy h

theorem SameUnit.running_eq {u : UnitId} (h : SameUnit u s t) : t.running u = s.running u := by
  cases u with
  | fft => exact congrArg (fun f : FftUnit => f.job.map FftJob.word) h
  | hb => exact congrArg (fun g : HbUnit => g.job.map HbJob.word) h

/-- A busy unit is as it was after any step that is neither its own nor a power-on reset. -/
theorem step_sameUnit {u : UnitId} (h : step s = .next t) (hreset : s.nextAgent ≠ .powerOn) (hbusy : s.busy u = true)
    (hother : s.nextAgent ≠ unitAgent u) : SameUnit u s t := by
  cases u with
  | fft => exact (busyUnitIsFrozen s t h hreset).1 hbusy hother
  | hb => exact (busyUnitIsFrozen s t h hreset).2 hbusy hother

/-- A busy unit is as it was after any number of such steps, and so are the build and the count of resets. -/
theorem runsWithout_sameUnit {u : UnitId} {k : Nat} (h : runsWithout [unitAgent u, .powerOn] k s t)
    (hbusy : s.busy u = true) : SameUnit u s t ∧ t.build = s.build ∧ t.epoch = s.epoch := by
  induction k generalizing s with
  | zero => obtain rfl := h; exact ⟨.refl u t, rfl, rfl⟩
  | succ k ih =>
    obtain ⟨hagents, m, hstep, hrest⟩ := h
    simp only [List.mem_cons, List.not_mem_nil, or_false, not_or] at hagents
    obtain ⟨hother, hreset⟩ := hagents
    have hsame := step_sameUnit hstep hreset hbusy hother
    obtain ⟨hbuild, hepoch⟩ := step_build_epoch hstep hreset
    obtain ⟨hsame', hbuild', hepoch'⟩ := ih hrest (hsame.busy_eq.trans hbusy)
    exact ⟨hsame.trans hsame', hbuild'.trans hbuild, hepoch'.trans hepoch⟩

/-- What a unit's turn makes of it depends on that unit, the build and the count of resets alone. -/
theorem unitMove_sameUnit {u : UnitId} {s' t' : State} (hunit : SameUnit u s s') (hbuild : s'.build = s.build)
    (hepoch : s'.epoch = s.epoch) (h : s.unitMove u = .next t) (h' : s'.unitMove u = .next t') : SameUnit u t t' := by
  obtain ⟨-, -, hfft, hhb⟩ := unitsAreIndependent
  cases u with
  | fft => exact hfft s s' t t' hunit hbuild hepoch h h'
  | hb => exact hhb s s' t t' hunit hbuild hepoch h h'

/-- The completion of a command ends in the unit that completing at its acceptance gives. -/
theorem completion_sameUnit {u : UnitId} {m : State} {w : Word} {k : Nat}
    (hruns : runsWithout [unitAgent u, .powerOn] k (s.accept w u) m) (hagent : m.nextAgent = unitAgent u)
    (hstep : step m = .next t) : ∃ t', (s.accept w u).unitMove u = .next t' ∧ SameUnit u t' t := by
  obtain ⟨hunit, hbuild, hepoch⟩ := runsWithout_sameUnit hruns (s.accept_busy w u)
  obtain ⟨t', ht'⟩ := (s.accept w u).unitMove_next u
  rw [step_of_unitAgent hagent] at hstep
  have hturn : SameUnit u (s.accept w u) m.useTurn := hunit.trans (by cases u <;> rfl)
  exact ⟨t', ht', unitMove_sameUnit hturn hbuild hepoch ht' hstep⟩

end

/-- Settles O48: until its turn the accepted command's unit, the build and the count of resets stay, and its turn
depends on nothing else. -/
theorem commandRunsAsAtItsAcceptance : Obligations.CommandRunsAsAtItsAcceptance :=
  ⟨fun _ _ _ _ _ => completion_sameUnit (u := .fft), fun _ _ _ _ _ => completion_sameUnit (u := .hb)⟩

section
variable {s t : State}

/-! ## Within a bound of steps -/

/-- Within `n` steps there is a state with the property. -/
def ReachesWithin (n : Nat) (s : State) (P : State → Prop) : Prop := ∃ k m, k ≤ n ∧ runs k s m ∧ P m

theorem ReachesWithin.now {n : Nat} {P : State → Prop} (h : P s) : ReachesWithin n s P :=
  ⟨0, s, Nat.zero_le n, rfl, h⟩

theorem ReachesWithin.step {n : Nat} {P : State → Prop} (hstep : step s = .next t) (h : ReachesWithin n t P) :
    ReachesWithin (n + 1) s P := by
  obtain ⟨k, m, hk, hruns, hm⟩ := h
  exact ⟨k + 1, m, Nat.succ_le_succ hk, ⟨t, hstep, hruns⟩, hm⟩

/-- Who moves once the schedule is used up (assumption log 3). -/
theorem State.nextAgent_of_empty (h : s.schedule = []) :
    s.nextAgent = if s.busy .fft then .fft else if s.busy .hb then .hb else .host := by
  rw [State.nextAgent, h]
  rfl

theorem State.nextAgent_of_cons {a : Agent} {rest : List Agent} (h : s.schedule = a :: rest) : s.nextAgent = a := by
  rw [State.nextAgent, h]

/-- While no reset is scheduled the platform does not move. -/
theorem State.nextAgent_ne_powerOn (h : Agent.powerOn ∉ s.schedule) : s.nextAgent ≠ .powerOn := by
  cases hsched : s.schedule with
  | nil =>
    rw [State.nextAgent_of_empty hsched]
    split
    · nofun
    · split <;> nofun
  | cons a rest =>
    rw [State.nextAgent_of_cons hsched]
    rintro rfl
    exact h (hsched ▸ List.mem_cons_self)

/-! ## The turn of a busy unit comes -/

/-- Once the schedule is used up, a busy unit waits for the other one at most. -/
theorem reachesWithin_turn_of_empty {u : UnitId} (hsched : s.schedule = []) (hbusy : s.busy u = true) :
    ReachesWithin 1 s fun m => m.nextAgent = unitAgent u ∧ SameUnit u s m := by
  have hagent := State.nextAgent_of_empty hsched
  cases hfft : s.busy .fft with
  | false =>
    cases u with
    | fft => simp [hfft] at hbusy
    | hb => rw [hfft, hbusy] at hagent; exact .now ⟨hagent, .refl _ _⟩
  | true =>
    rw [hfft, if_pos rfl] at hagent
    cases u with
    | fft => exact .now ⟨hagent, .refl _ _⟩
    | hb =>
      obtain ⟨t, hstep⟩ := noStepStops s
      have hsame : SameUnit .hb s t := step_sameUnit hstep (by rw [hagent]; nofun) hbusy (by rw [hagent]; nofun)
      have hidle : t.busy .fft = false := by
        rw [step_of_unitAgent (u := .fft) hagent] at hstep
        exact State.unitMove_idle hstep
      have hagent' := State.nextAgent_of_empty (s := t) (by rw [step_schedule hstep, hsched, List.tail_nil])
      rw [hidle, hsame.busy_eq, hbusy] at hagent'
      exact .step hstep (.now ⟨hagent', hsame⟩)

/-- The turn of a busy unit comes within the schedule and one more step, and finds the unit as it was. -/
theorem reachesWithin_turn {u : UnitId} (hreset : Agent.powerOn ∉ s.schedule) (hbusy : s.busy u = true) :
    ReachesWithin (s.schedule.length + 1) s fun m => m.nextAgent = unitAgent u ∧ SameUnit u s m := by
  induction hsched : s.schedule generalizing s with
  | nil => exact reachesWithin_turn_of_empty hsched hbusy
  | cons a rest ih =>
    by_cases hturn : s.nextAgent = unitAgent u
    · exact .now ⟨hturn, .refl _ _⟩
    · obtain ⟨t, hstep⟩ := noStepStops s
      have hsame := step_sameUnit hstep (State.nextAgent_ne_powerOn hreset) hbusy hturn
      have hrest : t.schedule = rest := by rw [step_schedule hstep, hsched, List.tail_cons]
      have hreset' : Agent.powerOn ∉ t.schedule := fun h => hreset (hsched ▸ List.mem_cons_of_mem _ (hrest ▸ h))
      obtain ⟨k, m, hk, hruns, hagent, hkept⟩ := ih hreset' (hsame.busy_eq.trans hbusy) hrest
      exact .step hstep ⟨k, m, hk, hruns, hagent, hsame.trans hkept⟩

theorem State.busy_of_running {u : UnitId} {w : Word} (h : s.running u = some w) : s.busy u = true := by
  cases u with
  | fft =>
    obtain ⟨j, hj, -⟩ := Option.map_eq_some_iff.1 h
    rw [State.busy, FftUnit.busy, hj, Option.isSome_some]
  | hb =>
    obtain ⟨j, hj, -⟩ := Option.map_eq_some_iff.1 h
    rw [State.busy, HbUnit.busy, hj, Option.isSome_some]

/-- A unit's turn executes its word and leaves it idle. -/
theorem step_of_running {u : UnitId} {w : Word} (hagent : s.nextAgent = unitAgent u) (hrun : s.running u = some w) :
    ∃ t, step s = .next t ∧ s.useTurn.executeWord u w = .next t ∧ t.busy u = false := by
  obtain ⟨t, ht⟩ := s.useTurn.unitMove_next u
  refine ⟨t, (step_of_unitAgent hagent).trans ht, ?_, State.unitMove_idle ht⟩
  rw [← State.unitMove_of_running (s.useTurn_running u ▸ hrun), ht]

/-! ## An outstanding access is performed -/

/-- The host's turn at which an outstanding access is performed. -/
def State.Released (a : Access) (m : State) : Prop :=
  m.nextAgent = .host ∧ m.port.pending = some a ∧ m.holds a = false

/-- No idle unit holds an access. -/
theorem State.holds_of_idle (a : Access) (hfft : s.busy .fft = false) (hhb : s.busy .hb = false) :
    s.holds a = false := by
  cases htarget : target s.build a with
  | none => exact State.holds_of_busError htarget
  | some l =>
    rw [State.holds_eq htarget]
    cases l.unit with
    | fft => rw [hfft, Bool.false_and]
    | hb => rw [hhb, Bool.false_and]

/-- An outstanding access stays until the host's turn at which it is not held. -/
theorem step_pending {a : Access} (hreset : s.nextAgent ≠ .powerOn) (hpending : s.port.pending = some a)
    (hwait : ¬ State.Released a s) (hstep : step s = .next t) : t.port.pending = some a := by
  rcases step_cases hstep with ⟨hagent, rfl⟩ | ⟨-, hmove⟩ | ⟨-, hmove⟩ | ⟨hagent, -⟩
  · have hheld : s.useTurn.holds a = true := by
      by_contra hfree
      exact hwait ⟨hagent, hpending, Bool.eq_false_iff.2 hfree⟩
    rw [State.hostMove_of_held (s := s.useTurn) hpending hheld]
    exact hpending
  · rw [(State.unitMove_platform hmove).port]; exact hpending
  · rw [(State.unitMove_platform hmove).port]; exact hpending
  · exact absurd hagent hreset

/-- Once the schedule is used up and both units are idle, the host moves and nothing holds its access. -/
theorem State.released_of_idle {a : Access} (hsched : s.schedule = []) (hpending : s.port.pending = some a)
    (hfft : s.busy .fft = false) (hhb : s.busy .hb = false) : State.Released a s := by
  have hagent := State.nextAgent_of_empty hsched
  rw [hfft, hhb] at hagent
  exact ⟨hagent, hpending, State.holds_of_idle a hfft hhb⟩

/-- With the schedule used up, the turn of a unit that moves next leaves it idle and the access waiting. -/
theorem step_unit_of_empty {a : Access} {u : UnitId} (hsched : s.schedule = []) (hpending : s.port.pending = some a)
    (hagent : s.nextAgent = unitAgent u) :
    ∃ t, step s = .next t ∧ t.schedule = [] ∧ t.port.pending = some a ∧ t.busy u = false ∧
      ∀ v, v ≠ u → t.busy v = s.busy v := by
  obtain ⟨t, hstep⟩ := noStepStops s
  have hmove := hstep
  rw [step_of_unitAgent hagent] at hmove
  refine ⟨t, hstep, by rw [step_schedule hstep, hsched, List.tail_nil], ?_, State.unitMove_idle hmove, fun v hv => ?_⟩
  · rw [(State.unitMove_platform hmove).port]; exact hpending
  · cases u with
    | fft =>
      obtain rfl : v = .hb := by cases v with | fft => exact absurd rfl hv | hb => rfl
      exact congrArg HbUnit.busy (unitsAreIndependent.1 _ t hmove).1
    | hb =>
      obtain rfl : v = .fft := by cases v with | fft => rfl | hb => exact absurd rfl hv
      exact congrArg FftUnit.busy (unitsAreIndependent.2.1 _ t hmove).1

/-- Once the schedule is used up and the FFT unit is idle, an access waits for the HB unit's completion at most. -/
theorem reachesWithin_released_of_fft_idle {a : Access} (hsched : s.schedule = []) (hpending : s.port.pending = some a)
    (hfft : s.busy .fft = false) : ReachesWithin 1 s (State.Released a) := by
  cases hhb : s.busy .hb with
  | false => exact .now (State.released_of_idle hsched hpending hfft hhb)
  | true =>
    have hagent := State.nextAgent_of_empty hsched
    rw [hfft, hhb] at hagent
    obtain ⟨t, hstep, hsched', hpending', hhb', hothers⟩ := step_unit_of_empty (u := .hb) hsched hpending hagent
    exact .step hstep (.now (State.released_of_idle hsched' hpending' ((hothers .fft nofun).trans hfft) hhb'))

/-- Once the schedule is used up, an access waits for the completions of the two units at most. -/
theorem reachesWithin_released_of_empty {a : Access} (hsched : s.schedule = []) (hpending : s.port.pending = some a) :
    ReachesWithin 2 s (State.Released a) := by
  cases hfft : s.busy .fft with
  | false =>
    obtain ⟨k, m, hk, hm⟩ := reachesWithin_released_of_fft_idle hsched hpending hfft
    exact ⟨k, m, hk.trans (by decide), hm⟩
  | true =>
    have hagent := State.nextAgent_of_empty hsched
    rw [hfft] at hagent
    obtain ⟨t, hstep, hsched', hpending', hfft', -⟩ := step_unit_of_empty (u := .fft) hsched hpending hagent
    exact .step hstep (reachesWithin_released_of_fft_idle hsched' hpending' hfft')

/-- The host's turn that performs an outstanding access comes within the schedule and two more steps. -/
theorem reachesWithin_released {a : Access} (hreset : Agent.powerOn ∉ s.schedule) (hpending : s.port.pending = some a) :
    ReachesWithin (s.schedule.length + 2) s (State.Released a) := by
  induction hsched : s.schedule generalizing s with
  | nil => exact reachesWithin_released_of_empty hsched hpending
  | cons agent rest ih =>
    by_cases hnow : State.Released a s
    · exact .now hnow
    · obtain ⟨t, hstep⟩ := noStepStops s
      have hpending' := step_pending (State.nextAgent_ne_powerOn hreset) hpending hnow hstep
      have hrest : t.schedule = rest := by rw [step_schedule hstep, hsched, List.tail_cons]
      have hreset' : Agent.powerOn ∉ t.schedule := fun h => hreset (hsched ▸ List.mem_cons_of_mem _ (hrest ▸ h))
      exact .step hstep (ih hreset' hpending' hrest)

/-- The step at the host's turn. -/
theorem step_of_host (h : s.nextAgent = .host) : step s = .next s.useTurn.hostMove := by
  rw [step, h, State.agentMove]

end

/-- Settles O49: a turn is used up at each step, and once none is left the busy units complete and then the host
moves. -/
theorem commandsAndHoldsEnd : Obligations.CommandsAndHoldsEnd := by
  refine fun s hreset => ⟨fun u w hrun => ?completes, fun a hpending => ?performed⟩
  case completes =>
    obtain ⟨k, m, hk, hruns, hagent, hsame⟩ := reachesWithin_turn hreset (State.busy_of_running hrun)
    obtain ⟨t, hstep, hexec, hidle⟩ := step_of_running hagent (hsame.running_eq.trans hrun)
    exact ⟨k, m, t, hk, hruns, hagent, hsame, hstep, hexec, hidle⟩
  case performed =>
    obtain ⟨k, m, hk, hruns, hagent, hpending', hfree⟩ := reachesWithin_released hreset hpending
    refine ⟨k, m, hk, hruns, hagent, hpending', hfree, ?_⟩
    rw [step_of_host hagent, State.hostMove_of_released (s := m.useTurn) hpending' hfree]

end Sys2Proof.Machine
end

section
/-! Settled: what the statements of a host script do at the host's turn (30_encoding.md R97, R98). -/

namespace Sys2Proof.Machine

section
variable {s : State}

/-! ## One operation of the script -/

/-- A host without an outstanding access that issues one that is not held performs it. -/
theorem State.hostMove_of_issued {a : Access} {rest : List HostOp} (hpending : s.port.pending = none)
    (hscript : s.script = .access a :: rest) (hfree : s.holds a = false) :
    s.hostMove = State.perform { s with script := rest } a := by
  simp [State.hostMove, hpending, hscript, hfree]

/-- A POLL reads STATUS, and stays in the script while the unit is busy. -/
theorem State.hostMove_of_poll {u : UnitId} {rest : List HostOp} (hpending : s.port.pending = none)
    (hscript : s.script = .poll u :: rest) :
    s.hostMove = State.perform { s with script := if s.busy u then s.script else rest } (statusRead u) := by
  simp only [State.hostMove, hpending, hscript]
  cases s.busy u with
  | true => rw [if_pos rfl, if_pos rfl, ← hscript]
  | false => rfl

/-- A mnemonic is the write of its word to the CMD register of its unit. -/
theorem opCommand_eq (i : Instr) : opCommand i = .access (commandWrite i.unit (encode i)) := by
  rw [opCommand]
  cases i.unit <;> rfl

end

/-- Settles O50: the one write is not held, and performing it is the acceptance of the encoded word. -/
theorem mnemonicIssuesItsCommand : Obligations.MnemonicIssuesItsCommand := by
  intro s i rest hwf hagent hpending hscript hidle
  have hscript' : s.script = .access (commandWrite i.unit (encode i)) :: rest := by rw [hscript, ← opCommand_eq]; rfl
  have hfree : s.useTurn.holds (commandWrite i.unit (encode i)) = false := by
    rw [State.holds_commandWrite, State.useTurn_busy, hidle]
  rw [step_of_host hagent, State.hostMove_of_issued (s := s.useTurn) hpending hscript' hfree,
    State.perform_commandWrite]
  refine ⟨_, rfl, ?script, ?running, (encodedCommandsDecode i hwf).1, ?word, ?pending⟩
  case script => rw [State.respond_script, State.accept_script]
  case running => cases i.unit <;> rfl
  case word => cases i.unit <;> rfl
  case pending => rw [State.respond_pending, State.accept_port]; exact hpending

/-- Settles O51: the read of STATUS is never held, and changes nothing but the response. -/
theorem pollReadsUntilIdle : Obligations.PollReadsUntilIdle := by
  intro s u rest hagent hpending hscript
  rw [step_of_host hagent, State.hostMove_of_poll (s := s.useTurn) hpending hscript, State.perform_statusRead]
  refine ⟨_, rfl, ?_, hpending, rfl, rfl, rfl, by rw [State.respond_script, State.useTurn_busy]; rfl⟩
  cases u <;> rfl

section
variable {s : State}

/-! ## One write of the script, with no unit busy -/

/-- What a write makes of the FFT unit depends on that unit alone. -/
theorem State.writeLoc_fft_congr {t : State} (h : t.fft = s.fft) (l : Loc) (w : Word) :
    (t.writeLoc l w).fft = (s.writeLoc l w).fft := by
  cases l with
  | fftCmd | fftArg | fftIn => simp only [State.writeLoc, State.accept, h]
  | _ => exact h

/-- What a write makes of the HB unit depends on that unit and the format alone. -/
theorem State.writeLoc_hb_congr {t : State} (hbuild : t.build = s.build) (h : t.hb = s.hb) (l : Loc) (w : Word) :
    (t.writeLoc l w).hb = (s.writeLoc l w).hb := by
  cases l with
  | hbCmd | hbNchan | hbSlot => simp only [State.writeLoc, State.accept, h, hbuild]
  | _ => exact h

/-- The state after a write of the script to `l`, which is not held. -/
def State.written (s : State) (l : Loc) (w : Word) (rest : List HostOp) : State :=
  (State.writeLoc { s with script := rest } l w).respond .done

section
variable (l : Loc) (w : Word) (rest : List HostOp)

@[simp] theorem State.written_script : (s.written l w rest).script = rest := State.writeLoc_script _ _ _
@[simp] theorem State.written_build : (s.written l w rest).build = s.build := State.writeLoc_build _ _ _
@[simp] theorem State.written_schedule : (s.written l w rest).schedule = s.schedule := State.writeLoc_schedule _ _ _
@[simp] theorem State.written_epoch : (s.written l w rest).epoch = s.epoch := State.writeLoc_epoch _ _ _
@[simp] theorem State.written_fft : (s.written l w rest).fft = (s.writeLoc l w).fft :=
  State.writeLoc_fft_congr (s := s) (t := { s with script := rest }) rfl l w
@[simp] theorem State.written_hb : (s.written l w rest).hb = (s.writeLoc l w).hb :=
  State.writeLoc_hb_congr (s := s) (t := { s with script := rest }) rfl rfl l w

end

theorem State.useTurn_of_empty (h : s.schedule = []) : s.useTurn = s := by
  obtain ⟨b, f, g, p, sc, sch, e⟩ := s
  obtain rfl : sch = [] := h
  rfl

/-- A quiet host makes the next write of its script at once. -/
theorem step_opWrite {l : Loc} {w : Word} {rest : List HostOp} (hlegal : s.build.Legal) (hsched : s.schedule = [])
    (hquiet : s.quiet) (hmapped : l.mapped s.build) (hwritable : l.writable = true)
    (hscript : s.script = opWrite l.offset w :: rest) : step s = .next (s.written l w rest) := by
  obtain ⟨hfft, hhb, hpending⟩ := hquiet
  have hagent := State.nextAgent_of_empty hsched
  rw [hfft, hhb] at hagent
  have htarget := target_of_mapped hlegal hmapped (.write w) (.inr hwritable)
  rw [step_of_host hagent, State.useTurn_of_empty hsched,
    State.hostMove_of_issued hpending hscript (State.holds_of_idle _ hfft hhb)]
  exact congrArg _ (State.perform_write (s := { s with script := rest }) htarget rfl)

/-- A write to a word that is no CMD register issues no command. -/
theorem State.writeLoc_busy {l : Loc} (hcmd : ∀ u, l ≠ cmdLoc u) (w : Word) (u : UnitId) :
    (s.writeLoc l w).busy u = s.busy u := by
  cases l with
  | fftCmd => exact absurd rfl (hcmd .fft)
  | hbCmd => exact absurd rfl (hcmd .hb)
  | hbSlot r high =>
    obtain ⟨sr, pg, xr, xi, hslot⟩ := s.hb.writeSlot_eq_inputs s.build.fmt r high w
    rw [State.writeLoc, hslot]
    cases u <;> rfl
  | _ => cases u <;> rfl

theorem State.written_quiet {l : Loc} {w : Word} {rest : List HostOp} (hquiet : s.quiet) (hcmd : ∀ u, l ≠ cmdLoc u) :
    (s.written l w rest).quiet := by
  obtain ⟨hfft, hhb, hpending⟩ := hquiet
  refine ⟨?_, ?_, ?_⟩
  · rw [State.written, State.respond_busy, State.writeLoc_busy hcmd]; exact hfft
  · rw [State.written, State.respond_busy, State.writeLoc_busy hcmd]; exact hhb
  · rw [State.written, State.respond_pending, State.writeLoc_port]; exact hpending

/-! ## The value slots -/

/-- The words of a value slot that WF may name: the high one 4 bytes behind the low one, both writable and neither a CMD
register. -/
structure WritableSlot (b : Build) (loc : (high : Bool) → Loc) : Prop where
  offset : (loc true).offset = (loc false).offset + 4
  mapped : ∀ high, wordExists b high → (loc high).mapped b
  writable : ∀ high, (loc high).writable = true
  plain : ∀ high u, loc high ≠ cmdLoc u

/-- The state with a value stored to a slot, word by word (20_memory.md R64). -/
def State.storeValue (s : State) (loc : (high : Bool) → Loc) (v : F) : State :=
  match s.build.fmt with
  | .binary32 => s.writeLoc (loc false) (lowWord v)
  | .binary64 => (s.writeLoc (loc false) (lowWord v)).writeLoc (loc true) (highWord v)

theorem State.storeValue_binary32 (h : s.build.fmt = .binary32) (loc : (high : Bool) → Loc) (v : F) :
    s.storeValue loc v = s.writeLoc (loc false) (lowWord v) := by
  rw [State.storeValue, h]

theorem State.storeValue_binary64 (h : s.build.fmt = .binary64) (loc : (high : Bool) → Loc) (v : F) :
    s.storeValue loc v = (s.writeLoc (loc false) (lowWord v)).writeLoc (loc true) (highWord v) := by
  rw [State.storeValue, h]

/-- The run of WF stores the value to the slot. -/
theorem runs_wf {loc : (high : Bool) → Loc} {v : F} {rest : List HostOp} (hslot : WritableSlot s.build loc)
    (hlegal : s.build.Legal) (hsched : s.schedule = []) (hquiet : s.quiet)
    (hscript : s.script = Stmt.expand s.build.fmt (.wf (loc false).offset v) ++ rest) :
    ∃ k t, runs k s t ∧ t.script = rest ∧ t.build = s.build ∧ t.epoch = s.epoch ∧
      t.fft = (s.storeValue loc v).fft ∧ t.hb = (s.storeValue loc v).hb := by
  obtain ⟨hoffset, hmapped, hwritable, hplain⟩ := hslot
  have hlow := hmapped false nofun
  cases hfmt : s.build.fmt with
  | binary32 =>
    have hops : s.script = opWrite (loc false).offset (lowWord v) :: rest := by rw [hscript, hfmt]; rfl
    have hstep := step_opWrite hlegal hsched hquiet hlow (hwritable false) hops
    rw [State.storeValue_binary32 hfmt]
    exact ⟨1, _, ⟨_, hstep, rfl⟩, by simp⟩
  | binary64 =>
    have hops : s.script =
        opWrite (loc false).offset (lowWord v) :: opWrite (loc true).offset (highWord v) :: rest := by
      rw [hscript, hfmt, hoffset]; rfl
    have hstep := step_opWrite hlegal hsched hquiet hlow (hwritable false) hops
    have hquiet' : (s.written (loc false) (lowWord v) (opWrite (loc true).offset (highWord v) :: rest)).quiet :=
      State.written_quiet hquiet (hplain false)
    have hstep' := step_opWrite (l := loc true) (by rwa [State.written_build]) (by rwa [State.written_schedule]) hquiet'
      (by rw [State.written_build]; exact hmapped true fun _ => hfmt) (hwritable true) (State.written_script _ _ _)
    rw [State.storeValue_binary64 hfmt]
    refine ⟨2, _, ⟨_, hstep, _, hstep', rfl⟩, by simp, by simp, by simp, ?_, ?_⟩
    · rw [State.written_fft]
      exact State.writeLoc_fft_congr (State.written_fft _ _ _) _ _
    · rw [State.written_hb]
      exact State.writeLoc_hb_congr (by simp) (State.written_hb _ _ _) _ _

/-- The words of a value of the format, put together, are the value (20_memory.md R64). -/
theorem replaceWord_binary32 (x : F) {v : F} (h : fitsFormat .binary32 v = true) :
    replaceWord .binary32 x false (lowWord v) = v := value_of_words .binary32 v h

theorem replaceWord_binary64 (x v : F) :
    replaceWord .binary64 (replaceWord .binary64 x false (lowWord v)) true (highWord v) = v := by
  show highWord v ++ lowWord (highWord x ++ lowWord v) = v
  rw [lowWord_append, append_words]

theorem writableSlot_hbSlot (b : Build) {r : HbSlot} (h : Loc.writable (.hbSlot r false) = true) :
    WritableSlot b (.hbSlot r) := by
  refine ⟨rfl, fun _ hexists => hexists, fun high => ?_, fun high u => by cases u <;> nofun⟩
  rw [← h]
  cases r <;> rfl

/-- The registers of the HB unit after a value is stored to one of them. -/
theorem State.slot_storeValue {r : HbSlot} (h : Loc.writable (.hbSlot r false) = true) {v : F}
    (hfits : fitsFormat s.build.fmt v = true) (r' : HbSlot) :
    (s.storeValue (.hbSlot r) v).slot r' = if r' = r then v else s.slot r' := by
  have hwritable := (writableSlot_hbSlot s.build h).writable
  cases hfmt : s.build.fmt with
  | binary32 =>
    rw [State.storeValue_binary32 hfmt, State.slot_writeLoc, hfmt, replaceWord_binary32 _ (hfmt ▸ hfits)]
    simp only [hwritable, and_true]
  | binary64 =>
    have hlow : (s.writeLoc (.hbSlot r false) (lowWord v)).slot r =
        replaceWord s.build.fmt (s.slot r) false (lowWord v) := by
      rw [State.slot_writeLoc, if_pos ⟨rfl, hwritable false⟩]
    rw [State.storeValue_binary64 hfmt, State.slot_writeLoc, hlow, State.writeLoc_build, hfmt, replaceWord_binary64,
      State.slot_writeLoc]
    simp only [hwritable, and_true]
    split <;> rfl

theorem State.storeValue_hbSlot_fft (r : HbSlot) (v : F) : (s.storeValue (.hbSlot r) v).fft = s.fft := by
  rw [State.storeValue]
  cases s.build.fmt <;> rfl

theorem State.slot_congr {t : State} (hbuild : t.build = s.build) (hhb : t.hb = s.hb) (r : HbSlot) :
    t.slot r = s.slot r := by
  cases r <;> simp only [State.slot, hhb, hbuild]

@[simp] theorem State.storeValue_build (loc : (high : Bool) → Loc) (v : F) : (s.storeValue loc v).build = s.build := by
  rw [State.storeValue]
  cases s.build.fmt <;> simp only [State.writeLoc_build]

theorem writableSlot_fftIn {b : Build} {i : Nat} (imag : Bool) (h : i < b.nrom) : WritableSlot b (.fftIn i imag) := by
  refine ⟨?_, fun _ hexists => ⟨h, hexists⟩, fun _ => rfl, fun high u => by cases u <;> nofun⟩
  cases imag <;> rfl

/-- The offset of a value slot of FFT_IN. -/
def fftInSlot (i : Nat) (imag : Bool) : Nat := fftInBase + 16 * i + if imag then 8 else 0

theorem partOf_fftIn (s : State) (i : Nat) (imag : Bool) :
    partOf (s.fftIn i) imag = Memory.value s.build.fmt s.epoch s.fft.inBuf (fftInSlot i imag) := by
  cases imag <;> rfl

/-- FFT_IN after a value is stored to one of its slots. -/
theorem State.storeValue_fftIn_inBuf (i : Nat) (imag : Bool) (v : F) :
    (s.storeValue (.fftIn i imag) v).fft.inBuf = Memory.setValue s.build.fmt s.fft.inBuf (fftInSlot i imag) v := by
  rw [State.storeValue]
  cases s.build.fmt <;> cases imag <;> rfl

theorem State.storeValue_fftIn_hb (i : Nat) (imag : Bool) (v : F) : (s.storeValue (.fftIn i imag) v).hb = s.hb := by
  rw [State.storeValue]
  cases s.build.fmt <;> rfl

/-- Two slots of FFT_IN are apart. -/
theorem fftInSlot_apart {i i' : Nat} {imag imag' : Bool} (h : i' ≠ i ∨ imag' ≠ imag) :
    fftInSlot i' imag' + 8 ≤ fftInSlot i imag ∨ fftInSlot i imag + 8 ≤ fftInSlot i' imag' := by
  have hpart : ∀ part : Bool, (if part then 8 else 0) ≤ 8 := by decide
  have hre := hpart imag
  have him := hpart imag'
  simp only [fftInSlot]
  rcases h with hindex | hpart'
  · omega
  · obtain rfl : imag' = !imag := Bool.eq_not.2 hpart'
    cases imag <;> simp <;> omega

end

/-- Settles O52: the writes of WF are those of the slot's words, which make up the value and no part of another slot. -/
theorem valueWriteFillsSlot : Obligations.ValueWriteFillsSlot := by
  refine fun s v rest hlegal hfits hsched hquiet => ⟨fun r hwritable hscript => ?slot, fun i imag hi hscript => ?input⟩
  case slot =>
    obtain ⟨k, t, hruns, hrest, hbuild, -, hfft, hhb⟩ :=
      runs_wf (writableSlot_hbSlot s.build hwritable) hlegal hsched hquiet hscript
    have hread : ∀ r', t.slot r' = if r' = r then v else s.slot r' := fun r' => by
      rw [State.slot_congr (by rw [hbuild, State.storeValue_build]) hhb, State.slot_storeValue hwritable hfits]
    exact ⟨k, t, hruns, hrest, (hread r).trans (if_pos rfl), fun r' hne => (hread r').trans (if_neg hne),
      hfft.trans (State.storeValue_hbSlot_fft r v)⟩
  case input =>
    obtain ⟨k, t, hruns, hrest, hbuild, hepoch, hfft, hhb⟩ :=
      runs_wf (writableSlot_fftIn imag hi) hlegal hsched hquiet hscript
    have hread : ∀ i' imag', partOf (t.fftIn i') imag' = Memory.value s.build.fmt s.epoch
        (Memory.setValue s.build.fmt s.fft.inBuf (fftInSlot i imag) v) (fftInSlot i' imag') := fun i' imag' => by
      rw [partOf_fftIn, hbuild, hepoch, hfft, State.storeValue_fftIn_inBuf]
    refine ⟨k, t, hruns, hrest, ?_, fun i' imag' hother => ?_, hhb.trans (State.storeValue_fftIn_hb i imag v)⟩
    · rw [hread, Memory.value_setValue_same _ _ _ _ _ hfits]
    · rw [hread, Memory.value_setValue_other _ _ _ _ _ _ (fftInSlot_apart hother), partOf_fftIn]

end Sys2Proof.Machine
end

section
/-! Settled: the four operations of F: one rounding to nearest even (40_numerics.md R111, R112), NaN results (R114,
R115), the signs of zeros and infinities (R114), exact results, and the constants (R119). -/

namespace Sys2Proof.Machine

/-! ## The real value, by its sign -/

/-- The factor that a sign bit stands for. -/
noncomputable def signReal (neg : Bool) : ℝ := if neg then -1 else 1

theorem signReal_bne (s t : Bool) : signReal (s != t) = signReal s * signReal t := by
  cases s <;> cases t <;> simp [signReal]

theorem signReal_not (s : Bool) : signReal (!s) = -signReal s := by cases s <;> simp [signReal]

theorem signReal_div (s t : Bool) : signReal s / signReal t = signReal (s != t) := by
  cases s <;> cases t <;> simp [signReal]

theorem signReal_ne_zero (s : Bool) : signReal s ≠ 0 := by cases s <;> simp [signReal]

theorem abs_signReal (s : Bool) : |signReal s| = 1 := by cases s <;> simp [signReal]

/-- A sign and a positive magnitude make a number of that sign. -/
theorem signReal_mul_neg_iff (s : Bool) {x : ℝ} (hx : 0 < x) : s = decide (signReal s * x < 0) := by
  cases s with
  | true => simpa [signReal] using hx
  | false => simpa [signReal] using hx.le

theorem realValue_eq_signReal (fmt : Format) (a : F) :
    realValue fmt a = signReal (signBit fmt a) * magUnits fmt a / 2 ^ fmt.unit := rfl

/-- What `makeF` of a rounded magnitude is the rounding of: `± n / d` units. -/
theorem roundsTo_signed (fmt : Format) (s : Bool) {n d : Nat} (hn : 0 < n) (hd : 0 < d) :
    RoundsTo fmt (signReal s * ((n : ℝ) / d) / 2 ^ fmt.unit) (makeF fmt s (roundUnits fmt n d)) := by
  have hunit : (0 : ℝ) < 2 ^ fmt.unit := by positivity
  have hmag : (0 : ℝ) < (n : ℝ) / d := by positivity
  refine roundsTo_of_units fmt _ s n d ?sign hd ?magnitude
  case sign => rw [mul_div_assoc]; exact signReal_mul_neg_iff s (div_pos hmag hunit)
  case magnitude =>
    rw [abs_div, abs_mul, abs_signReal, one_mul, abs_of_pos hmag, abs_of_pos hunit, div_mul_cancel₀ _ hunit.ne']

theorem roundsTo_signed_nat (fmt : Format) (s : Bool) {n : Nat} (hn : 0 < n) :
    RoundsTo fmt (signReal s * n / 2 ^ fmt.unit) (makeF fmt s (roundUnits fmt n 1)) := by
  simpa only [Nat.cast_one, div_one] using roundsTo_signed fmt s hn Nat.one_pos

/-! ## Rounding (40_numerics.md R111) -/

/-- The sum of two finite values is rounded once, where it is not zero. -/
theorem addFinite_roundsTo (fmt : Format) (s t : Bool) (m n : Nat)
    (h : signReal s * m / 2 ^ fmt.unit + signReal t * n / 2 ^ fmt.unit ≠ 0) :
    RoundsTo fmt (signReal s * m / 2 ^ fmt.unit + signReal t * n / 2 ^ fmt.unit) (addFinite fmt s m t n) := by
  rw [addFinite]
  split
  case isTrue heq =>
    obtain rfl := heq
    have hsum : signReal s * (m : ℝ) / 2 ^ fmt.unit + signReal s * n / 2 ^ fmt.unit =
        signReal s * ((m + n : Nat) : ℝ) / 2 ^ fmt.unit := by push_cast; ring
    rw [hsum] at h ⊢
    exact roundsTo_signed_nat fmt s (Nat.pos_of_ne_zero fun h0 => h (by simp [h0]))
  case isFalse hne =>
    obtain rfl : t = !s := Bool.eq_not.2 (Ne.symm hne)
    rw [signReal_not] at h ⊢
    split
    case isTrue heq => exact absurd (by rw [heq]; ring) h
    case isFalse hmn =>
      split
      case isTrue hlt =>
        have hsum : signReal s * (m : ℝ) / 2 ^ fmt.unit + -signReal s * n / 2 ^ fmt.unit =
            signReal s * ((m - n : Nat) : ℝ) / 2 ^ fmt.unit := by
          rw [Nat.cast_sub hlt.le]; ring
        rw [hsum]
        exact roundsTo_signed_nat fmt s (Nat.sub_pos_of_lt hlt)
      case isFalse hge =>
        have hlt : m < n := by omega
        have hsum : signReal s * (m : ℝ) / 2 ^ fmt.unit + -signReal s * n / 2 ^ fmt.unit =
            signReal (!s) * ((n - m : Nat) : ℝ) / 2 ^ fmt.unit := by
          rw [Nat.cast_sub hlt.le, signReal_not]; ring
        rw [hsum]
        exact roundsTo_signed_nat fmt (!s) (Nat.sub_pos_of_lt hlt)

section
variable (c : Fp) {a b : F}

theorem fadd_roundsTo (ha : isFinite c.fmt a = true) (hb : isFinite c.fmt b = true)
    (h : realValue c.fmt a + realValue c.fmt b ≠ 0) :
    RoundsTo c.fmt (realValue c.fmt a + realValue c.fmt b) (fadd c a b) := by
  rw [fadd_finite c a b ha hb]
  exact addFinite_roundsTo _ _ _ _ _ h

/-- A difference is the sum with the opposite. -/
theorem fsub_roundsTo (ha : isFinite c.fmt a = true) (hb : isFinite c.fmt b = true) (hfits : fitsFormat c.fmt b = true)
    (h : realValue c.fmt a - realValue c.fmt b ≠ 0) :
    RoundsTo c.fmt (realValue c.fmt a - realValue c.fmt b) (fsub c a b) := by
  rw [sub_eq_add_neg, ← realValue_fneg _ _ hfits] at h ⊢
  exact fadd_roundsTo c ha ((isFinite_fneg _ _ hfits).trans hb) h

theorem magUnits_pos {fmt : Format} (h : realValue fmt a ≠ 0) : 0 < magUnits fmt a :=
  Nat.pos_of_ne_zero fun h0 => h ((realValue_eq_zero _ _).2 ((magUnits_eq_zero _ _).1 h0))

theorem fmul_roundsTo (ha : isFinite c.fmt a = true) (hb : isFinite c.fmt b = true)
    (h : realValue c.fmt a * realValue c.fmt b ≠ 0) :
    RoundsTo c.fmt (realValue c.fmt a * realValue c.fmt b) (fmul c a b) := by
  obtain ⟨ha0, hb0⟩ := mul_ne_zero_iff.1 h
  have hvalue : realValue c.fmt a * realValue c.fmt b = signReal (signBit c.fmt a != signBit c.fmt b) *
      (((magUnits c.fmt a * magUnits c.fmt b : Nat) : ℝ) / ((2 ^ c.fmt.unit : Nat) : ℝ)) / 2 ^ c.fmt.unit := by
    rw [realValue_eq_signReal, realValue_eq_signReal, signReal_bne]
    push_cast
    ring
  rw [hvalue, fmul_finite c a b ha hb]
  exact roundsTo_signed _ _ (Nat.mul_pos (magUnits_pos ha0) (magUnits_pos hb0)) (Nat.two_pow_pos _)

theorem fdiv_roundsTo (ha : isFinite c.fmt a = true) (hb : isFinite c.fmt b = true) (ha0 : realValue c.fmt a ≠ 0)
    (hb0 : realValue c.fmt b ≠ 0) : RoundsTo c.fmt (realValue c.fmt a / realValue c.fmt b) (fdiv c a b) := by
  have hzero : isZero c.fmt b = false := Bool.eq_false_iff.2 fun hz => hb0 ((realValue_eq_zero _ _).2 hz)
  have hpos := magUnits_pos hb0
  have hvalue : realValue c.fmt a / realValue c.fmt b = signReal (signBit c.fmt a != signBit c.fmt b) *
      (((magUnits c.fmt a <<< c.fmt.unit : Nat) : ℝ) / (magUnits c.fmt b : ℝ)) / 2 ^ c.fmt.unit := by
    have hb' : (magUnits c.fmt b : ℝ) ≠ 0 := by exact_mod_cast hpos.ne'
    have hs := signReal_ne_zero (signBit c.fmt b)
    rw [realValue_eq_signReal, realValue_eq_signReal, ← signReal_div, Nat.shiftLeft_eq]
    push_cast
    field_simp
  rw [hvalue, fdiv_finite c a b ha hb hzero]
  exact roundsTo_signed _ _ (by rw [Nat.shiftLeft_eq]; exact Nat.mul_pos (magUnits_pos ha0) (Nat.two_pow_pos _)) hpos

end

/-- Settles O53: each operation rounds the exact magnitude in units once, under the exact sign. -/
theorem arithmeticRoundsToNearest : Obligations.ArithmeticRoundsToNearest :=
  fun c _ _ ha hb hfits => ⟨fadd_roundsTo c ha hb, fsub_roundsTo c ha hb hfits, fmul_roundsTo c ha hb,
    fdiv_roundsTo c ha hb⟩

/-! ## Infinities and zeros as operands (40_numerics.md R114) -/

section
variable (c : Fp) {a b : F}

theorem fadd_inf_inf (ha : isInf c.fmt a = true) (hb : isInf c.fmt b = true) :
    fadd c a b =
      if signBit c.fmt a = signBit c.fmt b then makeF c.fmt (signBit c.fmt a) (infBits c.fmt) else drawNaN c := by
  rw [fadd, classify_inf _ _ ha, classify_inf _ _ hb]

theorem fadd_inf_finite (ha : isInf c.fmt a = true) (hb : isFinite c.fmt b = true) :
    fadd c a b = makeF c.fmt (signBit c.fmt a) (infBits c.fmt) := by
  rw [fadd, classify_inf _ _ ha, classify_fin _ _ hb]

theorem fadd_finite_inf (ha : isFinite c.fmt a = true) (hb : isInf c.fmt b = true) :
    fadd c a b = makeF c.fmt (signBit c.fmt b) (infBits c.fmt) := by
  rw [fadd, classify_fin _ _ ha, classify_inf _ _ hb]

theorem fmul_zero_inf (ha : isZero c.fmt a = true) (hb : isInf c.fmt b = true) : fmul c a b = drawNaN c := by
  rw [fmul, classify_fin _ _ (finite_of_zero _ _ ha), classify_inf _ _ hb]
  exact if_pos ((magUnits_eq_zero _ _).2 ha)

/-- An infinity times what is neither a zero nor a NaN is an infinity. -/
theorem fmul_inf_left (ha : isInf c.fmt a = true) (hnan : isNaN c.fmt b = false) (hzero : isZero c.fmt b = false) :
    fmul c a b = makeF c.fmt (signBit c.fmt a != signBit c.fmt b) (infBits c.fmt) := by
  rcases class_cases c.fmt b with h | h | h
  · exact absurd (hnan.symm.trans h) Bool.false_ne_true
  · rw [fmul, classify_inf _ _ ha, classify_fin _ _ h]
    exact if_neg fun h0 => Bool.eq_false_iff.1 hzero ((magUnits_eq_zero _ _).1 h0)
  · rw [fmul, classify_inf _ _ ha, classify_inf _ _ h]

theorem fmul_inf_right (hb : isInf c.fmt b = true) (hnan : isNaN c.fmt a = false) (hzero : isZero c.fmt a = false) :
    fmul c a b = makeF c.fmt (signBit c.fmt a != signBit c.fmt b) (infBits c.fmt) := by
  rcases class_cases c.fmt a with h | h | h
  · exact absurd (hnan.symm.trans h) Bool.false_ne_true
  · rw [fmul, classify_fin _ _ h, classify_inf _ _ hb]
    exact if_neg fun h0 => Bool.eq_false_iff.1 hzero ((magUnits_eq_zero _ _).1 h0)
  · rw [fmul, classify_inf _ _ h, classify_inf _ _ hb]

theorem fdiv_inf_inf (ha : isInf c.fmt a = true) (hb : isInf c.fmt b = true) : fdiv c a b = drawNaN c := by
  rw [fdiv, classify_inf _ _ ha, classify_inf _ _ hb]

theorem fdiv_inf_finite (ha : isInf c.fmt a = true) (hb : isFinite c.fmt b = true) :
    fdiv c a b = makeF c.fmt (signBit c.fmt a != signBit c.fmt b) (infBits c.fmt) := by
  rw [fdiv, classify_inf _ _ ha, classify_fin _ _ hb]

theorem fdiv_finite_inf (ha : isFinite c.fmt a = true) (hb : isInf c.fmt b = true) :
    fdiv c a b = makeF c.fmt (signBit c.fmt a != signBit c.fmt b) 0 := by
  rw [fdiv, classify_fin _ _ ha, classify_inf _ _ hb]

/-- A quotient by zero is a NaN for a zero dividend and an infinity for any other finite one. -/
theorem fdiv_finite_zero (ha : isFinite c.fmt a = true) (hb : isZero c.fmt b = true) :
    fdiv c a b = if isZero c.fmt a = true then drawNaN c
      else makeF c.fmt (signBit c.fmt a != signBit c.fmt b) (infBits c.fmt) := by
  rw [fdiv, classify_fin _ _ ha, classify_fin _ _ (finite_of_zero _ _ hb)]
  simp only [magUnits_eq_zero, hb, if_true]

/-- A zero over a finite value that is no zero is a zero. -/
theorem fdiv_zero_left (ha : isZero c.fmt a = true) (hb : isFinite c.fmt b = true) (hzero : isZero c.fmt b = false) :
    fdiv c a b = makeF c.fmt (signBit c.fmt a != signBit c.fmt b) 0 := by
  have hpos : 0 < magUnits c.fmt b :=
    Nat.pos_of_ne_zero fun h0 => Bool.eq_false_iff.1 hzero ((magUnits_eq_zero _ _).1 h0)
  rw [fdiv_finite c a b (finite_of_zero _ _ ha) hb hzero, (magUnits_eq_zero _ _).2 ha, Nat.zero_shiftLeft,
    roundUnits_zero _ _ hpos]

end

/-! ## NaN results -/

/-- A sign flip keeps the magnitude of every 64-bit pattern, whether it fits the format or not. -/
theorem magBits_fneg_any (fmt : Format) (a : F) : magBits fmt (fneg fmt a) = magBits fmt a := by
  have hpow : (BitVec.twoPow 64 (fmt.width - 1)).toNat = 2 ^ (fmt.width - 1) := by cases fmt <;> decide
  rw [magBits, magBits, fneg, BitVec.toNat_xor, hpow, Nat.xor_mod_two_pow, Nat.mod_self, Nat.xor_zero]

theorem isNaN_fneg_any (fmt : Format) (a : F) : isNaN fmt (fneg fmt a) = isNaN fmt a := by
  rw [isNaN, isNaN, magBits_fneg_any]

theorem fadd_nan (c : Fp) {a b : F} (h : isNaN c.fmt a = true ∨ isNaN c.fmt b = true) : fadd c a b = drawNaN c :=
  h.elim (fadd_nan_left c a b) (fadd_nan_right c a b)

theorem fsub_nan (c : Fp) {a b : F} (h : isNaN c.fmt a = true ∨ isNaN c.fmt b = true) : fsub c a b = drawNaN c :=
  fadd_nan c (h.imp_right fun hb => (isNaN_fneg_any _ _).trans hb)

/-- What an operation answers: a drawn NaN, or a sign and a magnitude up to that of the infinities. -/
def IsResult (c : Fp) (v : F) : Prop := v = drawNaN c ∨ ∃ s m, m ≤ infBits c.fmt ∧ v = makeF c.fmt s m

theorem IsResult.fits {c : Fp} {v : F} (h : IsResult c v) : fitsFormat c.fmt v = true := by
  rcases h with rfl | ⟨s, m, hm, rfl⟩
  · exact fits_drawNaN c
  · exact fits_makeF _ _ _ (hm.trans_lt (infBits_lt _))

/-- Of the results only the drawn NaN is one, and it is quiet. -/
theorem IsResult.quiet {c : Fp} {v : F} (h : IsResult c v) (hnan : isNaN c.fmt v = true) :
    v.getLsbD (c.fmt.fracBits - 1) = true := by
  rcases h with rfl | ⟨s, m, hm, rfl⟩
  · exact quiet_drawNaN c
  · exact absurd ((isNaN_makeF _ _ _ hm).symm.trans hnan) Bool.false_ne_true

theorem isResult_of_operation (c : Fp) (a b : F) :
    ∀ v ∈ [fadd c a b, fsub c a b, fmul c a b, fdiv c a b], IsResult c v := by
  simp only [List.mem_cons, List.not_mem_nil, or_false]
  rintro v (rfl | rfl | rfl | rfl)
  · exact fadd_shape c a b
  · exact fadd_shape c a (fneg c.fmt b)
  · exact (fmul_shape c a b).imp_right fun ⟨_, _, m, hm, hv⟩ => ⟨_, m, hm, hv⟩
  · exact (fdiv_shape c a b).imp_right fun ⟨m, hm, hv⟩ => ⟨_, m, hm, hv⟩

/-- Settles O54: each listed case answers the drawn NaN, the only NaN among the results. -/
theorem nanResults : Obligations.NanResults := by
  refine fun c a b => ⟨fun h => ?operand, fun ha hb hfits => ?infinities, fun ha hb => ?product, fun ha hb => ?quotient,
    fun v hv => ⟨(isResult_of_operation c a b v hv).fits, (isResult_of_operation c a b v hv).quiet⟩⟩
  case operand =>
    rw [fadd_nan c h, fsub_nan c h, fmul_nan c a b h, fdiv_nan c a b h]
    exact ⟨isNaN_drawNaN c, isNaN_drawNaN c, isNaN_drawNaN c, isNaN_drawNaN c⟩
  case infinities =>
    refine ⟨by rw [fdiv_inf_inf c ha hb]; exact isNaN_drawNaN c, fun hsigns => ?_, fun hsigns => ?_⟩
    · rw [fadd_inf_inf c ha hb, if_neg hsigns]
      exact isNaN_drawNaN c
    · have hsigns' : signBit c.fmt a ≠ signBit c.fmt (fneg c.fmt b) := by
        rw [signBit_fneg _ _ hfits, hsigns]
        exact (Bool.not_ne_self _).symm
      rw [fsub, fadd_inf_inf c ha ((isInf_fneg _ _ hfits).trans hb), if_neg hsigns']
      exact isNaN_drawNaN c
  case product =>
    rw [fmul_inf_zero c a b ha hb, fmul_zero_inf c hb ha]
    exact ⟨isNaN_drawNaN c, isNaN_drawNaN c⟩
  case quotient =>
    rw [fdiv_finite_zero c (finite_of_zero _ _ ha) hb, if_pos ha]
    exact isNaN_drawNaN c

/-! ## Signed zeros and infinities -/

theorem isInf_makeF_infBits (fmt : Format) (s : Bool) : isInf fmt (makeF fmt s (infBits fmt)) = true :=
  (isInf_iff _ _).2 (magBits_makeF _ _ _ (infBits_lt fmt))

/-- An infinity of the format is its sign. -/
theorem eq_makeF_of_isInf {fmt : Format} {a : F} (h : isInf fmt a = true) (hfits : fitsFormat fmt a = true) :
    makeF fmt (signBit fmt a) (infBits fmt) = a := by
  rw [← (isInf_iff fmt a).1 h, makeF_eta fmt a hfits]

/-- A zero of the format is its sign. -/
theorem eq_makeF_of_isZero {fmt : Format} {a : F} (h : isZero fmt a = true) (hfits : fitsFormat fmt a = true) :
    makeF fmt (signBit fmt a) 0 = a := by
  rw [← (isZero_iff fmt a).1 h, makeF_eta fmt a hfits]

section
variable (c : Fp) {a b : F}

/-- Values of opposite sign whose sum is zero have one magnitude. -/
theorem fadd_of_exact_zero (ha : isFinite c.fmt a = true) (hb : isFinite c.fmt b = true)
    (hsigns : signBit c.fmt a ≠ signBit c.fmt b) (hsum : realValue c.fmt a + realValue c.fmt b = 0) :
    fadd c a b = fzero := by
  have hmag : magUnits c.fmt a = magUnits c.fmt b := by
    have habs : |realValue c.fmt a| = |realValue c.fmt b| := by rw [eq_neg_of_add_eq_zero_left hsum, abs_neg]
    have hunits := abs_realValue c.fmt a
    rw [habs, abs_realValue] at hunits
    exact_mod_cast hunits.symm
  rw [fadd_finite c a b ha hb, addFinite, if_neg hsigns, if_pos hmag]

theorem fadd_zero_self (h : isZero c.fmt a = true) (hfits : fitsFormat c.fmt a = true) : fadd c a a = a := by
  rw [← eq_makeF_of_isZero h hfits, fadd_zeros, Bool.and_self]

/-- An infinity absorbs a finite operand. -/
theorem inf_absorbs_finite (ha : isInf c.fmt a = true) (hb : isFinite c.fmt b = true)
    (hafits : fitsFormat c.fmt a = true) (hbfits : fitsFormat c.fmt b = true) :
    fadd c a b = a ∧ fadd c b a = a ∧ fsub c a b = a := by
  rw [fsub, fadd_inf_finite c ha hb, fadd_finite_inf c hb ha,
    fadd_inf_finite c ha ((isFinite_fneg _ _ hbfits).trans hb), eq_makeF_of_isInf ha hafits]
  exact ⟨rfl, rfl, rfl⟩

theorem signBit_fmul (h : isNaN c.fmt (fmul c a b) = false) :
    signBit c.fmt (fmul c a b) = (signBit c.fmt a != signBit c.fmt b) := by
  rcases fmul_shape c a b with hv | ⟨-, -, m, hm, hv⟩
  · rw [hv, isNaN_drawNaN] at h; cases h
  · rw [hv, signBit_makeF _ _ _ (hm.trans_lt (infBits_lt _))]

theorem signBit_fdiv (h : isNaN c.fmt (fdiv c a b) = false) :
    signBit c.fmt (fdiv c a b) = (signBit c.fmt a != signBit c.fmt b) := by
  rcases fdiv_shape c a b with hv | ⟨m, hm, hv⟩
  · rw [hv, isNaN_drawNaN] at h; cases h
  · rw [hv, signBit_makeF _ _ _ (hm.trans_lt (infBits_lt _))]

end

/-- Settles O55, row by row of R114. -/
theorem signedZerosAndInfinities : Obligations.SignedZerosAndInfinities := by
  refine fun c a b _ hbnan hafits hbfits => ⟨fadd_of_exact_zero c, ?zeroSum,
    fun ha hb => inf_absorbs_finite c ha hb hafits hbfits, signBit_fmul c, signBit_fdiv c, fun ha hb => ?infProduct,
    fun ha hb => ?infQuotient, fun ha hb => ?zeroProduct, fun ha hzero hb => ?zeroDivisor⟩
  case zeroSum =>
    rintro ha rfl
    exact fadd_zero_self c ha hafits
  case infProduct =>
    rw [fmul_inf_left c ha hbnan hb, fmul_inf_right c ha hbnan hb]
    exact ⟨isInf_makeF_infBits _ _, isInf_makeF_infBits _ _⟩
  case infQuotient =>
    rw [fdiv_inf_finite c ha hb, fdiv_finite_inf c hb ha]
    exact ⟨isInf_makeF_infBits _ _, isZero_makeF_zero _ _⟩
  case zeroProduct =>
    rw [fmul_zero c b a hb (finite_of_zero _ _ ha) (.inr ha)]
    exact ⟨isZero_fmul c ha hb, isZero_makeF_zero _ _⟩
  case zeroDivisor =>
    rw [fdiv_finite_zero c ha hb, if_neg (Bool.eq_false_iff.1 hzero), fdiv_zero_left c hb ha hzero]
    exact ⟨isInf_makeF_infBits _ _, isZero_makeF_zero _ _⟩

/-! ## Exact results -/

/-- A finite value's own magnitude is its rounding. -/
theorem roundUnits_magUnits (fmt : Format) {a : F} (h : isFinite fmt a = true) {n d : Nat} (hd : 0 < d)
    (hn : n = magUnits fmt a * d) : roundUnits fmt n d = magBits fmt a :=
  roundUnits_exact fmt (magBits fmt a) n d hd ((isFinite_iff _ _).1 h).le (hn.trans (by rw [magUnits_eq]))

theorem magUnits_fone (fmt : Format) : magUnits fmt (fone fmt) = 2 ^ fmt.unit := by
  cases fmt with
  | binary32 => decide +kernel
  | binary64 => decide +kernel

section
variable (c : Fp) {a : F}

theorem fmul_one (h : isFinite c.fmt a = true) (hfits : fitsFormat c.fmt a = true) : fmul c a (fone c.fmt) = a := by
  rw [fmul_finite c _ _ h (isFinite_fone _), signBit_fone, Bool.bne_false, magUnits_fone,
    roundUnits_magUnits _ h (Nat.two_pow_pos _) rfl, makeF_eta _ _ hfits]

theorem fdiv_one (h : isFinite c.fmt a = true) (hfits : fitsFormat c.fmt a = true) : fdiv c a (fone c.fmt) = a := by
  have hzero : isZero c.fmt (fone c.fmt) = false := by
    refine Bool.eq_false_iff.2 fun hz => (Nat.two_pow_pos c.fmt.unit).ne' ?_
    rw [← magUnits_fone, (magUnits_eq_zero _ _).2 hz]
  rw [fdiv_finite c _ _ h (isFinite_fone _) hzero, signBit_fone, Bool.bne_false, magUnits_fone,
    roundUnits_magUnits _ h (Nat.two_pow_pos _) (Nat.shiftLeft_eq _ _), makeF_eta _ _ hfits]

/-- A sum with a zero keeps a value that is not the zero of the other sign. -/
theorem fadd_zero (h : isFinite c.fmt a = true) (hfits : fitsFormat c.fmt a = true) (t : Bool)
    (hsign : isZero c.fmt a = false ∨ signBit c.fmt a = t) : fadd c a (makeF c.fmt t 0) = a := by
  have hz := isZero_makeF_zero c.fmt t
  rw [fadd_finite c _ _ h (finite_of_zero _ _ hz), (magUnits_eq_zero _ _).2 hz, signBit_makeF_zero, addFinite]
  have hkept : makeF c.fmt (signBit c.fmt a) (roundUnits c.fmt (magUnits c.fmt a) 1) = a := by
    rw [roundUnits_magUnits _ h Nat.one_pos (Nat.mul_one _).symm, makeF_eta _ _ hfits]
  split
  case isTrue => exact hkept
  case isFalse hne =>
    have hunits : magUnits c.fmt a ≠ 0 := fun h0 =>
      Bool.eq_false_iff.1 (hsign.resolve_right hne) ((magUnits_eq_zero _ _).1 h0)
    rw [if_neg hunits, if_pos (Nat.pos_of_ne_zero hunits), Nat.sub_zero]
    exact hkept

/-- The sum with -0 keeps every finite value: only +0 has another sign and no magnitude, and +0 + -0 is +0. -/
theorem fadd_negZero (h : isFinite c.fmt a = true) (hfits : fitsFormat c.fmt a = true) :
    fadd c a (makeF c.fmt true 0) = a := by
  cases hzero : isZero c.fmt a with
  | false => exact fadd_zero c h hfits true (.inl hzero)
  | true => rw [← eq_makeF_of_isZero hzero hfits, fadd_zeros, Bool.and_true]

end

/-- Settles O60: a value is its own rounding, whatever its magnitude. -/
theorem subnormalsAreKept : Obligations.SubnormalsAreKept := by
  intro c a h hfits
  rw [fsub, fzero_eq_makeF c.fmt, fneg_makeF_zero]
  exact ⟨fmul_one c h hfits, fdiv_one c h hfits, fadd_negZero c h hfits, fadd_negZero c h hfits,
    fun hzero => fadd_zero c h hfits false (.inl hzero)⟩

/-! ## Constants (40_numerics.md R119) -/

/-- A value of positive sign is its magnitude. -/
theorem realValue_of_magUnits {fmt : Format} {a : F} {n : Nat} (hsign : signBit fmt a = false)
    (h : magUnits fmt a = n * 2 ^ fmt.unit) : realValue fmt a = n := by
  rw [realValue_eq_signReal, hsign, h, signReal, if_neg Bool.false_ne_true, one_mul, Nat.cast_mul, Nat.cast_pow,
    Nat.cast_ofNat, mul_div_cancel_right₀ _ (by positivity)]

theorem magUnits_ffRef (fmt : Format) : magUnits fmt (ffRef fmt) = 20000 * 2 ^ fmt.unit := by
  cases fmt with
  | binary32 => decide +kernel
  | binary64 => decide +kernel

theorem magUnits_ftwo (fmt : Format) : magUnits fmt (ftwo fmt) = 2 * 2 ^ fmt.unit := by
  cases fmt with
  | binary32 => decide +kernel
  | binary64 => decide +kernel

/-- Settles O58: the encodings are evaluated, and the real values read off the magnitudes. -/
theorem constantEncodings : Obligations.ConstantEncodings := by
  refine ⟨by decide +kernel, by decide +kernel, by decide +kernel, by decide +kernel, fun fmt => ⟨?ref, ?two, ?one⟩⟩
  case ref => exact realValue_of_magUnits (signBit_ffRef fmt) (magUnits_ffRef fmt)
  case two => exact realValue_of_magUnits (signBit_makeF _ _ _ (roundUnits_lt _ _ _)) (magUnits_ftwo fmt)
  case one =>
    have hone := realValue_of_magUnits (signBit_fone fmt) ((magUnits_fone fmt).trans (Nat.one_mul _).symm)
    rwa [Nat.cast_one] at hone

end Sys2Proof.Machine
end
